-- ==== Sys2Proof/Word.lean ====
section
/-! DEFINITION. The word and byte types of the host port: 00_scope.md R10 (a word is 32 bits, bit 0 is its least
significant bit, every integer is unsigned) and 20_memory.md R69 (the byte lanes of a word). -/

namespace Sys2Proof

/-- One 32-bit word, the only unit a host transaction moves (R10, R60, R63). -/
abbrev Word := BitVec 32

/-- One byte lane of a word (R69). -/
abbrev Byte := BitVec 8

end Sys2Proof
end

