-- ==== Sys2Proof/Config.lean ====
section
/-! DEFINITION. What an implementation of the core fixes (00_scope.md R6, R8; 92_eei_decisions.md D2, D4), and the one
free value of the model: what a host read returns where the spec says only "an arbitrary value (a draw)". -/

namespace Sys2Proof

/-- The finite field FIELD of R6 as plain data.
`prime q` is the normative instance GF(Q), an element's code being its canonical residue.
`table add mul` is any other finite field under any coding of its elements (S12 leaves the coding to the parameter):
row `a`, column `b` of a table is the code of the sum or of the product of the elements coded `a` and `b`.
The operations read from either form are in Machine/Field.lean. -/
inductive FieldDesc where
  | prime (q : Nat)
  | table (add mul : List (List Nat))
  deriving DecidableEq, Repr

/-- The implementation parameters: FIELD (R6) and NMAX (R8). They are what the constant registers CFG and FSIZE
report (R22, R23), and State holds them; no step changes them. -/
structure Config where
  /-- FIELD, with its FSIZE (R6). -/
  field : FieldDesc
  /-- NMAX, the largest code length the core accepts (R8). -/
  nmax : Nat
  deriving DecidableEq, Repr

/-- FREE VALUE (assumption log 4). What the n-th arbitrary host read of a run returns: a read of a never-written buffer
element (R52, R65) or of mutable state while BUSY (R67). It has no body: nothing can be proved of its values. -/
opaque Config.freeRead : Nat → Word

end Sys2Proof
end

