-- ==== Sys2Proof/Syntax.lean ====
section
/-! DEFINITION. The command set GRSC v1 (30_encoding.md R92), the names of the register map (10_state.md R20, R41;
20_memory.md R62), and the host's assembly language (30_encoding.md R96-R98). -/

namespace Sys2Proof

/-- The eight commands: one constructor per row of spec/opcode_table.json. No command has an operand field (R91). -/
inductive Instr where
  | nop
  | encode
  | weights
  | syndrome
  | bmsyn
  | roots
  | recover
  | decode
  deriving DecidableEq, Repr

/-- Why a command word is ILLEGAL (R93): a nonzero reserved field, or an opcode the map does not assign. -/
inductive IllegalWord where
  /-- `word[31:8] ≠ 0`. -/
  | reservedNonzero
  /-- `word[31:8] = 0` and `word[7:0] ≥ 0x08`. -/
  | unassignedOpcode
  deriving DecidableEq, Repr

/-- The registers, in the order of their offsets 0x0000, 0x0004, ..., 0x0030 (R62). -/
inductive RegName where
  | id
  | cfg
  | fsize
  | cmd
  | status
  | n
  | k
  | count
  | t
  | bmL
  | bmM
  | bmB
  | nerr
  deriving DecidableEq, Repr

/-- The eight element buffers (R41). The ninth window, ERRMAP, is a bitmap and stands apart. -/
inductive Buf where
  | alpha
  | cw
  | msg
  | dec
  | w
  | s
  | lambda
  | bpoly
  deriving DecidableEq, Repr

/-- A window of the address map: an element buffer or ERRMAP (R62). -/
inductive Window where
  | buf (b : Buf)
  | errmap
  deriving DecidableEq, Repr

/-- A location of the assembly language: a register name, a buffer element (ERRMAP indexed by word) or a byte
offset `@0x....` (R96). -/
inductive Loc where
  | reg (r : RegName)
  | elem (w : Window) (i : Nat)
  | offset (a : BitVec 16)
  deriving DecidableEq, Repr

/-- A WR value: a literal or a command mnemonic, which stands for its opcode (R96). -/
inductive AsmValue where
  | lit (v : Nat)
  | mnemonic (i : Instr)
  deriving DecidableEq, Repr

/-- A line of the host's assembly language: the transactions of R96 and the pseudo-instructions of R98. The values of LOAD
and GEOM are literals: whether they may also be command mnemonics, as a WR's may, R98 does not say (DESIGN CHOICE, assumption
log 12). -/
inductive AsmLine where
  | wr (l : Loc) (v : AsmValue)
  | rd (l : Loc)
  /-- `RD <loc> -> <expect>`: the expected value is a check of the test, not a field of the transaction. R96 does not say what
  form `<expect>` has, and R98 writes a bit condition in CHECK; here it is a literal (DESIGN CHOICE, assumption log 12). -/
  | rdExpect (l : Loc) (expect : Nat)
  | cmd (i : Instr)
  | wait
  | run (i : Instr)
  | load (w : Window) (vs : List Nat)
  | geom (n k : Nat)
  | check
  deriving DecidableEq, Repr

/-- What the host agent does next, after the pseudo-instructions but WAIT are expanded. WAIT stays: it is the only loop
of a host program (R98). Offsets are byte offsets of the 16-bit space 0x0000-0xFFFC (R61). -/
inductive HostOp where
  | wr (addr : BitVec 16) (v : Word)
  | rd (addr : BitVec 16)
  | wait
  deriving DecidableEq, Repr

/-- One transaction of the host port, as the triple `(we, waddr, wdata)` of R96, with a 14-bit word address (R60). -/
structure Transaction where
  we : Bool
  waddr : BitVec 14
  wdata : Word
  deriving DecidableEq, Repr

end Sys2Proof
end

