-- ==== Sys2Proof/WellFormed.lean ====
section
/-! DEFINITION. What the assembler and the encoder admit: 30_encoding.md R90 (the reserved field is 0), R96 (values are
below 2^32) and R97 (an index beyond the buffer is rejected); 20_memory.md R63 (offsets are multiples of 4). -/

namespace Sys2Proof

/-- A command has no operand field (R91), so every constructor is well formed. -/
def Instr.wf (_ : Instr) : Bool := true

/-- The number of words of the ERRMAP window: `ceil(NMAX / 32)` (R50). -/
def errmapWords (nmax : Nat) : Nat := (nmax + 31) / 32

/-- R97: an index beyond `NMAX - 1` for a buffer, or beyond `ceil(NMAX/32) - 1` for ERRMAP, is rejected. -/
def Window.indexWf (nmax : Nat) (w : Window) (i : Nat) : Bool :=
  match w with
  | .buf _ => decide (i < nmax)
  | .errmap => decide (i < errmapWords nmax)

/-- A location the assembler admits (R63, R97). -/
def Loc.wf (nmax : Nat) (l : Loc) : Bool :=
  match l with
  | .reg _ => true
  | .elem w i => w.indexWf nmax i
  | .offset a => decide (a.toNat % 4 = 0)

/-- R96: `0 ≤ value < 2^32`. -/
def literalWf (v : Nat) : Bool := decide (v < 2 ^ 32)

/-- R96: a literal in range, or a mnemonic. -/
def AsmValue.wf (v : AsmValue) : Bool :=
  match v with
  | .lit n => literalWf n
  | .mnemonic i => i.wf

/-- A line the assembler admits (R96-R98). `LOAD` has at least the value `v0`; `<expect>` is a literal below 2^32 (DESIGN CHOICE,
assumption log 12). -/
def AsmLine.wf (nmax : Nat) (l : AsmLine) : Bool :=
  match l with
  | .wr l v => l.wf nmax && v.wf
  | .rd l => l.wf nmax
  | .rdExpect l e => l.wf nmax && literalWf e
  | .cmd i => i.wf
  | .wait => true
  | .run i => i.wf
  | .load w vs => (decide (vs ≠ []) && vs.all literalWf) && w.indexWf nmax (vs.length - 1)
  | .geom n k => literalWf n && literalWf k
  | .check => true

/-- R8: `1 ≤ NMAX ≤ 1023`. -/
def Config.nmaxWf (c : Config) : Bool := decide (1 ≤ c.nmax) && decide (c.nmax ≤ 1023)

end Sys2Proof
end

