-- ==== Sys2Proof/Decode.lean ====
section
/-! DEFINITION. The command word: decoder and encoder (30_encoding.md R90-R95), the opcode table's rows, and the
encoding of the host's transactions (30_encoding.md R96-R99). -/

namespace Sys2Proof

/-- The field OP, bits [7:0] (R90). -/
def opField (word : Word) : BitVec 8 := word.extractLsb' 0 8

/-- The field RSV, bits [31:8] (R90). -/
def rsvField (word : Word) : BitVec 24 := word.extractLsb' 8 24

/-- The opcode map (R92): the command an opcode selects. -/
def opcodeInstr (op : BitVec 8) : Option Instr :=
  match op.toNat with
  | 0x00 => some .nop
  | 0x01 => some .encode
  | 0x02 => some .weights
  | 0x03 => some .syndrome
  | 0x04 => some .bmsyn
  | 0x05 => some .roots
  | 0x06 => some .recover
  | 0x07 => some .decode
  | _ => none

/-- R93: total over all 2^32 words. An ILLEGAL word is rejected by the name of its reason. -/
def decode (word : Word) : Except IllegalWord Instr :=
  if rsvField word ≠ 0 then .error .reservedNonzero
  else match opcodeInstr (opField word) with
    | some i => .ok i
    | none => .error .unassignedOpcode

/-- The opcode of each command (R92). -/
def Instr.opcode (i : Instr) : BitVec 8 :=
  match i with
  | .nop => 0x00
  | .encode => 0x01
  | .weights => 0x02
  | .syndrome => 0x03
  | .bmsyn => 0x04
  | .roots => 0x05
  | .recover => 0x06
  | .decode => 0x07

/-- The command word of a command: RSV = 0 above OP (R90, R92). -/
def encode (i : Instr) : Word := (0 : BitVec 24) ++ i.opcode

/-- A row of spec/opcode_table.json: `word &&& mask = value` selects the command. -/
structure OpcodeRow where
  instr : Instr
  value : Word
  mask : Word
  deriving DecidableEq, Repr

/-- R93: every row has `mask = 0xFFFFFFFF` and `match = OP`. -/
def opcodeTable : List OpcodeRow :=
  [⟨.nop, 0x00000000, 0xFFFFFFFF⟩, ⟨.encode, 0x00000001, 0xFFFFFFFF⟩,
   ⟨.weights, 0x00000002, 0xFFFFFFFF⟩, ⟨.syndrome, 0x00000003, 0xFFFFFFFF⟩,
   ⟨.bmsyn, 0x00000004, 0xFFFFFFFF⟩, ⟨.roots, 0x00000005, 0xFFFFFFFF⟩,
   ⟨.recover, 0x00000006, 0xFFFFFFFF⟩, ⟨.decode, 0x00000007, 0xFFFFFFFF⟩]

/-- Does a word match a row? -/
def OpcodeRow.selects (r : OpcodeRow) (word : Word) : Bool := word &&& r.mask == r.value

/-- The command word an instruction of `nbits` bits stands for: every bit above `nbits` is 0. -/
def tableWord (nbits w : Nat) : Word := BitVec.ofNat 32 (w % 2 ^ nbits)

/-- The command the decoder reads from a row's bits (the host's fixed name). -/
def decodeTableWord (nbits w : Nat) : Option Instr :=
  match decode (tableWord nbits w) with
  | .ok i => some i
  | .error _ => none

/-! The address map's spellings and the host's transactions. -/

/-- The word index of a register: its byte offset is four times this (R62). -/
def RegName.index (r : RegName) : Nat :=
  match r with
  | .id => 0
  | .cfg => 1
  | .fsize => 2
  | .cmd => 3
  | .status => 4
  | .n => 5
  | .k => 6
  | .count => 7
  | .t => 8
  | .bmL => 9
  | .bmM => 10
  | .bmB => 11
  | .nerr => 12

/-- The byte offset of a buffer's window (R41, R62). -/
def Buf.base (b : Buf) : Nat :=
  match b with
  | .alpha => 0x1000
  | .cw => 0x2000
  | .msg => 0x3000
  | .dec => 0x4000
  | .w => 0x5000
  | .s => 0x6000
  | .lambda => 0x7000
  | .bpoly => 0x8000

/-- The byte offset of a window (R62). -/
def Window.base (w : Window) : Nat :=
  match w with
  | .buf b => b.base
  | .errmap => 0x9000

/-- `addr(<loc>)`: the byte offset of a location (R62, R96). -/
def Loc.addr (l : Loc) : BitVec 16 :=
  match l with
  | .reg r => BitVec.ofNat 16 (4 * r.index)
  | .elem w i => BitVec.ofNat 16 (w.base + 4 * i)
  | .offset a => a

/-- The word a WR value stands for (R96). -/
def AsmValue.word (v : AsmValue) : Word :=
  match v with
  | .lit n => BitVec.ofNat 32 n
  | .mnemonic i => encode i

/-- The writes of `LOAD <BUF>, v_i, v_{i+1}, ...`, from index `i` on (R98). -/
def loadFrom (w : Window) (i : Nat) (vs : List Nat) : List HostOp :=
  match vs with
  | [] => []
  | v :: rest => .wr (Loc.addr (.elem w i)) (BitVec.ofNat 32 v) :: loadFrom w (i + 1) rest

/-- R96, R98: what a line makes the host do. -/
def AsmLine.expand (l : AsmLine) : List HostOp :=
  match l with
  | .wr l v => [.wr l.addr v.word]
  | .rd l => [.rd l.addr]
  | .rdExpect l _ => [.rd l.addr]
  | .cmd i => [.wr (Loc.addr (.reg .cmd)) (encode i)]
  | .wait => [.wait]
  | .run i => [.wr (Loc.addr (.reg .cmd)) (encode i), .wait]
  | .load w vs => loadFrom w 0 vs
  | .geom n k => [.wr (Loc.addr (.reg .n)) (BitVec.ofNat 32 n), .wr (Loc.addr (.reg .k)) (BitVec.ofNat 32 k)]
  | .check => [.rd (Loc.addr (.reg .status))]

/-- A host program: the lines in order (R96). -/
def assemble (ls : List AsmLine) : List HostOp := ls.flatMap AsmLine.expand

/-- The word address of an aligned byte offset: `waddr = addr >> 2` (R96); a misaligned offset spells no transaction (R63). -/
def waddrOf (addr : BitVec 16) : Option (BitVec 14) :=
  if addr.toNat % 4 = 0 then some (BitVec.ofNat 14 (addr.toNat / 4)) else none

/-- The byte offset of a word address: `addr = 4 * waddr` (R61). -/
def byteOffset (waddr : BitVec 14) : BitVec 16 := BitVec.ofNat 16 (4 * waddr.toNat)

/-- R96: the encoding of one line as `(we, waddr, wdata)`. A WAIT issues reads of STATUS (R98). -/
def HostOp.transaction (op : HostOp) : Option Transaction :=
  match op with
  | .wr a v => (waddrOf a).map fun wa => { we := true, waddr := wa, wdata := v }
  | .rd a => (waddrOf a).map fun wa => { we := false, waddr := wa, wdata := 0 }
  | .wait => some { we := false, waddr := 0x0004, wdata := 0 }

/-- The host action a transaction triple spells: a write or a read at byte offset `4 * waddr` (R61, R96). -/
def Transaction.hostOp (t : Transaction) : HostOp :=
  if t.we then .wr (byteOffset t.waddr) t.wdata else .rd (byteOffset t.waddr)

end Sys2Proof
end

