-- ==== Sys2Proof/Machine/Field.lean ====
section
/-! DEFINITION. The field arithmetic unit: 40_field_poly.md R120-R127, over the field of 00_scope.md R6, with the element
width of R7. A code is a natural number, computed exactly; DivisionByZero is `none`. -/

namespace Sys2Proof

/-- FSIZE, the number of elements (R6). -/
def FieldDesc.size (F : FieldDesc) : Nat :=
  match F with
  | .prime q => q
  | .table add _ => add.length

/-- Row `a`, column `b` of an operation table. -/
def tableEntry (t : List (List Nat)) (a b : Nat) : Nat := (t.getD a []).getD b 0

/-- PRIME of CFG: is FIELD the prime field GF(Q), an element's code being its canonical residue (R6, R22)? Tables are, when
they are those of the residues. A field of prime order under another coding is not (DESIGN CHOICE, assumption log 2). -/
def FieldDesc.isPrime (F : FieldDesc) : Bool :=
  match F with
  | .prime _ => true
  | .table add mul =>
    let q := add.length
    (List.range q).all fun a => (List.range q).all fun b =>
      decide (tableEntry add a b = (a + b) % q) && decide (tableEntry mul a b = a * b % q)

/-- EW, the element width: `max(1, ceil(log2(FSIZE)))`, the fewest bits that hold every code (R7). FSIZE is below 2^32. -/
def FieldDesc.ew (F : FieldDesc) : Nat :=
  max 1 (((List.range 33).find? fun e => decide (F.size ≤ 2 ^ e)).getD 32)

/-- The field sum. For GF(Q): `(a + b) mod Q`, on integers (R121). -/
def FieldDesc.fadd (F : FieldDesc) (a b : Nat) : Nat :=
  match F with
  | .prime q => (a + b) % q
  | .table add _ => tableEntry add a b

/-- The field product. For GF(Q): `(a * b) mod Q` (R123). -/
def FieldDesc.fmul (F : FieldDesc) (a b : Nat) : Nat :=
  match F with
  | .prime q => (a * b) % q
  | .table _ mul => tableEntry mul a b

/-- The field difference. For GF(Q): `(a + Q - b) mod Q`; for any field, the unique c with `fadd b c = a` (R122). -/
def FieldDesc.fsub (F : FieldDesc) (a b : Nat) : Nat :=
  match F with
  | .prime q => (a + q - b) % q
  | .table add _ => ((List.range add.length).find? fun c => decide (tableEntry add b c = a)).getD 0

/-- `a^e mod q` by squaring, for exponents below `2^bits`. -/
def powMod (q a bits e : Nat) : Nat :=
  match bits with
  | 0 => 1 % q
  | bits + 1 =>
    if e % 2 = 1 then a * powMod q (a * a % q) bits (e / 2) % q else powMod q (a * a % q) bits (e / 2)

/-- The multiplicative inverse; `none` is DivisionByZero, raised exactly for 0, before any power is taken (R124).
For GF(Q): `a^(Q-2) mod Q`, and Q is below 2^32. For any field, the unique b with `fmul a b = 1`. -/
def FieldDesc.finv (F : FieldDesc) (a : Nat) : Option Nat :=
  if a = 0 then none
  else match F with
    | .prime q => some (powMod q a 32 (q - 2))
    | .table _ mul => (List.range mul.length).find? fun b => decide (tableEntry mul a b = 1)

/-- `a` multiplied by itself `j` times; `fpow a 0 = 1` for every `a`, 0 included (R125). -/
def FieldDesc.fpow (F : FieldDesc) (a j : Nat) : Nat :=
  match j with
  | 0 => 1
  | j + 1 => F.fmul (F.fpow a j) a

/-- The sum over a finite index sequence; the empty sum is 0 (R11, R126). -/
def FieldDesc.fsum (F : FieldDesc) (xs : List Nat) : Nat := xs.foldl F.fadd 0

/-- The product over a finite index sequence; the empty product is 1 (R11, R126). -/
def FieldDesc.fprod (F : FieldDesc) (xs : List Nat) : Nat := xs.foldl F.fmul 1

/-- A code is canonical when it names an element (R40, R120). -/
def FieldDesc.Canonical (F : FieldDesc) (a : Nat) : Prop := a < F.size

/-- The codes of F with `fadd` and `fmul` form a field with 0 and 1 as its identities (R6, R126). -/
structure FieldDesc.IsField (F : FieldDesc) : Prop where
  one_lt : 1 < F.size
  add_lt : ∀ a, a < F.size → ∀ b, b < F.size → F.fadd a b < F.size
  mul_lt : ∀ a, a < F.size → ∀ b, b < F.size → F.fmul a b < F.size
  add_comm : ∀ a, a < F.size → ∀ b, b < F.size → F.fadd a b = F.fadd b a
  add_assoc : ∀ a, a < F.size → ∀ b, b < F.size → ∀ c, c < F.size →
    F.fadd (F.fadd a b) c = F.fadd a (F.fadd b c)
  add_zero : ∀ a, a < F.size → F.fadd a 0 = a
  add_neg : ∀ a, a < F.size → ∃ b, b < F.size ∧ F.fadd a b = 0
  mul_comm : ∀ a, a < F.size → ∀ b, b < F.size → F.fmul a b = F.fmul b a
  mul_assoc : ∀ a, a < F.size → ∀ b, b < F.size → ∀ c, c < F.size →
    F.fmul (F.fmul a b) c = F.fmul a (F.fmul b c)
  mul_one : ∀ a, a < F.size → F.fmul a 1 = a
  mul_inv : ∀ a, a < F.size → a ≠ 0 → ∃ b, b < F.size ∧ F.fmul a b = 1
  distrib : ∀ a, a < F.size → ∀ b, b < F.size → ∀ c, c < F.size →
    F.fmul a (F.fadd b c) = F.fadd (F.fmul a b) (F.fmul a c)

/-- A value the parameter FIELD may take: a prime Q, or two square operation tables of one size that form a field; FSIZE is
at most `2^32 - 1` (R6). -/
def FieldDesc.Valid (F : FieldDesc) : Prop :=
  F.size ≤ 2 ^ 32 - 1 ∧
    match F with
    | .prime q => q.Prime
    | .table add mul =>
      mul.length = add.length ∧ (∀ row ∈ add, row.length = add.length) ∧ (∀ row ∈ mul, row.length = add.length) ∧
      (FieldDesc.table add mul).IsField

/-- Parameters the spec allows (R6, R8). -/
def Config.Valid (c : Config) : Prop := c.field.Valid ∧ 1 ≤ c.nmax ∧ c.nmax ≤ 1023

end Sys2Proof
end

