-- ==== Sys2Proof/Machine/Reference.lean ====
section
/-! DEFINITION. The parameter values of the machine the model starts as: DESIGN CHOICE, assumption log 1. FIELD and NMAX
are parameters (00_scope.md R6, R8); every other definition and every statement takes them from the state. -/

namespace Sys2Proof.Machine

/-- GF(31) and NMAX = 16, the parameters of program P2 of 95_test_vectors.md. DESIGN CHOICE, assumption log 1. -/
def referenceConfig : Config := { field := .prime 31, nmax := 16 }

end Sys2Proof.Machine
end

