-- ==== Sys2Proof/Machine/State.lean ====
section
/-! DEFINITION. The state of the core and of the two agents around its port, as plain data: 10_state.md R20-R54, with the
reset state of R54 and 70_reset_and_hazards.md R280; the reasons a step can stop. -/

namespace Sys2Proof.Machine

/-- What a command can raise (60_exceptions.md R250). -/
inductive Exception where
  | illegalCommand
  | lengthMismatch
  | rangeError
  | divisionByZero
  deriving DecidableEq, Repr

/-- Why the model stops where the core does not. Raised by a command alone. -/
inductive Fault where
  /-- Raised by a command that reads element `i` of buffer `b` as an operand while it holds no value: never written since
  reset (R52, R261, R283; S1, S5 of 93_implementation_defined.md). Safe: the core computes with whatever its storage
  holds, and the model stops instead. -/
  | unwrittenElement (b : Buf) (i : Nat)
  deriving DecidableEq, Repr

/-- Why the model refuses a step. -/
inductive Refusal where
  /-- Raised by `exec` for a command without a meaning. No arm of this model raises it. Safe. -/
  | notModelled (mnemonic : String)
  /-- Raised by a host action at a byte offset that is no multiple of 4: it spells no transaction (R63, R261, S4).
  Safe: the word port cannot express it. -/
  | misalignedOffset (addr : BitVec 16)
  deriving DecidableEq, Repr

/-- The outcome of computing a command: a value to commit, an exception, or a model fault. -/
inductive Attempt (α : Type) where
  | ok (a : α)
  | raised (e : Exception)
  | faulted (f : Fault)
  deriving DecidableEq, Repr

/-- The fields of STATUS (R26). The word the host reads is `Status.toWord` of Flags.lean. -/
structure Status where
  /-- [0]: a command has been accepted and has not completed (R27). -/
  busy : Bool
  /-- [1]: the last accepted command has completed (R28). -/
  done : Bool
  /-- [2]: a host write was dropped because BUSY was 1 (R29). -/
  wovr : Bool
  /-- [3]: the last RECOVER or DECODE found fewer than K valid points (R30). -/
  insuf : Bool
  /-- [7:4]: the error code of the last completed command (R31). -/
  err : BitVec 4
  /-- [8]: W holds the weights of the current points (R32). -/
  wValid : Bool
  deriving DecidableEq, Repr

/-- Who moves next: an agent of R5, or the environment that drives the pin `rst` (R280, R282). -/
inductive Turn where
  | host
  | core
  | assertRst
  | releaseRst
  deriving DecidableEq, Repr

/-- The contents of the buffers: one cell for each byte lane that holds a value, at its byte offset in the host register
space, in rising order (20_memory.md R62, R69). An offset that is not listed holds no value (R52). -/
abbrev Mem := List Host.Cell

/-- The machine: the architectural state of R20, the pin `rst`, and the host agent with the interleaving of R73. -/
structure State where
  /-- The parameters behind the constant registers CFG and FSIZE (R22, R23). -/
  cfg : Config
  /-- CMDLATCH, the last accepted command word (R24). -/
  cmdlatch : Word
  /-- STATUS (R26). -/
  status : Status
  /-- N, 16 bits (R25). -/
  n : BitVec 16
  /-- K, 16 bits (R25). -/
  k : BitVec 16
  /-- BM_L, 16 bits (R36). -/
  bmL : BitVec 16
  /-- BM_M, 16 bits (R37). -/
  bmM : BitVec 16
  /-- BM_B, an element word (R38). -/
  bmB : Word
  /-- ERRMAP: bit i is position i. NMAX is at most 1023, so 1024 bits hold every window word (R50). -/
  errmap : BitVec 1024
  /-- NERR, 16 bits (R39). -/
  nerr : BitVec 16
  /-- ALPHA, CW, MSG, DEC, W, S, LAMBDA and BPOLY (R41). -/
  mem : Mem
  /-- The pin `rst`, active high (R280). -/
  rst : Bool
  /-- The host agent: what it has still to do, in program order (R5, R73, R96). -/
  program : List HostOp
  /-- The interleaving still to come (R73). When it is empty the core moves if BUSY, else the host. -/
  schedule : List Turn
  /-- What the host's reads have returned, the latest first (R294). -/
  reads : List Word
  /-- How many arbitrary reads have been drawn: the MODEL's own counter behind the free value (assumption log 4). -/
  draws : Nat
  deriving DecidableEq, Repr

/-- STATUS after reset: 0 (R54). -/
def Status.reset : Status :=
  { busy := false, done := false, wovr := false, insuf := false, err := 0, wValid := false }

/-- The state of R54 and R280 on a core with the parameters `c`, with an idle host that has done nothing yet. -/
def State.resetOf (c : Config) : State :=
  { cfg := c, cmdlatch := 0, status := Status.reset, n := 0, k := 0, bmL := 0, bmM := 1, bmB := 1
    errmap := 0, nerr := 0, mem := [], rst := false, program := [], schedule := [], reads := [], draws := 0 }

/-- The machine right after reset (R54, R280), with the reference parameters (assumption log 1). -/
def State.reset : State := State.resetOf referenceConfig

end Sys2Proof.Machine
end

