-- ==== Sys2Proof/Machine/Ops.lean ====
section
/-! DEFINITION. The named operations over the buffers, the bitmap and STATUS: reading and writing bytes, words and elements
(10_state.md R40, R41, R50, R52; 20_memory.md R62, R69), accepting a command (45_decode_control.md R239), and its two
ends, completion and abort (R240; 60_exceptions.md R252). -/

namespace Sys2Proof.Machine

/-! Sequencing of a command's computation: control does not return after a `raise` (00_scope.md R11). -/

/-- Go on with the value, or stop as the first part stopped (R11). -/
def Attempt.andThen (x : Attempt α) (f : α → Attempt β) : Attempt β :=
  match x with
  | .ok a => f a
  | .raised e => .raised e
  | .faulted g => .faulted g

/-- A primitive's `none` is DivisionByZero (R124). -/
def orDivisionByZero (x : Option α) : Attempt α :=
  match x with
  | some a => .ok a
  | none => .raised .divisionByZero

/-! Bytes. -/

/-- What an offset that is not listed reads as: no value (R52). -/
def unlistedByte (_addr : Nat) : Option Byte := none

/-- Read one byte lane. -/
def readByte (m : Mem) (a : Nat) : Option Byte :=
  match m with
  | [] => unlistedByte a
  | (b, v) :: rest => if a = b then some v else readByte rest a

/-- Write one byte lane, keeping the offsets in rising order. No byte equals what an unlisted offset reads as, so no
write removes a cell. -/
def writeByte (m : Mem) (a : Nat) (v : Byte) : Mem :=
  match m with
  | [] => [(a, v)]
  | (b, w) :: rest =>
    if a < b then (a, v) :: (b, w) :: rest
    else if a = b then (a, v) :: rest
    else (b, w) :: writeByte rest a v

/-- The canonical form of the buffers' contents: offsets strictly rising. -/
abbrev Mem.wf (m : Mem) : Prop := m.Pairwise fun c d => c.1 < d.1

/-! Words: little-endian byte lanes (R69). -/

/-- Byte `j` of a word is bits `[8j+7 : 8j]` (R69). -/
def byteLane (w : Word) (j : Nat) : Byte := w.extractLsb' (8 * j) 8

/-- Read the word at a byte offset; it holds a value when its four lanes do (R69). -/
def readWord (m : Mem) (a : Nat) : Option Word :=
  match readByte m a, readByte m (a + 1), readByte m (a + 2), readByte m (a + 3) with
  | some b0, some b1, some b2, some b3 => some (b3 ++ b2 ++ b1 ++ b0)
  | _, _, _, _ => none

/-- Write the word at a byte offset (R69). -/
def writeWord (m : Mem) (a : Nat) (w : Word) : Mem :=
  writeByte (writeByte (writeByte (writeByte m a (byteLane w 0)) (a + 1) (byteLane w 1))
    (a + 2) (byteLane w 2)) (a + 3) (byteLane w 3)

/-! Elements. -/

/-- Element `i` of a buffer is at byte offset `base + 4 * i` (R41, R62). -/
def elemAddr (b : Buf) (i : Nat) : Nat := b.base + 4 * i

/-- The value an element holds, if it holds one (R52). -/
def State.elem (s : State) (b : Buf) (i : Nat) : Option Word := readWord s.mem (elemAddr b i)

/-- The word an element stores for written data: bits `[EW-1:0]`, with bits `[31:EW]` zero (R40). -/
def elemWord (F : FieldDesc) (v : Nat) : Word := BitVec.ofNat 32 (v % 2 ^ F.ew)

/-- Write one element: it stores bits `[EW-1:0]` of the data (R40). -/
def writeElem (F : FieldDesc) (m : Mem) (b : Buf) (i v : Nat) : Mem := writeWord m (elemAddr b i) (elemWord F v)

/-- Write elements `i, i+1, ...` of a buffer. -/
def writeElemsFrom (F : FieldDesc) (m : Mem) (b : Buf) (i : Nat) (vs : List Nat) : Mem :=
  match vs with
  | [] => m
  | v :: rest => writeElemsFrom F (writeElem F m b i v) b (i + 1) rest

/-- `BUF[i] <- v` (R11, R40). -/
def State.setElem (s : State) (b : Buf) (i v : Nat) : State := { s with mem := writeElem s.cfg.field s.mem b i v }

/-- `BUF[0..len-1] <- vs` (R11). -/
def State.setElems (s : State) (b : Buf) (vs : List Nat) : State :=
  { s with mem := writeElemsFrom s.cfg.field s.mem b 0 vs }

/-- Read elements `i, i+1, ..., i+len-1` as operands. Reading one that holds no value is the model fault of R52. -/
def State.readElemsFrom (s : State) (b : Buf) (i len : Nat) : Attempt (List Nat) :=
  match len with
  | 0 => .ok []
  | len + 1 =>
    match s.elem b i with
    | none => .faulted (.unwrittenElement b i)
    | some w => (s.readElemsFrom b (i + 1) len).andThen fun vs => .ok (w.toNat :: vs)

/-- `BUF[0..len-1]` as operands. -/
def State.readElems (s : State) (b : Buf) (len : Nat) : Attempt (List Nat) := s.readElemsFrom b 0 len

/-! The error-position bitmap (R50). -/

/-- Bit `i` of ERRMAP: is position `i` in the error-position set? -/
def State.errBit (s : State) (i : Nat) : Bool := s.errmap.getLsbD i

/-- The bitmap of a set of positions (R50). -/
def bitmapOf (ps : List Nat) : BitVec 1024 :=
  ps.foldl (fun m i => m ||| BitVec.twoPow 1024 i) 0

/-- Commit an error-position set: every bit of ERRMAP, and NERR, the number of positions (R202, R203). -/
def State.setErrors (s : State) (ps : List Nat) : State :=
  { s with errmap := bitmapOf ps, nerr := BitVec.ofNat 16 ps.length }

/-! Acceptance, completion, abort. -/

/-- The 4-bit code of an exception (R250). -/
def Exception.code (e : Exception) : BitVec 4 :=
  match e with
  | .illegalCommand => 1
  | .lengthMismatch => 2
  | .rangeError => 3
  | .divisionByZero => 4

/-- Acceptance of a command word (R239): the word is latched, not decoded; ERR, WOVR and INSUF are cleared. -/
def accept (word : Word) (s : State) : State :=
  { s with
    cmdlatch := word
    status := { s.status with busy := true, done := false, err := 0, wovr := false, insuf := false } }

/-- The end of a command that commits: BUSY <- 0, DONE <- 1 (R240), and ERR <- 0, as each command's rule lists among the
common completion flags (R150). Acceptance has cleared ERR already. -/
def finish (s : State) : State :=
  { s with status := { s.status with busy := false, done := true, err := 0 } }

/-- TAKING AN EXCEPTION: the end of a command that raises (R240, R252). ERR <- code, BUSY <- 0, DONE <- 1, and nothing
else: the state is that at acceptance. There is no saved pc, no handler and no return (R253, R264); the next acceptance
clears ERR (R239). -/
def abort (e : Exception) (s : State) : State :=
  { s with status := { s.status with busy := false, done := true, err := e.code } }

/-- Completion (R240): apply the commit, or abort with the code and nothing else. `s` is the state the command ran in,
`r` what its rule computed: the state with its commit applied, or an exception, or a model fault. -/
def complete (s : State) (r : Attempt State) : Host.Outcome State Fault Refusal :=
  match r with
  | .ok t => .next (finish t)
  | .raised e => .next (abort e s)
  | .faulted f => .fault f

end Sys2Proof.Machine
end

