-- ==== Sys2Proof/Machine/Operands.lean ====
section
/-! DEFINITION. The operand checks every command but NOP makes: 60_exceptions.md R254-R256, and the derived counts of
10_state.md R33. -/

namespace Sys2Proof.Machine

/-- N as a number. -/
def State.len (s : State) : Nat := s.n.toNat

/-- K as a number. -/
def State.dim (s : State) : Nat := s.k.toNat

/-- COUNT: `N - K` when `1 ≤ K ≤ N`, else 0 (R33). -/
def State.count (s : State) : Nat := if 1 ≤ s.dim ∧ s.dim ≤ s.len then s.len - s.dim else 0

/-- T, the correction radius: `COUNT >> 1` (R33). -/
def State.radius (s : State) : Nat := s.count / 2

/-- The geometry the core accepts: `1 ≤ K ≤ N ≤ NMAX` (R9, R255). -/
def State.GeometryOk (s : State) : Prop := 1 ≤ s.dim ∧ s.dim ≤ s.len ∧ s.len ≤ s.cfg.nmax

/-- `check_geometry()` (R255). -/
def State.checkGeometry (s : State) : Attempt Unit :=
  if 1 ≤ s.dim ∧ s.dim ≤ s.len ∧ s.len ≤ s.cfg.nmax then .ok () else .raised .lengthMismatch

/-- `check_canonical(BUF[i..i+len-1])`, returning the codes read (R256). Elements are checked in increasing order: the first
non-canonical one raises, and one that holds no value is the model fault of R52. -/
def State.readCanonicalFrom (s : State) (b : Buf) (i len : Nat) : Attempt (List Nat) :=
  match len with
  | 0 => .ok []
  | len + 1 =>
    match s.elem b i with
    | none => .faulted (.unwrittenElement b i)
    | some w =>
      if s.cfg.field.size ≤ w.toNat then .raised .rangeError
      else (s.readCanonicalFrom b (i + 1) len).andThen fun vs => .ok (w.toNat :: vs)

/-- `check_canonical(BUF[0..len-1])`, returning the codes (R256). -/
def State.readCanonical (s : State) (b : Buf) (len : Nat) : Attempt (List Nat) := s.readCanonicalFrom b 0 len

end Sys2Proof.Machine
end

