-- ==== Sys2Proof/Machine/Poly.lean ====
section
/-! DEFINITION. The polynomial engine: 40_field_poly.md R128-R134. A polynomial is its list of coefficients, constant term
first (00_scope.md R11). -/

namespace Sys2Proof

/-- Evaluation by Horner's method, from the highest coefficient down (R128). -/
def FieldDesc.peval (F : FieldDesc) (p : List Nat) (x : Nat) : Nat :=
  p.foldr (fun c acc => F.fadd (F.fmul acc x) c) 0

/-- Pointwise sum, the shorter operand padded with zeros (R129). -/
def FieldDesc.padd (F : FieldDesc) (p q : List Nat) : List Nat :=
  (List.range (max p.length q.length)).map fun i => F.fadd (p.getD i 0) (q.getD i 0)

/-- Pointwise difference, the shorter operand padded with zeros (R129). -/
def FieldDesc.psub (F : FieldDesc) (p q : List Nat) : List Nat :=
  (List.range (max p.length q.length)).map fun i => F.fsub (p.getD i 0) (q.getD i 0)

/-- Pointwise multiplication by a scalar (R130). -/
def FieldDesc.pscale (F : FieldDesc) (p : List Nat) (s : Nat) : List Nat := p.map fun c => F.fmul c s

/-- Full convolution, of length `len p + len q - 1` (R131). -/
def FieldDesc.pmul (F : FieldDesc) (p q : List Nat) : List Nat :=
  (List.range (p.length + q.length - 1)).map fun i =>
    F.fsum ((List.range (i + 1)).map fun a => F.fmul (p.getD a 0) (q.getD (i - a) 0))

/-- Multiplication by `x^m` (R132). -/
def pshift (p : List Nat) (m : Nat) : List Nat := List.replicate m 0 ++ p

/-- The indices `0..k-1` but `i`, in increasing order. -/
def othersOf (k i : Nat) : List Nat := (List.range k).filter fun j => decide (j ≠ i)

/-- The numerator of the i-th Lagrange term: the product of `(x - xs[j])` over `j ≠ i` (R133). -/
def FieldDesc.lagrangeNum (F : FieldDesc) (xs : List Nat) (i : Nat) : List Nat :=
  (othersOf xs.length i).foldl (fun num j => F.pmul num [F.fsub 0 (xs.getD j 0), 1]) [1]

/-- The denominator of the i-th Lagrange term: the product of `xs[i] - xs[j]` over `j ≠ i` (R133). -/
def FieldDesc.lagrangeDen (F : FieldDesc) (xs : List Nat) (i : Nat) : Nat :=
  F.fprod ((othersOf xs.length i).map fun j => F.fsub (xs.getD i 0) (xs.getD j 0))

/-- The loop of R133 over the remaining indices; `none` is DivisionByZero. -/
def FieldDesc.lagrangeSum (F : FieldDesc) (xs ys : List Nat) (is : List Nat) (acc : List Nat) : Option (List Nat) :=
  match is with
  | [] => some acc
  | i :: rest =>
    match F.finv (F.lagrangeDen xs i) with
    | none => none
    | some d =>
      F.lagrangeSum xs ys rest (F.padd acc (F.pscale (F.lagrangeNum xs i) (F.fmul (ys.getD i 0) d)))

/-- The classical Lagrange construction: exactly `len xs` coefficients, or DivisionByZero (R133, R134). -/
def FieldDesc.interpolate (F : FieldDesc) (xs ys : List Nat) : Option (List Nat) :=
  (F.lagrangeSum xs ys (List.range xs.length) (List.replicate xs.length 0)).map fun acc => acc.take xs.length

end Sys2Proof
end

