-- ==== Sys2Proof/Machine/Recovery.lean ====
section
/-! DEFINITION. The Lagrange interpolation engine: 44_roots_recovery.md R209-R219, the command RECOVER. -/

namespace Sys2Proof

/-- The valid positions: the `i < n` that are not marked, in increasing order (R210). -/
def validPositions (marked : Nat → Bool) (n : Nat) : List Nat := (List.range n).filter fun i => !marked i

/-- `rfn`: the message and the flag INSUF; `none` is DivisionByZero (R213). With fewer than `k` valid positions the message
is zero-filled and nothing is interpolated (R216). -/
def FieldDesc.rfn (F : FieldDesc) (marked : Nat → Bool) (points r : List Nat) (k : Nat) : Option (List Nat × Bool) :=
  let valid := validPositions marked points.length
  if valid.length < k then some (List.replicate k 0, true)
  else
    let chosen := valid.take k
    (F.interpolate (chosen.map fun p => points.getD p 0) (chosen.map fun p => r.getD p 0)).map fun m => (m, false)

end Sys2Proof

namespace Sys2Proof.Machine

/-- Commit a recovery: `DEC[0..K-1] <- dec; STATUS.INSUF <- insuf` (R214). -/
def State.commitRecovery (s : State) (res : List Nat × Bool) : State :=
  let t := s.setElems .dec res.1
  { t with status := { t.status with insuf := res.2 } }

/-- RECOVER's pseudocode (R214). -/
def runRecover (s : State) : Attempt State :=
  s.checkGeometry.andThen fun _ =>
  (s.readCanonical .alpha s.len).andThen fun points =>
  (s.readCanonical .cw s.len).andThen fun r =>
  (orDivisionByZero (s.cfg.field.rfn s.errBit points r s.dim)).andThen fun res =>
  .ok (s.commitRecovery res)

/-- RECOVER (R214). -/
def execRecover (s : State) : Host.Outcome State Fault Refusal := complete s (runRecover s)

end Sys2Proof.Machine
end

