-- ==== Sys2Proof/Machine/Roots.lean ====
section
/-! DEFINITION. The polynomial root searcher: 44_roots_recovery.md R200-R208, the command ROOTS. -/

namespace Sys2Proof

/-- The root test of a point: a zero point is skipped; any other is an error when the locator vanishes at its inverse
(R201, R205). -/
def FieldDesc.isError (F : FieldDesc) (lam : List Nat) (a : Nat) : Bool :=
  if a = 0 then false
  else match F.finv a with
    | none => false
    | some x => F.peval lam x == 0

/-- The error positions: the `i` in `0..NMAX-1` with `i < N` and a root at `points[i]` (R202). -/
def FieldDesc.errorPositions (F : FieldDesc) (nmax n : Nat) (points lam : List Nat) : List Nat :=
  (List.range nmax).filter fun i => decide (i < n) && F.isError lam (points.getD i 0)

end Sys2Proof

namespace Sys2Proof.Machine

/-- ROOTS' pseudocode (R202). -/
def runRoots (s : State) : Attempt State :=
  s.checkGeometry.andThen fun _ =>
  (s.readCanonical .alpha s.len).andThen fun points =>
  (s.readCanonical .lambda (s.len - s.dim + 1)).andThen fun lam =>
  .ok (s.setErrors (s.cfg.field.errorPositions s.cfg.nmax s.len points lam))

/-- ROOTS (R202). -/
def execRoots (s : State) : Host.Outcome State Fault Refusal := complete s (runRoots s)

end Sys2Proof.Machine
end

