-- ==== Sys2Proof/Machine/Syndrome.lean ====
section
/-! DEFINITION. The syndrome computer: 42_syndrome.md R160-R172, the commands WEIGHTS and SYNDROME. -/

namespace Sys2Proof

/-- The product of `points[i] - points[j]` over `j ≠ i`; 1 when there is one point (R161). -/
def FieldDesc.weightProduct (F : FieldDesc) (points : List Nat) (i : Nat) : Nat :=
  F.fprod ((othersOf points.length i).map fun j => F.fsub (points.getD i 0) (points.getD j 0))

/-- All values, if each one exists. -/
def allSome (xs : List (Option Nat)) : Option (List Nat) :=
  match xs with
  | [] => some []
  | none :: _ => none
  | some x :: rest => (allSome rest).map fun ys => x :: ys

/-- `wfn`: the weights of the points, or DivisionByZero (R161). -/
def FieldDesc.wfn (F : FieldDesc) (points : List Nat) : Option (List Nat) :=
  allSome ((List.range points.length).map fun i => F.finv (F.weightProduct points i))

/-- Syndrome `j`: the sum of `r[i] * w[i] * points[i]^j` (R162). -/
def FieldDesc.syndromeAt (F : FieldDesc) (r points w : List Nat) (j : Nat) : Nat :=
  F.fsum ((List.range points.length).map fun i =>
    F.fmul (F.fmul (r.getD i 0) (w.getD i 0)) (F.fpow (points.getD i 0) j))

/-- `sfn`: `count` syndromes (R162). -/
def FieldDesc.sfn (F : FieldDesc) (r points w : List Nat) (count : Nat) : List Nat :=
  (List.range count).map fun j => F.syndromeAt r points w j

end Sys2Proof

namespace Sys2Proof.Machine

/-- Commit the weights: `W[0..N-1] <- w; STATUS.W_VALID <- 1` (R165, R166, R171). -/
def State.commitWeights (s : State) (w : List Nat) : State :=
  let t := s.setElems .w w
  { t with status := { t.status with wValid := true } }

/-- The weights in use, and whether they were computed: the cached ones when W_VALID = 1, else fresh ones (R168). -/
def State.weightsForUse (s : State) (points : List Nat) : Attempt (List Nat × Bool) :=
  if s.status.wValid then (s.readElems .w s.len).andThen fun w => .ok (w, false)
  else (orDivisionByZero (s.cfg.field.wfn points)).andThen fun w => .ok (w, true)

/-- `if computed: W[0..N-1] <- w; STATUS.W_VALID <- 1` (R171). -/
def State.commitIfComputed (s : State) (wc : List Nat × Bool) : State :=
  if wc.2 then s.commitWeights wc.1 else s

/-- WEIGHTS' pseudocode (R165). -/
def runWeights (s : State) : Attempt State :=
  s.checkGeometry.andThen fun _ =>
  (s.readCanonical .alpha s.len).andThen fun points =>
  (orDivisionByZero (s.cfg.field.wfn points)).andThen fun w =>
  .ok (s.commitWeights w)

/-- SYNDROME's pseudocode (R169). -/
def runSyndrome (s : State) : Attempt State :=
  s.checkGeometry.andThen fun _ =>
  (s.readCanonical .cw s.len).andThen fun r =>
  (s.readCanonical .alpha s.len).andThen fun points =>
  (s.weightsForUse points).andThen fun wc =>
  .ok ((s.commitIfComputed wc).setElems .s (s.cfg.field.sfn r points wc.1 (s.len - s.dim)))

/-- WEIGHTS (R165). -/
def execWeights (s : State) : Host.Outcome State Fault Refusal := complete s (runWeights s)

/-- SYNDROME (R169). -/
def execSyndrome (s : State) : Host.Outcome State Fault Refusal := complete s (runSyndrome s)

end Sys2Proof.Machine
end

