-- ==== Sys2Proof/Machine/Synthesizer.lean ====
section
/-! DEFINITION. The Berlekamp-Massey LFSR synthesizer: 43_bm.md R180-R188, the command BMSYN. -/

namespace Sys2Proof

/-- The state threaded through the iteration: the locator, the auxiliary polynomial, L, m and b (R180, R181). -/
structure SynthState where
  lam : List Nat
  aux : List Nat
  len : Nat
  shift : Nat
  last : Nat
  deriving DecidableEq, Repr

/-- The starting state; each polynomial holds `count + 1` coefficients (R181). -/
def synthInit (count : Nat) : SynthState :=
  { lam := 1 :: List.replicate count 0, aux := 1 :: List.replicate count 0, len := 0, shift := 1, last := 1 }

/-- The discrepancy of step `r`: `S[r]` plus the sum of `lam[i] * S[r-i]` for `i` in `1..r` (R183). -/
def FieldDesc.discrepancy (F : FieldDesc) (syn lam : List Nat) (r : Nat) : Nat :=
  (List.range r).foldl (fun d j => F.fadd d (F.fmul (lam.getD (j + 1) 0) (syn.getD (r - (j + 1)) 0))) (syn.getD r 0)

/-- The candidate locator `lam - delta * b^-1 * x^m * aux`, cut to `count + 1` coefficients (R183). -/
def FieldDesc.candidate (F : FieldDesc) (count : Nat) (st : SynthState) (scale : Nat) : List Nat :=
  (F.psub st.lam (F.pscale (pshift st.aux st.shift) scale)).take (count + 1)

/-- Step `r`: the three cases of R184, R185 and R186. `none` would be an inverse of b = 0, which R183 excludes. -/
def FieldDesc.synthStep (F : FieldDesc) (syn : List Nat) (count : Nat) (st : SynthState) (r : Nat) : Option SynthState :=
  let d := F.discrepancy syn st.lam r
  if d = 0 then some { st with shift := st.shift + 1 }
  else match F.finv st.last with
    | none => none
    | some bInv =>
      let cand := F.candidate count st (F.fmul d bInv)
      if 2 * st.len ≤ r then
        some { lam := cand, aux := st.lam, len := r + 1 - st.len, shift := 1, last := d }
      else some { st with lam := cand, shift := st.shift + 1 }

/-- The state at the start of step `r`: the steps `0..r-1` run in increasing order (R182). -/
def FieldDesc.synthRun (F : FieldDesc) (syn : List Nat) (count r : Nat) : Option SynthState :=
  match r with
  | 0 => some (synthInit count)
  | r + 1 => (F.synthRun syn count r).bind fun st => F.synthStep syn count st r

/-- `bm(S[0..count-1])`: the final state (R180, R186). -/
def FieldDesc.bm (F : FieldDesc) (syn : List Nat) : Option SynthState := F.synthRun syn syn.length syn.length

end Sys2Proof

namespace Sys2Proof.Machine

/-- Commit a BM result: LAMBDA[0..count], BPOLY[0..count], BM_L, BM_M and BM_B (R187). -/
def State.commitSynth (s : State) (st : SynthState) : State :=
  let t := (s.setElems .lambda st.lam).setElems .bpoly st.aux
  { t with
    bmL := BitVec.ofNat 16 st.len
    bmM := BitVec.ofNat 16 st.shift
    bmB := elemWord s.cfg.field st.last }

/-- BMSYN's pseudocode (R187). -/
def runBmsyn (s : State) : Attempt State :=
  s.checkGeometry.andThen fun _ =>
  (s.readCanonical .s (s.len - s.dim)).andThen fun syn =>
  (orDivisionByZero (s.cfg.field.bm syn)).andThen fun st =>
  .ok (s.commitSynth st)

/-- BMSYN (R187). -/
def execBmsyn (s : State) : Host.Outcome State Fault Refusal := complete s (runBmsyn s)

end Sys2Proof.Machine
end

