-- ==== Sys2Proof/Machine/Control.lean ====
section
/-! DEFINITION. The commands NOP and DECODE, and the end of an illegal word: 45_decode_control.md R230-R237. -/

namespace Sys2Proof.Machine

/-- What DECODE computes from its operands, stage by stage (R232): the syndromes, the BM result, the error positions, and
the message with INSUF. -/
structure DecodeResult where
  syn : List Nat
  synth : SynthState
  errors : List Nat
  recovery : List Nat × Bool
  deriving DecidableEq, Repr

/-- The stages of R232 after the weights. -/
def decodeStages (c : Config) (k : Nat) (r points w : List Nat) : Attempt DecodeResult :=
  let F := c.field
  let n := points.length
  let syn := F.sfn r points w (n - k)
  (orDivisionByZero (F.bm syn)).andThen fun st =>
  let errors := F.errorPositions c.nmax n points st.lam
  (orDivisionByZero (F.rfn (fun i => decide (i ∈ errors)) points r k)).andThen fun res =>
  .ok { syn := syn, synth := st, errors := errors, recovery := res }

/-- The commit of R232, all together. -/
def State.commitDecode (s : State) (wc : List Nat × Bool) (d : DecodeResult) : State :=
  ((((s.commitIfComputed wc).setElems .s d.syn).commitSynth d.synth).setErrors d.errors).commitRecovery d.recovery

/-- DECODE's pseudocode (R232). -/
def runDecode (s : State) : Attempt State :=
  s.checkGeometry.andThen fun _ =>
  (s.readCanonical .cw s.len).andThen fun r =>
  (s.readCanonical .alpha s.len).andThen fun points =>
  (s.weightsForUse points).andThen fun wc =>
  (decodeStages s.cfg s.dim r points wc.1).andThen fun d =>
  .ok (s.commitDecode wc d)

/-- DECODE (R232). -/
def execDecode (s : State) : Host.Outcome State Fault Refusal := complete s (runDecode s)

/-- NOP: `commit { }` (R236). -/
def execNop (s : State) : Host.Outcome State Fault Refusal := complete s (.ok s)

/-- An illegal word: `raise IllegalCommand()`, before N, K or a buffer is read (R237, R258). -/
def execIllegal (s : State) : Host.Outcome State Fault Refusal := complete s (.raised .illegalCommand)

end Sys2Proof.Machine
end

