-- ==== Sys2Proof/Machine/Encoder.lean ====
section
/-! DEFINITION. The GRS encoder: 41_encoder.md R150. -/

namespace Sys2Proof.Machine

/-- The codeword of a message: its polynomial evaluated at every point (R150, R151). -/
def encodeMessage (F : FieldDesc) (msg points : List Nat) : List Nat := points.map fun a => F.peval msg a

/-- ENCODE's pseudocode (R150). -/
def runEncode (s : State) : Attempt State :=
  s.checkGeometry.andThen fun _ =>
  (s.readCanonical .msg s.dim).andThen fun msg =>
  (s.readCanonical .alpha s.len).andThen fun points =>
  .ok (s.setElems .cw (encodeMessage s.cfg.field msg points))

/-- ENCODE (R150). -/
def execEncode (s : State) : Host.Outcome State Fault Refusal := complete s (runEncode s)

end Sys2Proof.Machine
end

