-- ==== Sys2Proof/Machine/Dispatch.lean ====
section
/-! DEFINITION. One arm per command: what the completion step does for it (45_decode_control.md R240). -/

namespace Sys2Proof.Machine

def exec (i : Instr) (s : State) : Host.Outcome State Fault Refusal :=
  match i with
  | .nop => Sys2Proof.Machine.execNop s
  | .encode => Sys2Proof.Machine.execEncode s
  | .weights => Sys2Proof.Machine.execWeights s
  | .syndrome => Sys2Proof.Machine.execSyndrome s
  | .bmsyn => Sys2Proof.Machine.execBmsyn s
  | .roots => Sys2Proof.Machine.execRoots s
  | .recover => Sys2Proof.Machine.execRecover s
  | .decode => Sys2Proof.Machine.execDecode s

end Sys2Proof.Machine
end

