-- ==== Sys2Proof/Machine/Flags.lean ====
section
/-! DEFINITION. The words the register block reads as: STATUS (10_state.md R26), the constants ID, CFG and FSIZE (R21-R23), the
derived COUNT and T (R33), the BM registers (R36-R38), NERR (R39) and the words of ERRMAP (R50). -/

namespace Sys2Proof.Machine

/-- STATUS as a word: BUSY [0], DONE [1], WOVR [2], INSUF [3], ERR [7:4], W_VALID [8]; bits [31:9] read 0 (R26). -/
def Status.toWord (st : Status) : Word :=
  (0 : BitVec 23) ++ BitVec.ofBool st.wValid ++ st.err ++ BitVec.ofBool st.insuf ++ BitVec.ofBool st.wovr
    ++ BitVec.ofBool st.done ++ BitVec.ofBool st.busy

/-- ID reads "GRS1" (R21). -/
def idWord : Word := 0x47525331

/-- CFG: NMAX [15:0], EW [21:16], PRIME [22]; bits [31:23] read 0 (R22). -/
def cfgWord (c : Config) : Word :=
  (0 : BitVec 9) ++ BitVec.ofBool c.field.isPrime ++ BitVec.ofNat 6 c.field.ew ++ BitVec.ofNat 16 c.nmax

/-- FSIZE as a 32-bit unsigned integer (R23). -/
def fsizeWord (c : Config) : Word := BitVec.ofNat 32 c.field.size

/-- Word `w` of ERRMAP: bits `32w .. 32w+31` (R50). -/
def State.errmapWord (s : State) (w : Nat) : Word := s.errmap.extractLsb' (32 * w) 32

/-- The current value of a register as the host reads it (R21-R39, R65). CMD reads 0 (R24). -/
def State.readReg (s : State) (r : RegName) : Word :=
  match r with
  | .id => idWord
  | .cfg => cfgWord s.cfg
  | .fsize => fsizeWord s.cfg
  | .cmd => 0
  | .status => s.status.toWord
  | .n => s.n.setWidth 32
  | .k => s.k.setWidth 32
  | .count => BitVec.ofNat 32 s.count
  | .t => BitVec.ofNat 32 s.radius
  | .bmL => s.bmL.setWidth 32
  | .bmM => s.bmM.setWidth 32
  | .bmB => s.bmB
  | .nerr => s.nerr.setWidth 32

end Sys2Proof.Machine
end

