-- ==== Sys2Proof/Machine/Port.lean ====
section
/-! DEFINITION. The host port: the address map and the transactions MemRead and MemWrite, 20_memory.md R60-R72. -/

namespace Sys2Proof

/-- The buffers the host may write (R41). -/
def Buf.hostWritable (b : Buf) : Bool :=
  match b with
  | .alpha => true
  | .cw => true
  | .msg => true
  | .dec => false
  | .w => false
  | .s => true
  | .lambda => true
  | .bpoly => false

/-- The registers a read while BUSY still returns the true value of (R67). -/
def RegName.readableWhileBusy (r : RegName) : Bool :=
  match r with
  | .id => true
  | .cfg => true
  | .fsize => true
  | .cmd => true
  | .status => true
  | .n => true
  | .k => true
  | .count => true
  | .t => true
  | .bmL => false
  | .bmM => false
  | .bmB => false
  | .nerr => false

end Sys2Proof

namespace Sys2Proof.Machine

/-- What a word address selects (R62). -/
inductive Target where
  | reg (r : RegName)
  | elem (b : Buf) (i : Nat)
  | errmapWord (w : Nat)
  | reserved
  deriving DecidableEq, Repr

/-- The register at a word index of the register block, if one stands there (R62). -/
def regAt (i : Nat) : Option RegName :=
  match i with
  | 0 => some .id
  | 1 => some .cfg
  | 2 => some .fsize
  | 3 => some .cmd
  | 4 => some .status
  | 5 => some .n
  | 6 => some .k
  | 7 => some .count
  | 8 => some .t
  | 9 => some .bmL
  | 10 => some .bmM
  | 11 => some .bmB
  | 12 => some .nerr
  | _ => none

/-- The buffer whose window is the given 0x1000-byte block, if one is (R62). -/
def bufAt (block : Nat) : Option Buf :=
  match block with
  | 1 => some .alpha
  | 2 => some .cw
  | 3 => some .msg
  | 4 => some .dec
  | 5 => some .w
  | 6 => some .s
  | 7 => some .lambda
  | 8 => some .bpoly
  | _ => none

/-- The address map (R62): a block is 1024 words. Element indices at or beyond NMAX, ERRMAP words at or beyond
`ceil(NMAX/32)`, the rest of the register block and 0xA000-0xFFFC are reserved (R68). -/
def target (nmax : Nat) (waddr : BitVec 14) : Target :=
  let block := waddr.toNat / 1024
  let i := waddr.toNat % 1024
  if block = 0 then
    match regAt i with
    | some r => .reg r
    | none => .reserved
  else if block = 9 then
    if i < errmapWords nmax then .errmapWord i else .reserved
  else
    match bufAt block with
    | some b => if i < nmax then .elem b i else .reserved
    | none => .reserved

/-- MemRead while BUSY = 0: the current value; `none` is a draw, for a never-written element (R65, R68). -/
def State.idleRead (s : State) (t : Target) : Option Word :=
  match t with
  | .reg r => some (s.readReg r)
  | .elem b i => s.elem b i
  | .errmapWord w => some (s.errmapWord w)
  | .reserved => some 0

/-- MemRead while BUSY = 1: `none` is a draw (R67). -/
def State.busyRead (s : State) (t : Target) : Option Word :=
  match t with
  | .reg r => if r.readableWhileBusy then some (s.readReg r) else none
  | .elem _ _ => none
  | .errmapWord _ => none
  | .reserved => some 0

/-- The value MemRead returns, when the spec fixes it (R65, R67). -/
def State.readTarget (s : State) (t : Target) : Option Word :=
  if s.status.busy then s.busyRead t else s.idleRead t

/-- A MemRead: the value goes to the host and nothing else changes (R65, R71). A draw takes the next free value. -/
def State.memRead (s : State) (waddr : BitVec 14) : State :=
  match s.readTarget (target s.cfg.nmax waddr) with
  | some v => { s with reads := v :: s.reads }
  | none => { s with reads := Config.freeRead s.draws :: s.reads, draws := s.draws + 1 }

/-- Clear W_VALID (R32). -/
def State.clearWValid (s : State) : State := { s with status := { s.status with wValid := false } }

/-- MemWrite while BUSY = 0 (R64). Read-only registers and buffers and reserved offsets ignore it (R68). -/
def State.idleWrite (s : State) (t : Target) (v : Word) : State :=
  match t with
  | .reg .cmd => accept v s
  | .reg .n => State.clearWValid { s with n := v.setWidth 16 }
  | .reg .k => { s with k := v.setWidth 16 }
  | .reg _ => s
  | .elem .alpha i => (s.setElem .alpha i v.toNat).clearWValid
  | .elem b i => if b.hostWritable then s.setElem b i v.toNat else s
  | .errmapWord _ => s
  | .reserved => s

/-- MemWrite: while BUSY = 1 it is dropped, to any offset, and sets WOVR (R66); else R64. -/
def State.memWrite (s : State) (waddr : BitVec 14) (v : Word) : State :=
  if s.status.busy then { s with status := { s.status with wovr := true } }
  else s.idleWrite (target s.cfg.nmax waddr) v

/-- One transaction of the port (R60). -/
def State.transact (s : State) (t : Transaction) : State :=
  if t.we then s.memWrite t.waddr t.wdata else s.memRead t.waddr

end Sys2Proof.Machine
end

