-- ==== Sys2Proof/Machine/HostAgent.lean ====
section
/-! DEFINITION. The host agent (00_scope.md R5; 30_encoding.md R96, R98) and the environment's reset pin
(70_reset_and_hazards.md R280-R282). -/

namespace Sys2Proof.Machine

/-- WAIT polls STATUS until DONE: one read of STATUS, and the loop ends when bit 1 of the value is set (R98). -/
def State.pollDone (s : State) (rest : List HostOp) : State :=
  let t := s.memRead 0x0004
  if s.status.toWord.getLsbD 1 then { t with program := rest } else t

/-- The host takes its next action (R73, item 1). A byte offset that spells no transaction is refused (R63). -/
def hostAct (op : HostOp) (rest : List HostOp) (s : State) : Host.Outcome State Fault Refusal :=
  match op with
  | .wait => .next (s.pollDone rest)
  | .wr a v =>
    match HostOp.transaction (.wr a v) with
    | none => .refused (.misalignedOffset a)
    | some t => .next (State.transact { s with program := rest } t)
  | .rd a =>
    match HostOp.transaction (.rd a) with
    | none => .refused (.misalignedOffset a)
    | some t => .next (State.transact { s with program := rest } t)

/-- The host's turn. While `rst` is asserted the core accepts no transaction, so the host waits (R280); a host with
nothing left to do leaves everything as it is (R271). -/
def hostTurn (s : State) : Host.Outcome State Fault Refusal :=
  if s.rst then .next s
  else match s.program with
    | [] => .next s
    | op :: rest => hostAct op rest s

/-- The environment asserts `rst` (R280). -/
def State.assertReset (s : State) : State := { s with rst := true }

/-- The environment deasserts `rst`: every piece of the core's state holds its reset value, whatever was running (R280, R281).
The parameters stay, and so do the host, its record of reads and the interleaving, which are not the core's. -/
def State.releaseReset (s : State) : State :=
  if s.rst then
    { State.resetOf s.cfg with program := s.program, schedule := s.schedule, reads := s.reads, draws := s.draws }
  else s

end Sys2Proof.Machine
end

