-- ==== Sys2Proof/Machine/Fetch.lean ====
section
/-! DEFINITION. Whose turn it is, and how a command reaches the core: 20_memory.md R73, R76; 45_decode_control.md R239, R241.
The core fetches nothing: its instructions are the words written to CMD. -/

namespace Sys2Proof.Machine

/-- Who moves next: the head of the interleaving; when it says nothing more, the core if a command is in progress (R241: an
enabled core step is eventually taken), else the host. -/
def State.mover (s : State) : Turn :=
  match s.schedule with
  | t :: _ => t
  | [] => if s.status.busy then .core else .host

/-- Use up one entry of the interleaving. -/
def State.popTurn (s : State) : State := { s with schedule := s.schedule.tail }

/-- The core step is enabled exactly when BUSY = 1 (R240) and `rst` is not asserted (R280). -/
def State.coreEnabled (s : State) : Bool := s.status.busy && !s.rst

/-- A command word delivered so that the core completes it in the very next step: accepted as R239 says, `rst` low, the
core's turn put first. -/
def State.acceptForCore (s : State) (word : Word) : State :=
  let t := accept word s
  { t with rst := false, schedule := .core :: t.schedule }

end Sys2Proof.Machine
end

