-- ==== Sys2Proof/Machine/Step.lean ====
section
/-! DEFINITION. One step of the machine: one move of one agent (00_scope.md R5; 20_memory.md R73; 45_decode_control.md R240;
70_reset_and_hazards.md R282). -/

namespace Sys2Proof.Machine

/-- The core agent's only step: decode CMDLATCH and complete the command (R240). -/
def coreStep (s : State) : Host.Outcome State Fault Refusal :=
  match decode s.cmdlatch with
  | .ok i => exec i s
  | .error _ => execIllegal s

/-- The core's turn: its step is enabled exactly when BUSY = 1 (R240), and not while `rst` is asserted (R280). -/
def coreTurn (s : State) : Host.Outcome State Fault Refusal :=
  if s.coreEnabled then coreStep s else .next s

/-- One step: the agent whose turn it is moves (R73). -/
def step (s : State) : Host.Outcome State Fault Refusal :=
  match s.mover with
  | .host => hostTurn s.popTurn
  | .core => coreTurn s.popTurn
  | .assertRst => .next s.popTurn.assertReset
  | .releaseRst => .next s.popTurn.releaseReset

/-- The state whose very next step completes the command of the given row (the host's fixed name): the command word is
accepted (R239), `rst` is not asserted, and the core moves next (assumption log 3). -/
def State.withFetchWord (s : State) (nbits w : Nat) : State := s.acceptForCore (tableWord nbits w)

end Sys2Proof.Machine
end

