-- ==== Sys2Proof/Safety.lean ====
section
/-! DEFINITION. What statements about the machine are said in: the codes a buffer holds, what lies outside a range of
elements, the invariants of the state, and the launch, run and end of 70_reset_and_hazards.md R285, R294. -/

namespace Sys2Proof.Machine

/-! Reading buffers. -/

/-- `BUF[0..len-1]` holds the codes `vs`, in index order. -/
def State.Codes (s : State) (b : Buf) (vs : List Nat) : Prop :=
  ∀ i, i < vs.length → s.elem b i = some (BitVec.ofNat 32 (vs.getD i 0))

/-- `BUF[0..len-1]` is a readable operand range: every element holds a value, and every code is canonical (R52, R256). -/
def State.Operand (s : State) (b : Buf) (len : Nat) (vs : List Nat) : Prop :=
  vs.length = len ∧ s.Codes b vs ∧ ∀ v ∈ vs, v < s.cfg.field.size

/-- The byte offsets of `BUF[0..len-1]`. -/
def lanesOf (b : Buf) (len : Nat) (a : Nat) : Prop := elemAddr b 0 ≤ a ∧ a < elemAddr b len

/-- Every byte outside `P` reads in `t` as it does in `s`. -/
def SameBytesOutside (s t : State) (P : Nat → Prop) : Prop :=
  ∀ a, ¬ P a → readByte t.mem a = readByte s.mem a

/-- STATUS at the end of a command that commits, W_VALID and INSUF as given (R240). -/
def Status.committed (st : Status) (wValid insuf : Bool) : Status :=
  { st with busy := false, done := true, err := 0, wValid := wValid, insuf := insuf }

/-- The weights in use, as R51 makes them: the cached ones, when W_VALID = 1, are the weights of the points. -/
def State.CacheRight (s : State) (points : List Nat) : Prop :=
  s.status.wValid = true → ∃ w, s.cfg.field.wfn points = some w ∧ s.Codes .w w

/-- The operand ranges a command checks, in the order its rule lists them (R150, R165, R169, R187, R202, R214, R232, R283). -/
def operandRanges (s : State) (i : Instr) : List (Buf × Nat) :=
  match i with
  | .nop => []
  | .encode => [(.msg, s.dim), (.alpha, s.len)]
  | .weights => [(.alpha, s.len)]
  | .syndrome => [(.cw, s.len), (.alpha, s.len)]
  | .bmsyn => [(.s, s.len - s.dim)]
  | .roots => [(.alpha, s.len), (.lambda, s.len - s.dim + 1)]
  | .recover => [(.alpha, s.len), (.cw, s.len)]
  | .decode => [(.cw, s.len), (.alpha, s.len)]

/-- `BUF[0..len-1]` for each range holds values. -/
def State.AllHeld (s : State) (ranges : List (Buf × Nat)) : Prop :=
  ∀ bl ∈ ranges, ∀ j, j < bl.2 → ∃ w, s.elem bl.1 j = some w

/-- Some element of the ranges holds a non-canonical code (R40, R256). -/
def State.SomeNonCanonical (s : State) (ranges : List (Buf × Nat)) : Prop :=
  ∃ bl ∈ ranges, ∃ j, j < bl.2 ∧ ∃ w, s.elem bl.1 j = some w ∧ s.cfg.field.size ≤ w.toNat

/-- The end of a command with an error code: STATUS and nothing else (R252). -/
def State.withError (s : State) (code : BitVec 4) : State :=
  { s with status := { s.status with busy := false, done := true, err := code } }

/-- The host has used its turn and its next action. -/
def State.hostUsed (s : State) (rest : List HostOp) : State :=
  { s with schedule := s.schedule.tail, program := rest }

/-- It is the host's turn, `rst` is low, and the host's next action is `op`. -/
def State.HostDoes (s : State) (op : HostOp) (rest : List HostOp) : Prop :=
  s.mover = .host ∧ s.rst = false ∧ s.program = op :: rest

/-- The positions whose received value is not the message polynomial's. -/
def errorSet (F : FieldDesc) (msg points r : List Nat) : List Nat :=
  (List.range points.length).filter fun i => decide (r.getD i 0 ≠ F.peval msg (points.getD i 0))

/-! Invariants. -/

/-- BUSY and DONE exclude each other (R28); acceptance has cleared ERR and INSUF (R239); INSUF comes with ERR = NONE (R30);
codes 5-15 are never produced (R31). -/
def Status.Coherent (st : Status) : Prop :=
  (st.busy = true → st.done = false ∧ st.err = 0 ∧ st.insuf = false) ∧
  (st.insuf = true → st.err = 0) ∧ st.err.toNat ≤ 4

/-- Every listed offset is a byte lane of an element `i < NMAX` of a buffer (R62). -/
def Mem.InWindows (nmax : Nat) (m : Mem) : Prop :=
  ∀ c ∈ m, ∃ b i j, i < nmax ∧ j < 4 ∧ c.1 = elemAddr b i + j

/-- An element holds a value in all its byte lanes or in none: the port moves whole words (R63). -/
def Mem.WholeWords (nmax : Nat) (m : Mem) : Prop :=
  ∀ b i, i < nmax →
    (∀ j, j < 4 → ∃ v, readByte m (elemAddr b i + j) = some v) ∨ (∀ j, j < 4 → readByte m (elemAddr b i + j) = none)

/-- The buffers are in canonical form; an element's bits `[31:EW]` are 0 (R40), and what only the core writes is canonical
(R40, R120). -/
def State.MemoryForm (s : State) : Prop :=
  s.cfg.Valid ∧ s.mem.wf ∧ Mem.InWindows s.cfg.nmax s.mem ∧ Mem.WholeWords s.cfg.nmax s.mem ∧
  (∀ b i w, i < s.cfg.nmax → s.elem b i = some w → w.toNat < 2 ^ s.cfg.field.ew) ∧
  (∀ b i w, b = .dec ∨ b = .w ∨ b = .bpoly → i < s.cfg.nmax → s.elem b i = some w → w.toNat < s.cfg.field.size)

/-- The weights invariant (R51). -/
def State.WeightsCached (s : State) : Prop :=
  s.cfg.Valid ∧
  (s.status.wValid = true →
    s.len ≤ s.cfg.nmax ∧
    ∃ points w, s.Operand .alpha s.len points ∧ points.Nodup ∧ s.cfg.field.wfn points = some w ∧ s.Codes .w w)

/-- ERRMAP has no bit at or beyond NMAX (R50), and NERR counts its bits (R39). -/
def State.ErrorsCounted (s : State) : Prop :=
  s.cfg.nmax ≤ 1023 ∧ (∀ i, s.cfg.nmax ≤ i → s.errBit i = false) ∧
  s.nerr.toNat = ((List.range s.cfg.nmax).filter s.errBit).length

/-- The BM registers: `BM_L < NMAX`, `1 ≤ BM_M ≤ NMAX` (R36, R37, R188), and BM_B canonical and never 0 (R38, R40). -/
def State.SynthBounded (s : State) : Prop :=
  s.cfg.Valid ∧ s.bmL.toNat < s.cfg.nmax ∧ 1 ≤ s.bmM.toNat ∧ s.bmM.toNat ≤ s.cfg.nmax ∧
  s.bmB.toNat ≠ 0 ∧ s.bmB.toNat < s.cfg.field.size

/-- All the invariants of the state together. -/
def State.Inv (s : State) : Prop :=
  s.status.Coherent ∧ s.MemoryForm ∧ s.WeightsCached ∧ s.ErrorsCounted ∧ s.SynthBounded

/-! Runs. -/

/-- `k` steps, stopping at the first fault or refusal. -/
def stepN (k : Nat) (s : State) : Host.Outcome State Fault Refusal :=
  match k with
  | 0 => .next s
  | k + 1 =>
    match step s with
    | .next t => stepN k t
    | .fault f => .fault f
    | .refused r => .refused r

/-- No reset is asserted in the rest of the run (R282). -/
def State.NoReset (s : State) : Prop := s.rst = false ∧ Turn.assertRst ∉ s.schedule

/-- Every action the host has still to take spells a transaction (R63). -/
def State.ProgramAligned (s : State) : Prop := ∀ op ∈ s.program, op.transaction ≠ none

/-- The clean launch: nothing in flight, and no reset during the run (R285). -/
def State.CleanLaunch (s : State) : Prop := s.status.busy = false ∧ s.NoReset

/-- The run is over: the host has issued its last transaction and BUSY = 0 (R294). -/
def State.RunEnded (s : State) : Prop := s.program = [] ∧ s.status.busy = false

/-- What is observed at the end of a run (R294). -/
structure Observation where
  regs : List (RegName × Word)
  elems : List (Buf × Nat × Word)
  errmap : List Word
  reads : List Word
  deriving DecidableEq, Repr

/-- The elements of a buffer that hold a value. -/
def State.heldElems (s : State) (b : Buf) : List (Buf × Nat × Word) :=
  (List.range s.cfg.nmax).filterMap fun i => (s.elem b i).map fun w => (b, i, w)

/-- The thirteen registers of R21-R39, CMD among them (R24), the elements that hold a value, ERRMAP, and what the host's reads returned, first read
first (R294). -/
def State.observe (s : State) : Observation :=
  { regs := [RegName.id, .cfg, .fsize, .cmd, .status, .n, .k, .count, .t, .bmL, .bmM, .bmB, .nerr].map
      fun r => (r, s.readReg r)
    elems := [Buf.alpha, .cw, .msg, .dec, .w, .s, .lambda, .bpoly].flatMap s.heldElems
    errmap := (List.range (errmapWords s.cfg.nmax)).map s.errmapWord
    reads := s.reads.reverse }

end Sys2Proof.Machine
end

