-- ==== Sys2Proof/Certificates/Slice0/Obligations.lean ====
section
/-! DEFINITION. The statements for the provers. Each says which rule of spec/ it formalises. `Config.Valid` is the range the
spec gives the parameters FIELD and NMAX (R6, R8); every statement holds for every value in it. Where a docstring says 'the spec's
inference', the spec marks the sentence as derived or as general knowledge: the statement is about the model, and no rule by itself. -/

open Sys2Proof Sys2Proof.Machine

/-! ## Encoding -/

/-- The eight command words of R92 written out, and four illegal ones (R92, R94). -/
def Obligations.CommandWordsDecode : Prop :=
  decode 0x00000000 = .ok .nop ∧ decode 0x00000001 = .ok .encode ∧ decode 0x00000002 = .ok .weights ∧
  decode 0x00000003 = .ok .syndrome ∧ decode 0x00000004 = .ok .bmsyn ∧ decode 0x00000005 = .ok .roots ∧
  decode 0x00000006 = .ok .recover ∧ decode 0x00000007 = .ok .decode ∧
  decode 0x00000008 = .error .unassignedOpcode ∧ decode 0x000000FF = .error .unassignedOpcode ∧
  decode 0x00000100 = .error .reservedNonzero ∧ decode 0x80000007 = .error .reservedNonzero

/-- R93 over all 2^32 words: the case analysis, and the same in the form of the opcode table's rows. -/
def Obligations.DecodeIsTotalAsListed : Prop :=
  ∀ word : Word,
    (word.toNat / 256 ≠ 0 → decode word = .error .reservedNonzero) ∧
    (word.toNat = 0x00 → decode word = .ok .nop) ∧ (word.toNat = 0x01 → decode word = .ok .encode) ∧
    (word.toNat = 0x02 → decode word = .ok .weights) ∧ (word.toNat = 0x03 → decode word = .ok .syndrome) ∧
    (word.toNat = 0x04 → decode word = .ok .bmsyn) ∧ (word.toNat = 0x05 → decode word = .ok .roots) ∧
    (word.toNat = 0x06 → decode word = .ok .recover) ∧ (word.toNat = 0x07 → decode word = .ok .decode) ∧
    (word.toNat / 256 = 0 → 8 ≤ word.toNat → decode word = .error .unassignedOpcode) ∧
    (∀ i, decode word = .ok i ↔ ∃ row ∈ opcodeTable, row.selects word = true ∧ row.instr = i) ∧
    (∀ row ∈ opcodeTable, row.mask = 0xFFFFFFFF ∧ row.value = encode row.instr)

/-- Decoder and encoder agree in both directions (R90, R92, R93). -/
def Obligations.DecodeEncodeAgree : Prop :=
  (∀ i : Instr, i.wf = true → decode (encode i) = .ok i) ∧
  (∀ (word : Word) (i : Instr), decode word = .ok i → encode i = word)

/-- R96, R99: the triple of a transaction line, and that a triple and its line give each other back. -/
def Obligations.TransactionTriples : Prop :=
  (∀ (a : BitVec 16) (v : Word), a.toNat % 4 = 0 →
    HostOp.transaction (.wr a v) = some { we := true, waddr := BitVec.ofNat 14 (a.toNat / 4), wdata := v } ∧
    HostOp.transaction (.rd a) = some { we := false, waddr := BitVec.ofNat 14 (a.toNat / 4), wdata := 0 }) ∧
  (∀ t : Transaction, (t.we = false → t.wdata = 0) → t.hostOp.transaction = some t) ∧
  (∀ (op : HostOp) (t : Transaction), op ≠ .wait → op.transaction = some t → t.hostOp = op) ∧
  (AsmLine.cmd .decode).expand.map HostOp.transaction = [some ⟨true, 0x0003, 0x00000007⟩] ∧
  (AsmLine.wr (.reg .n) (.lit 10)).expand.map HostOp.transaction = [some ⟨true, 0x0005, 0x0000000A⟩] ∧
  (AsmLine.wr (.elem (.buf .alpha) 3) (.lit 4)).expand.map HostOp.transaction = [some ⟨true, 0x0403, 0x00000004⟩] ∧
  (AsmLine.rd (.reg .status)).expand.map HostOp.transaction = [some ⟨false, 0x0004, 0⟩] ∧
  (AsmLine.rd (.elem .errmap 0)).expand.map HostOp.transaction = [some ⟨false, 0x2400, 0⟩]

/-- R98: the expansions of the pseudo-instructions. -/
def Obligations.PseudoInstructionsExpand : Prop :=
  (∀ i, (AsmLine.cmd i).expand = (AsmLine.wr (.reg .cmd) (.mnemonic i)).expand) ∧
  (∀ i, (AsmLine.run i).expand = (AsmLine.cmd i).expand ++ AsmLine.wait.expand) ∧
  (∀ n k, (AsmLine.geom n k).expand =
    (AsmLine.wr (.reg .n) (.lit n)).expand ++ (AsmLine.wr (.reg .k) (.lit k)).expand) ∧
  AsmLine.check.expand = (AsmLine.rd (.reg .status)).expand ∧
  (∀ w vs, (AsmLine.load w vs).expand =
    (List.range vs.length).flatMap fun j => (AsmLine.wr (.elem w j) (.lit (vs.getD j 0))).expand)

/-! ## Steps, acceptance, the port -/

/-- R240: when the core moves with a command in progress, the step is the completion of the command CMDLATCH decodes to.
The second clause says it of `withFetchWord`, the model's own way to place a command (assumption log 3). With BUSY = 0 the core's step
is not enabled, and an idle core keeps all its state (R271): a turn of the core, and a turn of a host with no action left, change
nothing but the schedule (assumption log 6). -/
def Obligations.StepRunsDecodedCommand : Prop :=
  (∀ (s : State) (i : Instr), s.mover = .core → s.status.busy = true → s.rst = false →
    decode s.cmdlatch = .ok i → step s = exec i s.popTurn) ∧
  (∀ (s : State) (nbits w : Nat) (i : Instr), decodeTableWord nbits w = some i →
    step (s.withFetchWord nbits w) = exec i (accept (tableWord nbits w) { s with rst := false })) ∧
  (∀ s : State, s.mover = .core → s.status.busy = false → step s = .next { s with schedule := s.schedule.tail }) ∧
  (∀ s : State, s.mover = .host → s.program = [] → step s = .next { s with schedule := s.schedule.tail })

/-- R237, R258: an illegal word completes with ERR = 1 and changes nothing else, whatever N, K and the buffers hold. -/
def Obligations.IllegalWordAborts : Prop :=
  ∀ s : State, s.mover = .core → s.status.busy = true → s.rst = false →
    (s.cmdlatch.toNat / 256 ≠ 0 ∨ 8 ≤ s.cmdlatch.toNat % 256) →
    step s = .next (s.popTurn.withError 1)

/-- R239: acceptance of any word, legal or not. -/
def Obligations.AcceptanceLatchesAnyWord : Prop :=
  ∀ (s : State) (v : Word) (rest : List HostOp), s.HostDoes (.wr 0x000C v) rest → s.status.busy = false →
    step s = .next
      { s.hostUsed rest with
        cmdlatch := v
        status := { busy := true, done := false, err := 0, wovr := false, insuf := false, wValid := s.status.wValid } }

/-- R66: a write to any offset while BUSY is dropped and sets WOVR. -/
def Obligations.BusyWritesAreDropped : Prop :=
  ∀ (s : State) (a : BitVec 16) (v : Word) (rest : List HostOp), s.HostDoes (.wr a v) rest → a.toNat % 4 = 0 →
    s.status.busy = true →
    step s = .next { s.hostUsed rest with status := { s.status with wovr := true } }

/-- R64: what a write does while BUSY = 0, offset by offset. -/
def Obligations.IdleWriteEffects : Prop :=
  ∀ (s : State) (a : BitVec 16) (v : Word) (rest : List HostOp), s.HostDoes (.wr a v) rest → a.toNat % 4 = 0 →
    s.status.busy = false → s.cfg.Valid →
    (a = 0x000C → step s = .next (accept v (s.hostUsed rest))) ∧
    (a = 0x0014 → step s = .next
      { s.hostUsed rest with n := BitVec.ofNat 16 v.toNat, status := { s.status with wValid := false } }) ∧
    (a = 0x0018 → step s = .next { s.hostUsed rest with k := BitVec.ofNat 16 v.toNat }) ∧
    (∀ b i, b = .alpha ∨ b = .cw ∨ b = .msg ∨ b = .s ∨ b = .lambda → i < s.cfg.nmax → a.toNat = elemAddr b i →
      ∃ t, step s = .next t ∧
        t.elem b i = some (BitVec.ofNat 32 (v.toNat % 2 ^ s.cfg.field.ew)) ∧
        SameBytesOutside s t (fun x => elemAddr b i ≤ x ∧ x < elemAddr b i + 4) ∧
        t = { s.hostUsed rest with
              mem := t.mem
              status := { s.status with wValid := if b = .alpha then false else s.status.wValid } }) ∧
    (a ≠ 0x000C → a ≠ 0x0014 → a ≠ 0x0018 →
      (∀ b i, b = .alpha ∨ b = .cw ∨ b = .msg ∨ b = .s ∨ b = .lambda → i < s.cfg.nmax → a.toNat ≠ elemAddr b i) →
      step s = .next (s.hostUsed rest))

/-- R65, R68: what a read returns while BUSY = 0. The value goes to the host, and nothing else changes. A never-written
element gives the next free value (assumption log 4), whatever it is. -/
def Obligations.IdleReadsReturnCurrentValues : Prop :=
  ∀ (s : State) (a : BitVec 16) (rest : List HostOp), s.HostDoes (.rd a) rest → a.toNat % 4 = 0 →
    s.status.busy = false → s.cfg.Valid →
    (∀ r : RegName, a.toNat = 4 * r.index → step s = .next { s.hostUsed rest with reads := s.readReg r :: s.reads }) ∧
    (∀ b i w, i < s.cfg.nmax → a.toNat = elemAddr b i → s.elem b i = some w →
      step s = .next { s.hostUsed rest with reads := w :: s.reads }) ∧
    (∀ b i, i < s.cfg.nmax → a.toNat = elemAddr b i → s.elem b i = none →
      step s = .next { s.hostUsed rest with reads := Config.freeRead s.draws :: s.reads, draws := s.draws + 1 }) ∧
    (∀ w, w < errmapWords s.cfg.nmax → a.toNat = 0x9000 + 4 * w →
      ∃ x, step s = .next { s.hostUsed rest with reads := x :: s.reads } ∧
        ∀ j, j < 32 → x.getLsbD j = s.errBit (32 * w + j)) ∧
    ((∀ r : RegName, a.toNat ≠ 4 * r.index) → (∀ b i, i < s.cfg.nmax → a.toNat ≠ elemAddr b i) →
      (∀ w, w < errmapWords s.cfg.nmax → a.toNat ≠ 0x9000 + 4 * w) →
      step s = .next { s.hostUsed rest with reads := 0 :: s.reads })

/-- R67: what a read returns while BUSY = 1: the true value for the constant, status and geometry registers, CMD and reserved
offsets; the next free value (assumption log 4) for everything else. -/
def Obligations.BusyReads : Prop :=
  ∀ (s : State) (a : BitVec 16) (rest : List HostOp), s.HostDoes (.rd a) rest → a.toNat % 4 = 0 →
    s.status.busy = true → s.cfg.Valid →
    (∀ r : RegName, r ≠ .bmL → r ≠ .bmM → r ≠ .bmB → r ≠ .nerr → a.toNat = 4 * r.index →
      step s = .next { s.hostUsed rest with reads := s.readReg r :: s.reads }) ∧
    ((∀ r : RegName, a.toNat ≠ 4 * r.index) → (∀ b i, i < s.cfg.nmax → a.toNat ≠ elemAddr b i) →
      (∀ w, w < errmapWords s.cfg.nmax → a.toNat ≠ 0x9000 + 4 * w) →
      step s = .next { s.hostUsed rest with reads := 0 :: s.reads }) ∧
    (a = 0x0024 ∨ a = 0x0028 ∨ a = 0x002C ∨ a = 0x0030 ∨ (∃ b i, i < s.cfg.nmax ∧ a.toNat = elemAddr b i) ∨
      (∃ w, w < errmapWords s.cfg.nmax ∧ a.toNat = 0x9000 + 4 * w) →
      step s = .next { s.hostUsed rest with reads := Config.freeRead s.draws :: s.reads, draws := s.draws + 1 })

/-- R21-R26, R33, R36-R39: the words the registers read as. PRIME of CFG is 1 exactly when FIELD is GF(Q) with the residues as
codes (R6; assumption log 2 for any other coding of a field of prime order). -/
def Obligations.RegisterWords : Prop :=
  ∀ s : State, s.cfg.Valid →
    (s.readReg .id).toNat = 0x47525331 ∧
    (s.readReg .cfg).toNat =
      s.cfg.nmax + 2 ^ 16 * s.cfg.field.ew + 2 ^ 22 * (if s.cfg.field.isPrime then 1 else 0) ∧
    (s.cfg.field.isPrime = true ↔ s.cfg.field.size.Prime ∧
      ∀ a b, a < s.cfg.field.size → b < s.cfg.field.size →
        s.cfg.field.fadd a b = (a + b) % s.cfg.field.size ∧ s.cfg.field.fmul a b = (a * b) % s.cfg.field.size) ∧
    (s.readReg .fsize).toNat = s.cfg.field.size ∧
    s.readReg .cmd = 0 ∧
    (s.readReg .status).toNat =
      (if s.status.busy then 1 else 0) + (if s.status.done then 2 else 0) + (if s.status.wovr then 4 else 0) +
      (if s.status.insuf then 8 else 0) + 16 * s.status.err.toNat + (if s.status.wValid then 256 else 0) ∧
    (s.readReg .n).toNat = s.n.toNat ∧ (s.readReg .k).toNat = s.k.toNat ∧
    (s.readReg .count).toNat =
      (if 1 ≤ s.k.toNat ∧ s.k.toNat ≤ s.n.toNat then s.n.toNat - s.k.toNat else 0) ∧
    (s.readReg .t).toNat = (s.readReg .count).toNat / 2 ∧
    (s.readReg .bmL).toNat = s.bmL.toNat ∧ (s.readReg .bmM).toNat = s.bmM.toNat ∧ s.readReg .bmB = s.bmB ∧
    (s.readReg .nerr).toNat = s.nerr.toNat

/-- R7: EW is the fewest bits, at least one, that hold every code `0..FSIZE-1`; an element stores EW bits. -/
def Obligations.ElementWidth : Prop :=
  (∀ F : FieldDesc, F.Valid →
    1 ≤ F.ew ∧ F.ew ≤ 32 ∧ (∀ a, a < F.size → a < 2 ^ F.ew) ∧
    (∀ e, 1 ≤ e → e < F.ew → ∃ a, a < F.size ∧ 2 ^ e ≤ a) ∧
    (∀ v, (elemWord F v).toNat = v % 2 ^ F.ew)) ∧
  (FieldDesc.prime 7).ew = 3 ∧ (FieldDesc.prime 31).ew = 5

/-- R63, R261 (assumption log 11): a step is refused exactly when the host takes an action at a byte offset that is no multiple
of 4. -/
def Obligations.OnlyMisalignedOffsetsAreRefused : Prop :=
  ∀ (s : State) (x : Refusal), step s = .refused x ↔
    ∃ a rest, a.toNat % 4 ≠ 0 ∧ x = .misalignedOffset a ∧
      (s.HostDoes (.rd a) rest ∨ ∃ v, s.HostDoes (.wr a v) rest)

/-- R98 (assumption log 12): WAIT reads STATUS once a turn and goes on when bit 1 is set; it returns the true value while BUSY
too (R67). -/
def Obligations.WaitPollsDone : Prop :=
  ∀ (s : State) (rest : List HostOp), s.HostDoes .wait rest →
    (s.status.done = true → step s = .next { s.hostUsed rest with reads := s.readReg .status :: s.reads }) ∧
    (s.status.done = false → step s = .next { s.popTurn with reads := s.readReg .status :: s.reads })

/-! ## Reset -/

/-- R54: the reset value of every piece of state, on a core with any parameters. -/
def Obligations.ResetValues : Prop :=
  ∀ c : Config,
    (State.resetOf c).cfg = c ∧ (State.resetOf c).cmdlatch = 0 ∧ (State.resetOf c).status.toWord = 0 ∧
    (State.resetOf c).n = 0 ∧ (State.resetOf c).k = 0 ∧ (State.resetOf c).count = 0 ∧ (State.resetOf c).radius = 0 ∧
    (State.resetOf c).bmL = 0 ∧ (State.resetOf c).bmM = 1 ∧ (State.resetOf c).bmB = 1 ∧ (State.resetOf c).nerr = 0 ∧
    (∀ i, (State.resetOf c).errBit i = false) ∧ (∀ b i, (State.resetOf c).elem b i = none) ∧
    (State.resetOf c).readReg .id = idWord ∧ (State.resetOf c).readReg .cfg = cfgWord c ∧
    (State.resetOf c).readReg .fsize = fsizeWord c

/-- R280, R281: while `rst` is asserted neither agent moves the core's state, and its release leaves the reset state, also when a
command was running; the host and its record of reads are not the core's (assumption log 9). -/
def Obligations.ResetAbandonsEverything : Prop :=
  ∀ s : State,
    (s.mover = .assertRst → step s = .next { s.popTurn with rst := true }) ∧
    (s.rst = true → s.mover = .host ∨ s.mover = .core → step s = .next s.popTurn) ∧
    (s.rst = true → s.mover = .releaseRst → step s = .next
      { State.resetOf s.cfg with
        program := s.program, schedule := s.schedule.tail, reads := s.reads, draws := s.draws })

/-! ## The commands -/

/-- R236 (ERR <- 0 at completion: assumption log 7): NOP completes and commits nothing, in every state; accepted and completed,
it clears WOVR, INSUF and ERR and sets DONE, and leaves everything else. -/
def Obligations.NopCompletes : Prop :=
  ∀ s : State,
    exec .nop s = .next { s with status := { s.status with busy := false, done := true, err := 0 } } ∧
    exec .nop (accept (encode .nop) s) = .next
      { s with
        cmdlatch := encode .nop
        status := { busy := false, done := true, err := 0, wovr := false, insuf := false, wValid := s.status.wValid } }

/-- R150: ENCODE completes on readable operands; CW holds the evaluations, and nothing else changes but the completion flags. -/
def Obligations.EncodeCompletes : Prop :=
  ∀ (s : State) (msg points : List Nat), s.cfg.Valid → s.GeometryOk →
    s.Operand .msg s.dim msg → s.Operand .alpha s.len points →
    ∃ t, exec .encode s = .next t ∧
      t.Operand .cw s.len (points.map fun a => s.cfg.field.peval msg a) ∧
      SameBytesOutside s t (lanesOf .cw s.len) ∧
      t = { s with mem := t.mem, status := s.status.committed s.status.wValid s.status.insuf }

/-- R151: after ENCODE, CW[i] is the message polynomial at the point, as a sum of powers; and encoding is linear (the second is the
spec's inference, "ENCODE is linear over the field"). -/
def Obligations.EncodeGivesPolynomialValues : Prop :=
  (∀ (s t : State) (msg points : List Nat), s.cfg.Valid → s.GeometryOk →
    s.Operand .msg s.dim msg → s.Operand .alpha s.len points → exec .encode s = .next t →
    ∀ i, i < s.len → t.elem .cw i = some (BitVec.ofNat 32
      (s.cfg.field.fsum ((List.range s.dim).map fun j =>
        s.cfg.field.fmul (msg.getD j 0) (s.cfg.field.fpow (points.getD i 0) j))))) ∧
  (∀ (F : FieldDesc) (a b x : Nat) (m1 m2 : List Nat), F.Valid → a < F.size → b < F.size → x < F.size →
    m1.length = m2.length → (∀ v ∈ m1, v < F.size) → (∀ v ∈ m2, v < F.size) →
    F.peval (F.padd (F.pscale m1 a) (F.pscale m2 b)) x =
      F.fadd (F.fmul a (F.peval m1 x)) (F.fmul b (F.peval m2 x)))

/-- R165, R166: WEIGHTS completes on distinct points; W[i] is the inverse of the product of differences. -/
def Obligations.WeightsCompletes : Prop :=
  ∀ (s : State) (points : List Nat), s.cfg.Valid → s.GeometryOk → s.Operand .alpha s.len points → points.Nodup →
    ∃ t w, exec .weights s = .next t ∧ t.Operand .w s.len w ∧
      (∀ i, i < s.len → s.cfg.field.finv (s.cfg.field.fprod
        ((othersOf s.len i).map fun j => s.cfg.field.fsub (points.getD i 0) (points.getD j 0))) = some (w.getD i 0)) ∧
      SameBytesOutside s t (lanesOf .w s.len) ∧
      t = { s with mem := t.mem, status := s.status.committed true s.status.insuf }

/-- R161, R257: with two equal points WEIGHTS, and SYNDROME and DECODE when they compute the weights, end with ERR = DIV0 and change
nothing else. -/
def Obligations.DuplicatePointsAbortWeights : Prop :=
  ∀ (s : State) (points : List Nat), s.cfg.Valid → s.GeometryOk → s.Operand .alpha s.len points → ¬ points.Nodup →
    exec .weights s = .next (s.withError 4) ∧
    (∀ r, s.status.wValid = false → s.Operand .cw s.len r →
      exec .syndrome s = .next (s.withError 4) ∧ exec .decode s = .next (s.withError 4))

/-- R169, R171: SYNDROME completes, with the cached weights or fresh ones, which it then commits. `CacheRight` is R51. -/
def Obligations.SyndromeCompletes : Prop :=
  ∀ (s : State) (r points : List Nat), s.cfg.Valid → s.GeometryOk → s.Operand .cw s.len r →
    s.Operand .alpha s.len points → points.Nodup → s.CacheRight points →
    ∃ t w, exec .syndrome s = .next t ∧ s.cfg.field.wfn points = some w ∧ t.Operand .w s.len w ∧
      t.Operand .s (s.len - s.dim) ((List.range (s.len - s.dim)).map fun j =>
        s.cfg.field.fsum ((List.range s.len).map fun i =>
          s.cfg.field.fmul (s.cfg.field.fmul (r.getD i 0) (w.getD i 0)) (s.cfg.field.fpow (points.getD i 0) j))) ∧
      SameBytesOutside s t (fun a => lanesOf .s (s.len - s.dim) a ∨ (s.status.wValid = false ∧ lanesOf .w s.len a)) ∧
      t = { s with mem := t.mem, status := s.status.committed true s.status.insuf }

/-- R187: BMSYN completes on any canonical sequence, and never raises DivisionByZero. -/
def Obligations.BmsynCompletes : Prop :=
  ∀ (s : State) (syn : List Nat), s.cfg.Valid → s.GeometryOk → s.Operand .s (s.len - s.dim) syn →
    ∃ t st, exec .bmsyn s = .next t ∧ s.cfg.field.bm syn = some st ∧
      t.Operand .lambda (s.len - s.dim + 1) st.lam ∧ t.Operand .bpoly (s.len - s.dim + 1) st.aux ∧
      t.bmL.toNat = st.len ∧ t.bmM.toNat = st.shift ∧ t.bmB.toNat = st.last ∧
      SameBytesOutside s t (fun a => lanesOf .lambda (s.len - s.dim + 1) a ∨ lanesOf .bpoly (s.len - s.dim + 1) a) ∧
      t = { s with mem := t.mem, bmL := t.bmL, bmM := t.bmM, bmB := t.bmB
                   status := s.status.committed s.status.wValid s.status.insuf }

/-- R181-R186: the starting state, the steps in increasing order, each from the state the previous one left, the discrepancy as the
sum of R183, and the three cases of a step, coefficient by coefficient. -/
def Obligations.SynthesizerSteps : Prop :=
  ∀ (F : FieldDesc) (syn : List Nat) (count r : Nat) (st : SynthState), F.Valid → r < count →
    st.lam.length = count + 1 → st.aux.length = count + 1 → st.last < F.size → st.last ≠ 0 →
    F.synthRun syn count 0 =
      some { lam := 1 :: List.replicate count 0, aux := 1 :: List.replicate count 0, len := 0, shift := 1, last := 1 } ∧
    F.synthRun syn count (r + 1) = (F.synthRun syn count r).bind (fun u => F.synthStep syn count u r) ∧
    F.bm syn = F.synthRun syn syn.length syn.length ∧
    ((∀ v ∈ syn, v < F.size) → (∀ v ∈ st.lam, v < F.size) →
      F.discrepancy syn st.lam r = F.fadd (syn.getD r 0)
        (F.fsum ((List.range' 1 r).map fun i => F.fmul (st.lam.getD i 0) (syn.getD (r - i) 0)))) ∧
    (F.discrepancy syn st.lam r = 0 → F.synthStep syn count st r = some { st with shift := st.shift + 1 }) ∧
    (F.discrepancy syn st.lam r ≠ 0 →
      ∃ bInv cand, F.finv st.last = some bInv ∧ cand.length = count + 1 ∧
        (∀ i, i ≤ count → cand.getD i 0 = F.fsub (st.lam.getD i 0)
          (if i < st.shift then F.fmul 0 (F.fmul (F.discrepancy syn st.lam r) bInv)
            else F.fmul (st.aux.getD (i - st.shift) 0) (F.fmul (F.discrepancy syn st.lam r) bInv))) ∧
        (2 * st.len ≤ r → F.synthStep syn count st r =
          some { lam := cand, aux := st.lam, len := r + 1 - st.len, shift := 1, last := F.discrepancy syn st.lam r }) ∧
        (r < 2 * st.len → F.synthStep syn count st r = some { st with lam := cand, shift := st.shift + 1 }))

/-- R202, R203: ROOTS completes on any canonical locator; it writes every bit of ERRMAP, and NERR. -/
def Obligations.RootsCompletes : Prop :=
  ∀ (s : State) (points lam : List Nat), s.cfg.Valid → s.GeometryOk → s.Operand .alpha s.len points →
    s.Operand .lambda (s.len - s.dim + 1) lam →
    ∃ t, exec .roots s = .next t ∧
      (∀ i, t.errBit i = true ↔ i < s.len ∧ points.getD i 0 ≠ 0 ∧
        ∃ x, s.cfg.field.finv (points.getD i 0) = some x ∧ s.cfg.field.peval lam x = 0) ∧
      t.nerr.toNat = ((List.range s.len).filter t.errBit).length ∧
      t = { s with errmap := t.errmap, nerr := t.nerr
                   status := s.status.committed s.status.wValid s.status.insuf }

/-- R209-R214: RECOVER completes when K valid positions remain and the first K of them have distinct points; DEC is the only
polynomial of K coefficients through those points. -/
def Obligations.RecoverCompletes : Prop :=
  ∀ (s : State) (points r : List Nat), s.cfg.Valid → s.GeometryOk → s.Operand .alpha s.len points →
    s.Operand .cw s.len r →
    s.dim ≤ ((List.range s.len).filter fun i => !s.errBit i).length →
    ((((List.range s.len).filter fun i => !s.errBit i).take s.dim).map fun p => points.getD p 0).Nodup →
    ∃ t dec, exec .recover s = .next t ∧ t.Operand .dec s.dim dec ∧
      (∀ p ∈ ((List.range s.len).filter fun i => !s.errBit i).take s.dim,
        s.cfg.field.peval dec (points.getD p 0) = r.getD p 0) ∧
      (∀ q : List Nat, q.length = s.dim → (∀ v ∈ q, v < s.cfg.field.size) →
        (∀ p ∈ ((List.range s.len).filter fun i => !s.errBit i).take s.dim,
          s.cfg.field.peval q (points.getD p 0) = r.getD p 0) → q = dec) ∧
      SameBytesOutside s t (lanesOf .dec s.dim) ∧
      t = { s with mem := t.mem, status := s.status.committed s.status.wValid false }

/-- R216: with fewer than K valid positions RECOVER commits a zero message and INSUF, with ERR = NONE; ERRMAP and NERR stay, and
equal points do not raise. -/
def Obligations.RecoverInsufficientPoints : Prop :=
  ∀ (s : State) (points r : List Nat), s.cfg.Valid → s.GeometryOk → s.Operand .alpha s.len points →
    s.Operand .cw s.len r →
    ((List.range s.len).filter fun i => !s.errBit i).length < s.dim →
    ∃ t, exec .recover s = .next t ∧ t.Operand .dec s.dim (List.replicate s.dim 0) ∧
      SameBytesOutside s t (lanesOf .dec s.dim) ∧
      t = { s with mem := t.mem, status := s.status.committed s.status.wValid true }

/-- R217: RECOVER raises DivisionByZero exactly when two of the K selected points are equal. -/
def Obligations.RecoverRaisesExactlyOnSelectedDuplicates : Prop :=
  ∀ (s : State) (points r : List Nat), s.cfg.Valid → s.GeometryOk → s.Operand .alpha s.len points →
    s.Operand .cw s.len r →
    s.dim ≤ ((List.range s.len).filter fun i => !s.errBit i).length →
    (exec .recover s = .next (s.withError 4) ↔
      ¬ ((((List.range s.len).filter fun i => !s.errBit i).take s.dim).map fun p => points.getD p 0).Nodup)

/-- R232: DECODE completes on distinct points, and commits the results of all its stages together. -/
def Obligations.DecodeCompletes : Prop :=
  ∀ (s : State) (r points : List Nat), s.cfg.Valid → s.GeometryOk → s.Operand .cw s.len r →
    s.Operand .alpha s.len points → points.Nodup → s.CacheRight points →
    ∃ t w st dec insuf, exec .decode s = .next t ∧
      s.cfg.field.wfn points = some w ∧ t.Operand .w s.len w ∧
      t.Operand .s (s.len - s.dim) (s.cfg.field.sfn r points w (s.len - s.dim)) ∧
      s.cfg.field.bm (s.cfg.field.sfn r points w (s.len - s.dim)) = some st ∧
      t.Operand .lambda (s.len - s.dim + 1) st.lam ∧ t.Operand .bpoly (s.len - s.dim + 1) st.aux ∧
      t.bmL.toNat = st.len ∧ t.bmM.toNat = st.shift ∧ t.bmB.toNat = st.last ∧
      (∀ i, t.errBit i = true ↔ i < s.len ∧ s.cfg.field.isError st.lam (points.getD i 0) = true) ∧
      t.nerr.toNat = ((List.range s.len).filter t.errBit).length ∧
      s.cfg.field.rfn t.errBit points r s.dim = some (dec, insuf) ∧ t.Operand .dec s.dim dec ∧
      SameBytesOutside s t (fun a => lanesOf .s (s.len - s.dim) a ∨ lanesOf .lambda (s.len - s.dim + 1) a ∨
        lanesOf .bpoly (s.len - s.dim + 1) a ∨ lanesOf .dec s.dim a ∨ (s.status.wValid = false ∧ lanesOf .w s.len a)) ∧
      t = { s with mem := t.mem, bmL := t.bmL, bmM := t.bmM, bmB := t.bmB, errmap := t.errmap, nerr := t.nerr
                   status := s.status.committed true insuf }

/-! ## Errors -/

/-- R255: every command but NOP ends with ERR = LENGTH when not `1 ≤ K ≤ N ≤ NMAX`, and with that code in no other case. -/
def Obligations.GeometryErrorExactly : Prop :=
  ∀ (s : State) (i : Instr), i ≠ .nop →
    (¬ (1 ≤ s.k.toNat ∧ s.k.toNat ≤ s.n.toNat ∧ s.n.toNat ≤ s.cfg.nmax) → exec i s = .next (s.withError 2)) ∧
    (1 ≤ s.k.toNat ∧ s.k.toNat ≤ s.n.toNat ∧ s.n.toNat ≤ s.cfg.nmax →
      ∀ t, exec i s = .next t → t.status.err ≠ 2)

/-- R256: with a valid geometry and operands that hold values, one non-canonical code ends the command with ERR = RANGE and nothing
else. -/
def Obligations.NonCanonicalOperandAborts : Prop :=
  ∀ (s : State) (i : Instr), s.GeometryOk → s.AllHeld (operandRanges s i) → s.SomeNonCanonical (operandRanges s i) →
    exec i s = .next (s.withError 3)

/-- R52, R261, R283 (assumption log 8 for the order of the checks): a command never refuses; it faults only at an operand
element that holds no value, in a valid geometry; and it does fault when an operand holds no value and no operand is non-
canonical. -/
def Obligations.FaultsExactlyOnUnwrittenOperands : Prop :=
  ∀ (s : State) (i : Instr),
    (∀ x, exec i s ≠ .refused x) ∧
    (∀ f, exec i s = .fault f → s.GeometryOk ∧
      ∃ b len j, ((b, len) ∈ operandRanges s i ∨
          (b = .w ∧ len = s.len ∧ s.status.wValid = true ∧ (i = .syndrome ∨ i = .decode))) ∧
        j < len ∧ s.elem b j = none ∧ f = .unwrittenElement b j) ∧
    (s.GeometryOk → ¬ s.AllHeld (operandRanges s i) → ¬ s.SomeNonCanonical (operandRanges s i) →
      ∃ f, exec i s = .fault f)

/-- R252: a command that ends with an error code changes nothing but STATUS.BUSY, DONE and ERR. -/
def Obligations.AbortChangesStatusOnly : Prop :=
  ∀ (s t : State) (i : Instr), exec i s = .next t → t.status.err ≠ 0 →
    t = { s with status := { s.status with busy := false, done := true, err := t.status.err } }

/-- R254: LENGTH before RANGE before DIV0, and no other code. -/
def Obligations.ErrorPriority : Prop :=
  ∀ (s t : State) (i : Instr), exec i s = .next t →
    (t.status.err = 0 ∨ t.status.err = 2 ∨ t.status.err = 3 ∨ t.status.err = 4) ∧
    (t.status.err = 2 ↔ i ≠ .nop ∧ ¬ s.GeometryOk) ∧
    (t.status.err = 3 → s.GeometryOk ∧ s.SomeNonCanonical (operandRanges s i)) ∧
    (t.status.err = 4 → s.GeometryOk ∧ s.AllHeld (operandRanges s i) ∧ ¬ s.SomeNonCanonical (operandRanges s i))

/-! ## Arithmetic and polynomials -/

/-- R120-R125: the field primitives give canonical codes; for GF(Q) they are the residues; `fsub` and `finv` are the unique
solutions; only 0 has no inverse. -/
def Obligations.FieldPrimitives : Prop :=
  (∀ (F : FieldDesc) (a b : Nat), F.Valid → a < F.size → b < F.size →
    F.fadd a b < F.size ∧ F.fsub a b < F.size ∧ F.fmul a b < F.size ∧
    (∀ c, c < F.size → (F.fadd b c = a ↔ c = F.fsub a b)) ∧
    F.fadd a 0 = a ∧ F.fsub a a = 0 ∧ F.fmul a 0 = 0 ∧ F.fmul a 1 = a ∧
    (F.finv a = none ↔ a = 0) ∧
    (∀ c, F.finv a = some c ↔ c < F.size ∧ F.fmul a c = 1) ∧
    F.fpow a 0 = 1 ∧ (∀ j, F.fpow a (j + 1) = F.fmul (F.fpow a j) a)) ∧
  (∀ q a b : Nat, (FieldDesc.prime q).Valid → a < q → b < q →
    (FieldDesc.prime q).fadd a b = (a + b) % q ∧ (FieldDesc.prime q).fsub a b = (a + q - b) % q ∧
    (FieldDesc.prime q).fmul a b = (a * b) % q ∧ (a ≠ 0 → (FieldDesc.prime q).finv a = some (a ^ (q - 2) % q)))

/-- R128: Horner's method gives the sum of the powers; trailing zeros do not matter; the values at 0 and 1. -/
def Obligations.HornerIsPowerSum : Prop :=
  ∀ (F : FieldDesc) (p : List Nat) (x : Nat), F.Valid → (∀ v ∈ p, v < F.size) → x < F.size →
    F.peval p x = F.fsum ((List.range p.length).map fun i => F.fmul (p.getD i 0) (F.fpow x i)) ∧
    (∀ k, F.peval (p ++ List.replicate k 0) x = F.peval p x) ∧
    F.peval [] x = 0 ∧ F.peval p 0 = p.getD 0 0 ∧ F.peval p 1 = F.fsum p

/-- The spec's inference in R134, "raises DivisionByZero exactly when two of `xs[0..k−1]` are equal": interpolation raises
DivisionByZero exactly when two abscissae are equal. -/
def Obligations.InterpolationRaisesExactlyOnDuplicates : Prop :=
  ∀ (F : FieldDesc) (xs ys : List Nat), F.Valid → xs.length = ys.length → (∀ v ∈ xs, v < F.size) →
    (∀ v ∈ ys, v < F.size) → (F.interpolate xs ys = none ↔ ¬ xs.Nodup)

/-- R135: interpolating the values of a polynomial gives it back, padded to k coefficients. -/
def Obligations.InterpolationIdempotent : Prop :=
  ∀ (F : FieldDesc) (xs p : List Nat), F.Valid → xs.Nodup → (∀ v ∈ xs, v < F.size) → p.length ≤ xs.length →
    (∀ v ∈ p, v < F.size) →
    F.interpolate xs (xs.map fun x => F.peval p x) = some (p ++ List.replicate (xs.length - p.length) 0)

/-- The spec's inference "Weight identity", R163 (general knowledge): the weight identity, 0 for `j ≤ n-2` and 1 for `j = n-1`. -/
def Obligations.WeightIdentity : Prop :=
  ∀ (F : FieldDesc) (points w : List Nat) (j : Nat), F.Valid → points.Nodup → (∀ v ∈ points, v < F.size) →
    F.wfn points = some w →
    (j + 2 ≤ points.length →
      F.fsum ((List.range points.length).map fun i => F.fmul (w.getD i 0) (F.fpow (points.getD i 0) j)) = 0) ∧
    (j + 1 = points.length →
      F.fsum ((List.range points.length).map fun i => F.fmul (w.getD i 0) (F.fpow (points.getD i 0) j)) = 1)

/-- The spec's inference "Syndromes vanish on codewords", R164: the syndromes of a codeword vanish, syndromes are linear, and
those of a codeword plus an error vector are a sum over the positions in error. -/
def Obligations.SyndromesSeeOnlyTheErrors : Prop :=
  ∀ (F : FieldDesc) (points w f e : List Nat), F.Valid → points.Nodup → (∀ v ∈ points, v < F.size) →
    F.wfn points = some w → f.length ≤ points.length → (∀ v ∈ f, v < F.size) → e.length = points.length →
    (∀ v ∈ e, v < F.size) →
    F.sfn (points.map fun a => F.peval f a) points w (points.length - f.length) =
      List.replicate (points.length - f.length) 0 ∧
    F.sfn (F.padd (points.map fun a => F.peval f a) e) points w (points.length - f.length) =
      ((List.range (points.length - f.length)).map fun j =>
        F.fsum (((List.range points.length).filter fun i => decide (e.getD i 0 ≠ 0)).map fun i =>
          F.fmul (F.fmul (e.getD i 0) (w.getD i 0)) (F.fpow (points.getD i 0) j))) ∧
    (∀ (a b : Nat) (r1 r2 : List Nat) (count : Nat), a < F.size → b < F.size → r1.length = points.length →
      r2.length = points.length → (∀ v ∈ r1, v < F.size) → (∀ v ∈ r2, v < F.size) →
      F.sfn (F.padd (F.pscale r1 a) (F.pscale r2 b)) points w count =
        F.padd (F.pscale (F.sfn r1 points w count) a) (F.pscale (F.sfn r2 points w count) b))

/-- The spec's inference "Bounds", R188: the bounds of a Berlekamp-Massey run, at the start of every step `r` and at the end (`r
= count`). It never inverts 0. -/
def Obligations.SynthesizerBounds : Prop :=
  ∀ (F : FieldDesc) (syn : List Nat) (r : Nat), F.Valid → (∀ v ∈ syn, v < F.size) → r ≤ syn.length →
    ∃ st, F.synthRun syn syn.length r = some st ∧
      st.lam.length = syn.length + 1 ∧ st.aux.length = syn.length + 1 ∧
      (∀ v ∈ st.lam, v < F.size) ∧ (∀ v ∈ st.aux, v < F.size) ∧
      st.lam.getD 0 0 = 1 ∧ st.aux.getD 0 0 = 1 ∧ st.len ≤ r ∧
      (∀ i, st.len < i → st.lam.getD i 0 = 0) ∧
      (∀ i, st.aux.getD i 0 ≠ 0 → st.shift + i ≤ r + 1 - st.len) ∧
      1 ≤ st.shift ∧ st.shift ≤ syn.length + 1 ∧ st.last ≠ 0 ∧ st.last < F.size

/-- The spec's inference "Meaning of the result", R189 (general knowledge): with at most `count / 2` errors, at distinct points
that are nonzero at the error positions (a point elsewhere may be 0), Berlekamp-Massey finds exactly the locator of the error
positions, padded with zeros, and L is their number. -/
def Obligations.SynthesizerFindsTheLocator : Prop :=
  ∀ (F : FieldDesc) (points w e : List Nat) (count : Nat), F.Valid → points.Nodup →
    (∀ v ∈ points, v < F.size) → F.wfn points = some w → e.length = points.length → (∀ v ∈ e, v < F.size) →
    (∀ i, e.getD i 0 ≠ 0 → points.getD i 0 ≠ 0) →
    2 * ((List.range e.length).filter fun i => decide (e.getD i 0 ≠ 0)).length ≤ count →
    ∃ st, F.bm (F.sfn e points w count) = some st ∧
      st.len = ((List.range e.length).filter fun i => decide (e.getD i 0 ≠ 0)).length ∧
      st.lam = (((List.range e.length).filter fun i => decide (e.getD i 0 ≠ 0)).foldl
          (fun p i => F.pmul p [1, F.fsub 0 (points.getD i 0)]) [1]) ++ List.replicate (count - st.len) 0

/-- The spec's inference "Root count bound", R207 (general knowledge): distinct points and a locator that is not zero give at
most `deg` marked positions; for a locator of Berlekamp-Massey at most L. -/
def Obligations.RootCountBound : Prop :=
  ∀ (F : FieldDesc) (nmax : Nat) (points lam : List Nat), F.Valid → points.Nodup → (∀ v ∈ points, v < F.size) →
    (∀ v ∈ lam, v < F.size) →
    (∀ d, lam.getD d 0 ≠ 0 → (∀ i, d < i → lam.getD i 0 = 0) →
      (F.errorPositions nmax points.length points lam).length ≤ d ∧ d + 1 ≤ lam.length) ∧
    (∀ syn st, (∀ v ∈ syn, v < F.size) → F.bm syn = some st →
      (F.errorPositions nmax points.length points st.lam).length ≤ st.len ∧ st.len ≤ syn.length)

/-! ## DECODE as a whole -/

/-- The spec's inference "DECODE is the composition of the functions of the five units", R231: DECODE has the final state of
SYNDROME, BMSYN, ROOTS and RECOVER run one after another, each accepted in turn, but for the latched command word. -/
def Obligations.DecodeIsTheStagesInTurn : Prop :=
  ∀ (s : State) (r points : List Nat), s.cfg.Valid → s.GeometryOk → s.Operand .cw s.len r →
    s.Operand .alpha s.len points → points.Nodup → s.CacheRight points →
    ∃ s1 s2 s3 s4,
      exec .syndrome (accept (encode .syndrome) s) = .next s1 ∧ exec .bmsyn (accept (encode .bmsyn) s1) = .next s2 ∧
      exec .roots (accept (encode .roots) s2) = .next s3 ∧ exec .recover (accept (encode .recover) s3) = .next s4 ∧
      exec .decode (accept (encode .decode) s) = .next { s4 with cmdlatch := encode .decode }

/-- The spec's inference "all-zero syndromes give exactly this result", R233: all-zero syndromes leave exactly the values of the
full path: the trivial locator, BM_M = count + 1, no error, and the interpolation of the first K received points. -/
def Obligations.AllZeroSyndromesDecode : Prop :=
  ∀ (s : State) (r points w : List Nat), s.cfg.Valid → s.GeometryOk → s.Operand .cw s.len r →
    s.Operand .alpha s.len points → points.Nodup → s.CacheRight points → s.cfg.field.wfn points = some w →
    (∀ j, j < s.len - s.dim → s.cfg.field.syndromeAt r points w j = 0) →
    ∃ t dec, exec .decode s = .next t ∧
      t.Codes .lambda (1 :: List.replicate (s.len - s.dim) 0) ∧ t.Codes .bpoly (1 :: List.replicate (s.len - s.dim) 0) ∧
      t.bmL = 0 ∧ t.bmM.toNat = s.len - s.dim + 1 ∧ t.bmB = 1 ∧ t.errmap = 0 ∧ t.nerr = 0 ∧
      s.cfg.field.interpolate (points.take s.dim) (r.take s.dim) = some dec ∧ t.Operand .dec s.dim dec ∧
      t.status = s.status.committed true false

/-- The spec's inference "Reachability of INSUF", R219: DECODE never sets INSUF, and neither does RECOVER after a ROOTS on a
locator that is not all zero, when the points are distinct. -/
def Obligations.InsufficientNeverWithDistinctPoints : Prop :=
  ∀ (s t : State) (r points : List Nat), s.cfg.Valid → s.Operand .cw s.len r → s.Operand .alpha s.len points →
    points.Nodup → s.CacheRight points →
    (exec .decode s = .next t → t.status.err = 0 → t.status.insuf = false) ∧
    (∀ lam u, s.Operand .lambda (s.len - s.dim + 1) lam → (∃ v ∈ lam, v ≠ 0) → exec .roots s = .next u →
      u.status.err = 0 → exec .recover (accept (encode .recover) u) = .next t → t.status.insuf = false)

/-- The spec's inference "Encoder-to-decoder contract", R152: ENCODE followed by DECODE gives the message back, with no position
marked. -/
def Obligations.EncodeThenDecodeIsTheMessage : Prop :=
  ∀ (s : State) (msg points : List Nat), s.cfg.Valid → s.GeometryOk → s.Operand .msg s.dim msg →
    s.Operand .alpha s.len points → points.Nodup → (∀ v ∈ points, v ≠ 0) → s.CacheRight points →
    ∃ t1 t2, exec .encode s = .next t1 ∧ exec .decode (accept (encode .decode) t1) = .next t2 ∧
      t2.Operand .dec s.dim msg ∧ (∀ i, t2.errBit i = false) ∧ t2.nerr = 0 ∧
      t2.status.insuf = false ∧ t2.status.err = 0

/-- The spec's inference "Round-trip properties", R235: DECODE completes without an error code whatever was received; and with
at most `t` errors it gives the message, exactly the error positions, their number in NERR and BM_L, and no INSUF. -/
def Obligations.DecodeCorrectsUpToT : Prop :=
  ∀ (s : State) (msg points r : List Nat), s.cfg.Valid → s.GeometryOk → s.Operand .alpha s.len points →
    points.Nodup → (∀ v ∈ points, v ≠ 0) → s.Operand .cw s.len r → s.CacheRight points →
    msg.length = s.dim → (∀ v ∈ msg, v < s.cfg.field.size) →
    ∃ t, exec .decode s = .next t ∧ t.status.err = 0 ∧
      ((errorSet s.cfg.field msg points r).length ≤ s.radius →
        t.Operand .dec s.dim msg ∧
        (∀ i, t.errBit i = true ↔ i < s.len ∧ r.getD i 0 ≠ s.cfg.field.peval msg (points.getD i 0)) ∧
        t.nerr.toNat = (errorSet s.cfg.field msg points r).length ∧
        t.bmL.toNat = (errorSet s.cfg.field msg points r).length ∧ t.status.insuf = false)

/-! ## Invariants and whole-machine rules -/

/-- Every invariant holds right after reset, for all parameters the spec allows, and for the model's own (assumption log 1). -/
def Obligations.ResetMeetsInvariants : Prop :=
  (∀ c : Config, c.Valid → (State.resetOf c).Inv) ∧ State.reset.Inv

/-- The fields of STATUS stay coherent at every step (R28, R30, R31, R239; the spec's inference "The pair `BUSY = 0, DONE = 0`
occurs only after reset"). -/
def Obligations.StepKeepsStatusCoherent : Prop :=
  ∀ s t : State, step s = .next t → s.status.Coherent →
    t.status.Coherent ∧
    (s.mover ≠ .releaseRst → s.status.busy = true ∨ s.status.done = true → t.status.busy = true ∨ t.status.done = true)

/-- R40, R62, R120 (the form of the buffers: assumption log 5): every step keeps the buffers in canonical form, whole words
within their windows, elements within EW bits, and what only the core writes canonical. -/
def Obligations.StepKeepsMemoryForm : Prop :=
  ∀ s t : State, step s = .next t → s.MemoryForm → t.MemoryForm

/-- The spec's inference "Weights invariant", R51: the weights invariant holds after reset and every step keeps it. -/
def Obligations.StepKeepsWeightsCached : Prop :=
  (∀ c : Config, c.Valid → (State.resetOf c).WeightsCached) ∧
  ∀ s t : State, step s = .next t → s.WeightsCached → t.WeightsCached

/-- R39, R50: every step keeps the bits of ERRMAP below NMAX and NERR their number; that ERRMAP is held in 1024 bits is log 13. -/
def Obligations.StepKeepsErrorsCounted : Prop :=
  ∀ s t : State, step s = .next t → s.ErrorsCounted → t.ErrorsCounted

/-- The spec's inferences in R37, R38 and R188 ("It is never 0"): every step keeps the bounds of the BM registers; BM_B is never
0. The premise `MemoryForm` is an invariant of its own: a cached weight is canonical. -/
def Obligations.StepKeepsSynthBounded : Prop :=
  ∀ s t : State, step s = .next t → s.MemoryForm → s.SynthBounded → t.SynthBounded

/-- R21-R23: no step changes what the constant registers report. -/
def Obligations.ConstantRegistersNeverChange : Prop :=
  ∀ s t : State, step s = .next t →
    t.cfg = s.cfg ∧ t.readReg .id = s.readReg .id ∧ t.readReg .cfg = s.readReg .cfg ∧
    t.readReg .fsize = s.readReg .fsize

/-- R73 item 2, R241, R292 (the interleaving as data: assumption log 6): a command in progress is completed after at most the
host turns still scheduled, on exactly the state it was accepted in: until then only WOVR, the host's own progress and its
record of reads change. -/
def Obligations.CommandCompletesOnTheAcceptedState : Prop :=
  ∀ s : State, s.status.busy = true → s.NoReset → s.ProgramAligned →
    ∃ k u, k ≤ s.schedule.length ∧ stepN k s = .next u ∧ step u = coreStep u.popTurn ∧
      u = { s with
            status := { s.status with wovr := u.status.wovr }
            program := u.program, schedule := u.schedule, reads := u.reads, draws := u.draws }

/-- R32, R41: no command writes ALPHA, MSG, N, K or CMDLATCH, and none clears W_VALID. -/
def Obligations.CommandsLeaveHostStateAlone : Prop :=
  ∀ (s t : State) (i : Instr), exec i s = .next t → s.cfg.Valid →
    t.n = s.n ∧ t.k = s.k ∧ t.cmdlatch = s.cmdlatch ∧ t.cfg = s.cfg ∧
    (s.status.wValid = true → t.status.wValid = true) ∧
    (∀ b j, b = .alpha ∨ b = .msg → j < s.cfg.nmax → t.elem b j = s.elem b j)

/-- R41, R64: no move of the host writes DEC, W, BPOLY, ERRMAP, NERR, BM_L, BM_M or BM_B. -/
def Obligations.HostNeverWritesResults : Prop :=
  ∀ s t : State, step s = .next t → s.mover = .host → s.cfg.Valid →
    t.bmL = s.bmL ∧ t.bmM = s.bmM ∧ t.bmB = s.bmB ∧ t.errmap = s.errmap ∧ t.nerr = s.nerr ∧
    (∀ b j, b = .dec ∨ b = .w ∨ b = .bpoly → j < s.cfg.nmax → t.elem b j = s.elem b j)
end

