-- ==== Sys2Proof/Laws/Decode.lean ====
section
/-! SUPPORT. The fields of a command word, and the word address of a byte offset. -/

namespace Sys2Proof

@[simp] theorem opField_encode (i : Instr) : opField (encode i) = i.opcode := by cases i <;> decide

@[simp] theorem rsvField_encode (i : Instr) : rsvField (encode i) = 0 := by cases i <;> decide

@[simp] theorem opcodeInstr_opcode (i : Instr) : opcodeInstr i.opcode = some i := by cases i <;> rfl

/-- The opcode map assigns exactly the opcodes below 8 (R92). -/
theorem opcodeInstr_isSome (op : BitVec 8) : (opcodeInstr op).isSome = decide (op.toNat < 8) := by
  by_cases h : op.toNat < 8
  · have : op.toNat = 0 ∨ op.toNat = 1 ∨ op.toNat = 2 ∨ op.toNat = 3 ∨ op.toNat = 4 ∨ op.toNat = 5 ∨
        op.toNat = 6 ∨ op.toNat = 7 := by omega
    rcases this with h | h | h | h | h | h | h | h <;> simp [opcodeInstr, h]
  · have hn : opcodeInstr op = none := by
      unfold opcodeInstr
      split <;> first | omega | rfl
    simp [hn, h]

/-- The two fields are the whole word (R90). -/
theorem word_eq_fields (word : Word) : rsvField word ++ opField word = word := by
  apply BitVec.eq_of_getLsbD_eq
  intro i hi
  rw [BitVec.getLsbD_append]
  simp only [rsvField, opField, BitVec.getLsbD_extractLsb']
  split
  · rename_i h; simp [h]
  · rw [show 8 + (i - 8) = i by omega]; simp; omega

/-- An aligned byte offset is four times its word address (R61). -/
theorem waddrOf_eq_some {a : BitVec 16} {wa : BitVec 14} (h : waddrOf a = some wa) : a = byteOffset wa := by
  unfold waddrOf at h
  split at h
  · rename_i ha
    simp only [Option.some.injEq] at h
    subst h
    have := a.isLt
    apply BitVec.eq_of_toNat_eq
    simp only [byteOffset, BitVec.toNat_ofNat]
    omega
  · cases h

@[simp] theorem waddrOf_byteOffset (wa : BitVec 14) : waddrOf (byteOffset wa) = some wa := by
  have := wa.isLt
  have h : (byteOffset wa).toNat = 4 * wa.toNat := by
    simp only [byteOffset, BitVec.toNat_ofNat]; omega
  unfold waddrOf
  rw [h, if_pos (by omega)]
  congr 1
  apply BitVec.eq_of_toNat_eq
  simp only [BitVec.toNat_ofNat]
  omega

theorem waddrOf_eq_none {a : BitVec 16} : waddrOf a = none ↔ a.toNat % 4 ≠ 0 := by
  unfold waddrOf
  split <;> simp_all

end Sys2Proof
end

