-- ==== Sys2Proof/Laws/State.lean ====
section
/-! SUPPORT. What each named update of State leaves in each field: one lemma a field. -/

namespace Sys2Proof.Machine

/-! Elements, the bitmap, acceptance, completion, abort. -/

@[simp] theorem setElem_cfg (s : State) (b : Buf) (i v : Nat) : (s.setElem b i v).cfg = s.cfg := rfl
@[simp] theorem setElem_cmdlatch (s : State) (b : Buf) (i v : Nat) : (s.setElem b i v).cmdlatch = s.cmdlatch := rfl
@[simp] theorem setElem_status (s : State) (b : Buf) (i v : Nat) : (s.setElem b i v).status = s.status := rfl
@[simp] theorem setElem_n (s : State) (b : Buf) (i v : Nat) : (s.setElem b i v).n = s.n := rfl
@[simp] theorem setElem_k (s : State) (b : Buf) (i v : Nat) : (s.setElem b i v).k = s.k := rfl
@[simp] theorem setElem_bmL (s : State) (b : Buf) (i v : Nat) : (s.setElem b i v).bmL = s.bmL := rfl
@[simp] theorem setElem_bmM (s : State) (b : Buf) (i v : Nat) : (s.setElem b i v).bmM = s.bmM := rfl
@[simp] theorem setElem_bmB (s : State) (b : Buf) (i v : Nat) : (s.setElem b i v).bmB = s.bmB := rfl
@[simp] theorem setElem_errmap (s : State) (b : Buf) (i v : Nat) : (s.setElem b i v).errmap = s.errmap := rfl
@[simp] theorem setElem_nerr (s : State) (b : Buf) (i v : Nat) : (s.setElem b i v).nerr = s.nerr := rfl
@[simp] theorem setElem_mem (s : State) (b : Buf) (i v : Nat) :
    (s.setElem b i v).mem = writeElem s.cfg.field s.mem b i v := rfl
@[simp] theorem setElem_rst (s : State) (b : Buf) (i v : Nat) : (s.setElem b i v).rst = s.rst := rfl
@[simp] theorem setElem_program (s : State) (b : Buf) (i v : Nat) : (s.setElem b i v).program = s.program := rfl
@[simp] theorem setElem_schedule (s : State) (b : Buf) (i v : Nat) : (s.setElem b i v).schedule = s.schedule := rfl
@[simp] theorem setElem_reads (s : State) (b : Buf) (i v : Nat) : (s.setElem b i v).reads = s.reads := rfl
@[simp] theorem setElem_draws (s : State) (b : Buf) (i v : Nat) : (s.setElem b i v).draws = s.draws := rfl

@[simp] theorem setElems_cfg (s : State) (b : Buf) (vs : List Nat) : (s.setElems b vs).cfg = s.cfg := rfl
@[simp] theorem setElems_cmdlatch (s : State) (b : Buf) (vs : List Nat) :
    (s.setElems b vs).cmdlatch = s.cmdlatch := rfl
@[simp] theorem setElems_status (s : State) (b : Buf) (vs : List Nat) : (s.setElems b vs).status = s.status := rfl
@[simp] theorem setElems_n (s : State) (b : Buf) (vs : List Nat) : (s.setElems b vs).n = s.n := rfl
@[simp] theorem setElems_k (s : State) (b : Buf) (vs : List Nat) : (s.setElems b vs).k = s.k := rfl
@[simp] theorem setElems_bmL (s : State) (b : Buf) (vs : List Nat) : (s.setElems b vs).bmL = s.bmL := rfl
@[simp] theorem setElems_bmM (s : State) (b : Buf) (vs : List Nat) : (s.setElems b vs).bmM = s.bmM := rfl
@[simp] theorem setElems_bmB (s : State) (b : Buf) (vs : List Nat) : (s.setElems b vs).bmB = s.bmB := rfl
@[simp] theorem setElems_errmap (s : State) (b : Buf) (vs : List Nat) : (s.setElems b vs).errmap = s.errmap := rfl
@[simp] theorem setElems_nerr (s : State) (b : Buf) (vs : List Nat) : (s.setElems b vs).nerr = s.nerr := rfl
@[simp] theorem setElems_mem (s : State) (b : Buf) (vs : List Nat) :
    (s.setElems b vs).mem = writeElemsFrom s.cfg.field s.mem b 0 vs := rfl
@[simp] theorem setElems_rst (s : State) (b : Buf) (vs : List Nat) : (s.setElems b vs).rst = s.rst := rfl
@[simp] theorem setElems_program (s : State) (b : Buf) (vs : List Nat) : (s.setElems b vs).program = s.program := rfl
@[simp] theorem setElems_schedule (s : State) (b : Buf) (vs : List Nat) :
    (s.setElems b vs).schedule = s.schedule := rfl
@[simp] theorem setElems_reads (s : State) (b : Buf) (vs : List Nat) : (s.setElems b vs).reads = s.reads := rfl
@[simp] theorem setElems_draws (s : State) (b : Buf) (vs : List Nat) : (s.setElems b vs).draws = s.draws := rfl

@[simp] theorem setErrors_cfg (s : State) (ps : List Nat) : (s.setErrors ps).cfg = s.cfg := rfl
@[simp] theorem setErrors_cmdlatch (s : State) (ps : List Nat) : (s.setErrors ps).cmdlatch = s.cmdlatch := rfl
@[simp] theorem setErrors_status (s : State) (ps : List Nat) : (s.setErrors ps).status = s.status := rfl
@[simp] theorem setErrors_n (s : State) (ps : List Nat) : (s.setErrors ps).n = s.n := rfl
@[simp] theorem setErrors_k (s : State) (ps : List Nat) : (s.setErrors ps).k = s.k := rfl
@[simp] theorem setErrors_bmL (s : State) (ps : List Nat) : (s.setErrors ps).bmL = s.bmL := rfl
@[simp] theorem setErrors_bmM (s : State) (ps : List Nat) : (s.setErrors ps).bmM = s.bmM := rfl
@[simp] theorem setErrors_bmB (s : State) (ps : List Nat) : (s.setErrors ps).bmB = s.bmB := rfl
@[simp] theorem setErrors_errmap (s : State) (ps : List Nat) : (s.setErrors ps).errmap = bitmapOf ps := rfl
@[simp] theorem setErrors_nerr (s : State) (ps : List Nat) : (s.setErrors ps).nerr = BitVec.ofNat 16 ps.length := rfl
@[simp] theorem setErrors_mem (s : State) (ps : List Nat) : (s.setErrors ps).mem = s.mem := rfl
@[simp] theorem setErrors_rst (s : State) (ps : List Nat) : (s.setErrors ps).rst = s.rst := rfl
@[simp] theorem setErrors_program (s : State) (ps : List Nat) : (s.setErrors ps).program = s.program := rfl
@[simp] theorem setErrors_schedule (s : State) (ps : List Nat) : (s.setErrors ps).schedule = s.schedule := rfl
@[simp] theorem setErrors_reads (s : State) (ps : List Nat) : (s.setErrors ps).reads = s.reads := rfl
@[simp] theorem setErrors_draws (s : State) (ps : List Nat) : (s.setErrors ps).draws = s.draws := rfl

@[simp] theorem accept_cfg (w : Word) (s : State) : (accept w s).cfg = s.cfg := rfl
@[simp] theorem accept_cmdlatch (w : Word) (s : State) : (accept w s).cmdlatch = w := rfl
@[simp] theorem accept_status (w : Word) (s : State) :
    (accept w s).status =
      { s.status with busy := true, done := false, err := 0, wovr := false, insuf := false } := rfl
@[simp] theorem accept_n (w : Word) (s : State) : (accept w s).n = s.n := rfl
@[simp] theorem accept_k (w : Word) (s : State) : (accept w s).k = s.k := rfl
@[simp] theorem accept_bmL (w : Word) (s : State) : (accept w s).bmL = s.bmL := rfl
@[simp] theorem accept_bmM (w : Word) (s : State) : (accept w s).bmM = s.bmM := rfl
@[simp] theorem accept_bmB (w : Word) (s : State) : (accept w s).bmB = s.bmB := rfl
@[simp] theorem accept_errmap (w : Word) (s : State) : (accept w s).errmap = s.errmap := rfl
@[simp] theorem accept_nerr (w : Word) (s : State) : (accept w s).nerr = s.nerr := rfl
@[simp] theorem accept_mem (w : Word) (s : State) : (accept w s).mem = s.mem := rfl
@[simp] theorem accept_rst (w : Word) (s : State) : (accept w s).rst = s.rst := rfl
@[simp] theorem accept_program (w : Word) (s : State) : (accept w s).program = s.program := rfl
@[simp] theorem accept_schedule (w : Word) (s : State) : (accept w s).schedule = s.schedule := rfl
@[simp] theorem accept_reads (w : Word) (s : State) : (accept w s).reads = s.reads := rfl
@[simp] theorem accept_draws (w : Word) (s : State) : (accept w s).draws = s.draws := rfl

@[simp] theorem finish_cfg (s : State) : (finish s).cfg = s.cfg := rfl
@[simp] theorem finish_cmdlatch (s : State) : (finish s).cmdlatch = s.cmdlatch := rfl
@[simp] theorem finish_status (s : State) :
    (finish s).status = { s.status with busy := false, done := true, err := 0 } := rfl
@[simp] theorem finish_n (s : State) : (finish s).n = s.n := rfl
@[simp] theorem finish_k (s : State) : (finish s).k = s.k := rfl
@[simp] theorem finish_bmL (s : State) : (finish s).bmL = s.bmL := rfl
@[simp] theorem finish_bmM (s : State) : (finish s).bmM = s.bmM := rfl
@[simp] theorem finish_bmB (s : State) : (finish s).bmB = s.bmB := rfl
@[simp] theorem finish_errmap (s : State) : (finish s).errmap = s.errmap := rfl
@[simp] theorem finish_nerr (s : State) : (finish s).nerr = s.nerr := rfl
@[simp] theorem finish_mem (s : State) : (finish s).mem = s.mem := rfl
@[simp] theorem finish_rst (s : State) : (finish s).rst = s.rst := rfl
@[simp] theorem finish_program (s : State) : (finish s).program = s.program := rfl
@[simp] theorem finish_schedule (s : State) : (finish s).schedule = s.schedule := rfl
@[simp] theorem finish_reads (s : State) : (finish s).reads = s.reads := rfl
@[simp] theorem finish_draws (s : State) : (finish s).draws = s.draws := rfl

@[simp] theorem abort_cfg (e : Exception) (s : State) : (abort e s).cfg = s.cfg := rfl
@[simp] theorem abort_cmdlatch (e : Exception) (s : State) : (abort e s).cmdlatch = s.cmdlatch := rfl
@[simp] theorem abort_status (e : Exception) (s : State) :
    (abort e s).status = { s.status with busy := false, done := true, err := e.code } := rfl
@[simp] theorem abort_n (e : Exception) (s : State) : (abort e s).n = s.n := rfl
@[simp] theorem abort_k (e : Exception) (s : State) : (abort e s).k = s.k := rfl
@[simp] theorem abort_bmL (e : Exception) (s : State) : (abort e s).bmL = s.bmL := rfl
@[simp] theorem abort_bmM (e : Exception) (s : State) : (abort e s).bmM = s.bmM := rfl
@[simp] theorem abort_bmB (e : Exception) (s : State) : (abort e s).bmB = s.bmB := rfl
@[simp] theorem abort_errmap (e : Exception) (s : State) : (abort e s).errmap = s.errmap := rfl
@[simp] theorem abort_nerr (e : Exception) (s : State) : (abort e s).nerr = s.nerr := rfl
@[simp] theorem abort_mem (e : Exception) (s : State) : (abort e s).mem = s.mem := rfl
@[simp] theorem abort_rst (e : Exception) (s : State) : (abort e s).rst = s.rst := rfl
@[simp] theorem abort_program (e : Exception) (s : State) : (abort e s).program = s.program := rfl
@[simp] theorem abort_schedule (e : Exception) (s : State) : (abort e s).schedule = s.schedule := rfl
@[simp] theorem abort_reads (e : Exception) (s : State) : (abort e s).reads = s.reads := rfl
@[simp] theorem abort_draws (e : Exception) (s : State) : (abort e s).draws = s.draws := rfl

/-! The commits. -/

@[simp] theorem commitWeights_cfg (s : State) (w : List Nat) : (s.commitWeights w).cfg = s.cfg := rfl
@[simp] theorem commitWeights_cmdlatch (s : State) (w : List Nat) : (s.commitWeights w).cmdlatch = s.cmdlatch := rfl
@[simp] theorem commitWeights_status (s : State) (w : List Nat) :
    (s.commitWeights w).status = { s.status with wValid := true } := rfl
@[simp] theorem commitWeights_n (s : State) (w : List Nat) : (s.commitWeights w).n = s.n := rfl
@[simp] theorem commitWeights_k (s : State) (w : List Nat) : (s.commitWeights w).k = s.k := rfl
@[simp] theorem commitWeights_bmL (s : State) (w : List Nat) : (s.commitWeights w).bmL = s.bmL := rfl
@[simp] theorem commitWeights_bmM (s : State) (w : List Nat) : (s.commitWeights w).bmM = s.bmM := rfl
@[simp] theorem commitWeights_bmB (s : State) (w : List Nat) : (s.commitWeights w).bmB = s.bmB := rfl
@[simp] theorem commitWeights_errmap (s : State) (w : List Nat) : (s.commitWeights w).errmap = s.errmap := rfl
@[simp] theorem commitWeights_nerr (s : State) (w : List Nat) : (s.commitWeights w).nerr = s.nerr := rfl
@[simp] theorem commitWeights_mem (s : State) (w : List Nat) :
    (s.commitWeights w).mem = writeElemsFrom s.cfg.field s.mem .w 0 w := rfl
@[simp] theorem commitWeights_rst (s : State) (w : List Nat) : (s.commitWeights w).rst = s.rst := rfl
@[simp] theorem commitWeights_program (s : State) (w : List Nat) : (s.commitWeights w).program = s.program := rfl
@[simp] theorem commitWeights_schedule (s : State) (w : List Nat) : (s.commitWeights w).schedule = s.schedule := rfl
@[simp] theorem commitWeights_reads (s : State) (w : List Nat) : (s.commitWeights w).reads = s.reads := rfl
@[simp] theorem commitWeights_draws (s : State) (w : List Nat) : (s.commitWeights w).draws = s.draws := rfl

@[simp] theorem commitIfComputed_cfg (s : State) (wc : List Nat × Bool) :
    (s.commitIfComputed wc).cfg = s.cfg := by
  obtain ⟨w, c⟩ := wc; cases c <;> simp [State.commitIfComputed]
@[simp] theorem commitIfComputed_cmdlatch (s : State) (wc : List Nat × Bool) :
    (s.commitIfComputed wc).cmdlatch = s.cmdlatch := by
  obtain ⟨w, c⟩ := wc; cases c <;> simp [State.commitIfComputed]
@[simp] theorem commitIfComputed_status (s : State) (wc : List Nat × Bool) :
    (s.commitIfComputed wc).status = { s.status with wValid := s.status.wValid || wc.2 } := by
  obtain ⟨w, c⟩ := wc; cases c <;> simp [State.commitIfComputed]
@[simp] theorem commitIfComputed_n (s : State) (wc : List Nat × Bool) :
    (s.commitIfComputed wc).n = s.n := by
  obtain ⟨w, c⟩ := wc; cases c <;> simp [State.commitIfComputed]
@[simp] theorem commitIfComputed_k (s : State) (wc : List Nat × Bool) :
    (s.commitIfComputed wc).k = s.k := by
  obtain ⟨w, c⟩ := wc; cases c <;> simp [State.commitIfComputed]
@[simp] theorem commitIfComputed_bmL (s : State) (wc : List Nat × Bool) :
    (s.commitIfComputed wc).bmL = s.bmL := by
  obtain ⟨w, c⟩ := wc; cases c <;> simp [State.commitIfComputed]
@[simp] theorem commitIfComputed_bmM (s : State) (wc : List Nat × Bool) :
    (s.commitIfComputed wc).bmM = s.bmM := by
  obtain ⟨w, c⟩ := wc; cases c <;> simp [State.commitIfComputed]
@[simp] theorem commitIfComputed_bmB (s : State) (wc : List Nat × Bool) :
    (s.commitIfComputed wc).bmB = s.bmB := by
  obtain ⟨w, c⟩ := wc; cases c <;> simp [State.commitIfComputed]
@[simp] theorem commitIfComputed_errmap (s : State) (wc : List Nat × Bool) :
    (s.commitIfComputed wc).errmap = s.errmap := by
  obtain ⟨w, c⟩ := wc; cases c <;> simp [State.commitIfComputed]
@[simp] theorem commitIfComputed_nerr (s : State) (wc : List Nat × Bool) :
    (s.commitIfComputed wc).nerr = s.nerr := by
  obtain ⟨w, c⟩ := wc; cases c <;> simp [State.commitIfComputed]
@[simp] theorem commitIfComputed_mem (s : State) (wc : List Nat × Bool) :
    (s.commitIfComputed wc).mem = if wc.2 then writeElemsFrom s.cfg.field s.mem .w 0 wc.1 else s.mem := by
  obtain ⟨w, c⟩ := wc; cases c <;> simp [State.commitIfComputed]
@[simp] theorem commitIfComputed_rst (s : State) (wc : List Nat × Bool) :
    (s.commitIfComputed wc).rst = s.rst := by
  obtain ⟨w, c⟩ := wc; cases c <;> simp [State.commitIfComputed]
@[simp] theorem commitIfComputed_program (s : State) (wc : List Nat × Bool) :
    (s.commitIfComputed wc).program = s.program := by
  obtain ⟨w, c⟩ := wc; cases c <;> simp [State.commitIfComputed]
@[simp] theorem commitIfComputed_schedule (s : State) (wc : List Nat × Bool) :
    (s.commitIfComputed wc).schedule = s.schedule := by
  obtain ⟨w, c⟩ := wc; cases c <;> simp [State.commitIfComputed]
@[simp] theorem commitIfComputed_reads (s : State) (wc : List Nat × Bool) :
    (s.commitIfComputed wc).reads = s.reads := by
  obtain ⟨w, c⟩ := wc; cases c <;> simp [State.commitIfComputed]
@[simp] theorem commitIfComputed_draws (s : State) (wc : List Nat × Bool) :
    (s.commitIfComputed wc).draws = s.draws := by
  obtain ⟨w, c⟩ := wc; cases c <;> simp [State.commitIfComputed]

@[simp] theorem commitSynth_cfg (s : State) (st : SynthState) : (s.commitSynth st).cfg = s.cfg := rfl
@[simp] theorem commitSynth_cmdlatch (s : State) (st : SynthState) : (s.commitSynth st).cmdlatch = s.cmdlatch := rfl
@[simp] theorem commitSynth_status (s : State) (st : SynthState) : (s.commitSynth st).status = s.status := rfl
@[simp] theorem commitSynth_n (s : State) (st : SynthState) : (s.commitSynth st).n = s.n := rfl
@[simp] theorem commitSynth_k (s : State) (st : SynthState) : (s.commitSynth st).k = s.k := rfl
@[simp] theorem commitSynth_bmL (s : State) (st : SynthState) : (s.commitSynth st).bmL = BitVec.ofNat 16 st.len := rfl
@[simp] theorem commitSynth_bmM (s : State) (st : SynthState) :
    (s.commitSynth st).bmM = BitVec.ofNat 16 st.shift := rfl
@[simp] theorem commitSynth_bmB (s : State) (st : SynthState) :
    (s.commitSynth st).bmB = elemWord s.cfg.field st.last := rfl
@[simp] theorem commitSynth_errmap (s : State) (st : SynthState) : (s.commitSynth st).errmap = s.errmap := rfl
@[simp] theorem commitSynth_nerr (s : State) (st : SynthState) : (s.commitSynth st).nerr = s.nerr := rfl
@[simp] theorem commitSynth_mem (s : State) (st : SynthState) :
    (s.commitSynth st).mem =
      writeElemsFrom s.cfg.field (writeElemsFrom s.cfg.field s.mem .lambda 0 st.lam) .bpoly 0 st.aux := rfl
@[simp] theorem commitSynth_rst (s : State) (st : SynthState) : (s.commitSynth st).rst = s.rst := rfl
@[simp] theorem commitSynth_program (s : State) (st : SynthState) : (s.commitSynth st).program = s.program := rfl
@[simp] theorem commitSynth_schedule (s : State) (st : SynthState) : (s.commitSynth st).schedule = s.schedule := rfl
@[simp] theorem commitSynth_reads (s : State) (st : SynthState) : (s.commitSynth st).reads = s.reads := rfl
@[simp] theorem commitSynth_draws (s : State) (st : SynthState) : (s.commitSynth st).draws = s.draws := rfl

@[simp] theorem commitRecovery_cfg (s : State) (res : List Nat × Bool) : (s.commitRecovery res).cfg = s.cfg := rfl
@[simp] theorem commitRecovery_cmdlatch (s : State) (res : List Nat × Bool) :
    (s.commitRecovery res).cmdlatch = s.cmdlatch := rfl
@[simp] theorem commitRecovery_status (s : State) (res : List Nat × Bool) :
    (s.commitRecovery res).status = { s.status with insuf := res.2 } := rfl
@[simp] theorem commitRecovery_n (s : State) (res : List Nat × Bool) : (s.commitRecovery res).n = s.n := rfl
@[simp] theorem commitRecovery_k (s : State) (res : List Nat × Bool) : (s.commitRecovery res).k = s.k := rfl
@[simp] theorem commitRecovery_bmL (s : State) (res : List Nat × Bool) : (s.commitRecovery res).bmL = s.bmL := rfl
@[simp] theorem commitRecovery_bmM (s : State) (res : List Nat × Bool) : (s.commitRecovery res).bmM = s.bmM := rfl
@[simp] theorem commitRecovery_bmB (s : State) (res : List Nat × Bool) : (s.commitRecovery res).bmB = s.bmB := rfl
@[simp] theorem commitRecovery_errmap (s : State) (res : List Nat × Bool) :
    (s.commitRecovery res).errmap = s.errmap := rfl
@[simp] theorem commitRecovery_nerr (s : State) (res : List Nat × Bool) : (s.commitRecovery res).nerr = s.nerr := rfl
@[simp] theorem commitRecovery_mem (s : State) (res : List Nat × Bool) :
    (s.commitRecovery res).mem = writeElemsFrom s.cfg.field s.mem .dec 0 res.1 := rfl
@[simp] theorem commitRecovery_rst (s : State) (res : List Nat × Bool) : (s.commitRecovery res).rst = s.rst := rfl
@[simp] theorem commitRecovery_program (s : State) (res : List Nat × Bool) :
    (s.commitRecovery res).program = s.program := rfl
@[simp] theorem commitRecovery_schedule (s : State) (res : List Nat × Bool) :
    (s.commitRecovery res).schedule = s.schedule := rfl
@[simp] theorem commitRecovery_reads (s : State) (res : List Nat × Bool) :
    (s.commitRecovery res).reads = s.reads := rfl
@[simp] theorem commitRecovery_draws (s : State) (res : List Nat × Bool) :
    (s.commitRecovery res).draws = s.draws := rfl

@[simp] theorem commitDecode_cfg (s : State) (wc : List Nat × Bool) (d : DecodeResult) :
    (s.commitDecode wc d).cfg = s.cfg := by
  simp [State.commitDecode]
@[simp] theorem commitDecode_cmdlatch (s : State) (wc : List Nat × Bool) (d : DecodeResult) :
    (s.commitDecode wc d).cmdlatch = s.cmdlatch := by
  simp [State.commitDecode]
@[simp] theorem commitDecode_status (s : State) (wc : List Nat × Bool) (d : DecodeResult) :
    (s.commitDecode wc d).status = { s.status with wValid := s.status.wValid || wc.2, insuf := d.recovery.2 } := by
  simp [State.commitDecode]
@[simp] theorem commitDecode_n (s : State) (wc : List Nat × Bool) (d : DecodeResult) :
    (s.commitDecode wc d).n = s.n := by
  simp [State.commitDecode]
@[simp] theorem commitDecode_k (s : State) (wc : List Nat × Bool) (d : DecodeResult) :
    (s.commitDecode wc d).k = s.k := by
  simp [State.commitDecode]
@[simp] theorem commitDecode_bmL (s : State) (wc : List Nat × Bool) (d : DecodeResult) :
    (s.commitDecode wc d).bmL = BitVec.ofNat 16 d.synth.len := by
  simp [State.commitDecode]
@[simp] theorem commitDecode_bmM (s : State) (wc : List Nat × Bool) (d : DecodeResult) :
    (s.commitDecode wc d).bmM = BitVec.ofNat 16 d.synth.shift := by
  simp [State.commitDecode]
@[simp] theorem commitDecode_bmB (s : State) (wc : List Nat × Bool) (d : DecodeResult) :
    (s.commitDecode wc d).bmB = elemWord s.cfg.field d.synth.last := by
  simp [State.commitDecode]
@[simp] theorem commitDecode_errmap (s : State) (wc : List Nat × Bool) (d : DecodeResult) :
    (s.commitDecode wc d).errmap = bitmapOf d.errors := by
  simp [State.commitDecode]
@[simp] theorem commitDecode_nerr (s : State) (wc : List Nat × Bool) (d : DecodeResult) :
    (s.commitDecode wc d).nerr = BitVec.ofNat 16 d.errors.length := by
  simp [State.commitDecode]
@[simp] theorem commitDecode_mem (s : State) (wc : List Nat × Bool) (d : DecodeResult) :
    (s.commitDecode wc d).mem =
      writeElemsFrom s.cfg.field (((s.commitIfComputed wc).setElems .s d.syn).commitSynth d.synth).mem .dec 0 d.recovery.1 := by
  simp [State.commitDecode]
@[simp] theorem commitDecode_rst (s : State) (wc : List Nat × Bool) (d : DecodeResult) :
    (s.commitDecode wc d).rst = s.rst := by
  simp [State.commitDecode]
@[simp] theorem commitDecode_program (s : State) (wc : List Nat × Bool) (d : DecodeResult) :
    (s.commitDecode wc d).program = s.program := by
  simp [State.commitDecode]
@[simp] theorem commitDecode_schedule (s : State) (wc : List Nat × Bool) (d : DecodeResult) :
    (s.commitDecode wc d).schedule = s.schedule := by
  simp [State.commitDecode]
@[simp] theorem commitDecode_reads (s : State) (wc : List Nat × Bool) (d : DecodeResult) :
    (s.commitDecode wc d).reads = s.reads := by
  simp [State.commitDecode]
@[simp] theorem commitDecode_draws (s : State) (wc : List Nat × Bool) (d : DecodeResult) :
    (s.commitDecode wc d).draws = s.draws := by
  simp [State.commitDecode]

/-! The agents' turns. -/

@[simp] theorem popTurn_cfg (s : State) : (s.popTurn).cfg = s.cfg := rfl
@[simp] theorem popTurn_cmdlatch (s : State) : (s.popTurn).cmdlatch = s.cmdlatch := rfl
@[simp] theorem popTurn_status (s : State) : (s.popTurn).status = s.status := rfl
@[simp] theorem popTurn_n (s : State) : (s.popTurn).n = s.n := rfl
@[simp] theorem popTurn_k (s : State) : (s.popTurn).k = s.k := rfl
@[simp] theorem popTurn_bmL (s : State) : (s.popTurn).bmL = s.bmL := rfl
@[simp] theorem popTurn_bmM (s : State) : (s.popTurn).bmM = s.bmM := rfl
@[simp] theorem popTurn_bmB (s : State) : (s.popTurn).bmB = s.bmB := rfl
@[simp] theorem popTurn_errmap (s : State) : (s.popTurn).errmap = s.errmap := rfl
@[simp] theorem popTurn_nerr (s : State) : (s.popTurn).nerr = s.nerr := rfl
@[simp] theorem popTurn_mem (s : State) : (s.popTurn).mem = s.mem := rfl
@[simp] theorem popTurn_rst (s : State) : (s.popTurn).rst = s.rst := rfl
@[simp] theorem popTurn_program (s : State) : (s.popTurn).program = s.program := rfl
@[simp] theorem popTurn_schedule (s : State) : (s.popTurn).schedule = s.schedule.tail := rfl
@[simp] theorem popTurn_reads (s : State) : (s.popTurn).reads = s.reads := rfl
@[simp] theorem popTurn_draws (s : State) : (s.popTurn).draws = s.draws := rfl

@[simp] theorem clearWValid_cfg (s : State) : (s.clearWValid).cfg = s.cfg := rfl
@[simp] theorem clearWValid_cmdlatch (s : State) : (s.clearWValid).cmdlatch = s.cmdlatch := rfl
@[simp] theorem clearWValid_status (s : State) : (s.clearWValid).status = { s.status with wValid := false } := rfl
@[simp] theorem clearWValid_n (s : State) : (s.clearWValid).n = s.n := rfl
@[simp] theorem clearWValid_k (s : State) : (s.clearWValid).k = s.k := rfl
@[simp] theorem clearWValid_bmL (s : State) : (s.clearWValid).bmL = s.bmL := rfl
@[simp] theorem clearWValid_bmM (s : State) : (s.clearWValid).bmM = s.bmM := rfl
@[simp] theorem clearWValid_bmB (s : State) : (s.clearWValid).bmB = s.bmB := rfl
@[simp] theorem clearWValid_errmap (s : State) : (s.clearWValid).errmap = s.errmap := rfl
@[simp] theorem clearWValid_nerr (s : State) : (s.clearWValid).nerr = s.nerr := rfl
@[simp] theorem clearWValid_mem (s : State) : (s.clearWValid).mem = s.mem := rfl
@[simp] theorem clearWValid_rst (s : State) : (s.clearWValid).rst = s.rst := rfl
@[simp] theorem clearWValid_program (s : State) : (s.clearWValid).program = s.program := rfl
@[simp] theorem clearWValid_schedule (s : State) : (s.clearWValid).schedule = s.schedule := rfl
@[simp] theorem clearWValid_reads (s : State) : (s.clearWValid).reads = s.reads := rfl
@[simp] theorem clearWValid_draws (s : State) : (s.clearWValid).draws = s.draws := rfl

@[simp] theorem assertReset_cfg (s : State) : (s.assertReset).cfg = s.cfg := rfl
@[simp] theorem assertReset_cmdlatch (s : State) : (s.assertReset).cmdlatch = s.cmdlatch := rfl
@[simp] theorem assertReset_status (s : State) : (s.assertReset).status = s.status := rfl
@[simp] theorem assertReset_n (s : State) : (s.assertReset).n = s.n := rfl
@[simp] theorem assertReset_k (s : State) : (s.assertReset).k = s.k := rfl
@[simp] theorem assertReset_bmL (s : State) : (s.assertReset).bmL = s.bmL := rfl
@[simp] theorem assertReset_bmM (s : State) : (s.assertReset).bmM = s.bmM := rfl
@[simp] theorem assertReset_bmB (s : State) : (s.assertReset).bmB = s.bmB := rfl
@[simp] theorem assertReset_errmap (s : State) : (s.assertReset).errmap = s.errmap := rfl
@[simp] theorem assertReset_nerr (s : State) : (s.assertReset).nerr = s.nerr := rfl
@[simp] theorem assertReset_mem (s : State) : (s.assertReset).mem = s.mem := rfl
@[simp] theorem assertReset_rst (s : State) : (s.assertReset).rst = true := rfl
@[simp] theorem assertReset_program (s : State) : (s.assertReset).program = s.program := rfl
@[simp] theorem assertReset_schedule (s : State) : (s.assertReset).schedule = s.schedule := rfl
@[simp] theorem assertReset_reads (s : State) : (s.assertReset).reads = s.reads := rfl
@[simp] theorem assertReset_draws (s : State) : (s.assertReset).draws = s.draws := rfl

@[simp] theorem acceptForCore_cfg (s : State) (w : Word) : (s.acceptForCore w).cfg = s.cfg := rfl
@[simp] theorem acceptForCore_cmdlatch (s : State) (w : Word) : (s.acceptForCore w).cmdlatch = w := rfl
@[simp] theorem acceptForCore_status (s : State) (w : Word) :
    (s.acceptForCore w).status =
      { s.status with busy := true, done := false, err := 0, wovr := false, insuf := false } := rfl
@[simp] theorem acceptForCore_n (s : State) (w : Word) : (s.acceptForCore w).n = s.n := rfl
@[simp] theorem acceptForCore_k (s : State) (w : Word) : (s.acceptForCore w).k = s.k := rfl
@[simp] theorem acceptForCore_bmL (s : State) (w : Word) : (s.acceptForCore w).bmL = s.bmL := rfl
@[simp] theorem acceptForCore_bmM (s : State) (w : Word) : (s.acceptForCore w).bmM = s.bmM := rfl
@[simp] theorem acceptForCore_bmB (s : State) (w : Word) : (s.acceptForCore w).bmB = s.bmB := rfl
@[simp] theorem acceptForCore_errmap (s : State) (w : Word) : (s.acceptForCore w).errmap = s.errmap := rfl
@[simp] theorem acceptForCore_nerr (s : State) (w : Word) : (s.acceptForCore w).nerr = s.nerr := rfl
@[simp] theorem acceptForCore_mem (s : State) (w : Word) : (s.acceptForCore w).mem = s.mem := rfl
@[simp] theorem acceptForCore_rst (s : State) (w : Word) : (s.acceptForCore w).rst = false := rfl
@[simp] theorem acceptForCore_program (s : State) (w : Word) : (s.acceptForCore w).program = s.program := rfl
@[simp] theorem acceptForCore_schedule (s : State) (w : Word) :
    (s.acceptForCore w).schedule = .core :: s.schedule := rfl
@[simp] theorem acceptForCore_reads (s : State) (w : Word) : (s.acceptForCore w).reads = s.reads := rfl
@[simp] theorem acceptForCore_draws (s : State) (w : Word) : (s.acceptForCore w).draws = s.draws := rfl

theorem releaseReset_of_rst (s : State) (h : s.rst = true) : s.releaseReset =
    { State.resetOf s.cfg with program := s.program, schedule := s.schedule, reads := s.reads, draws := s.draws } := by
  simp [State.releaseReset, h]

theorem releaseReset_of_not_rst (s : State) (h : s.rst = false) : s.releaseReset = s := by
  simp [State.releaseReset, h]

@[simp] theorem releaseReset_cfg (s : State) : s.releaseReset.cfg = s.cfg := by
  unfold State.releaseReset; split <;> rfl

/-! A read changes only the host's record of reads and the count of draws (R65). -/

@[simp] theorem memRead_cfg (s : State) (wa : BitVec 14) : (s.memRead wa).cfg = s.cfg := by
  unfold State.memRead; split <;> rfl
@[simp] theorem memRead_cmdlatch (s : State) (wa : BitVec 14) : (s.memRead wa).cmdlatch = s.cmdlatch := by
  unfold State.memRead; split <;> rfl
@[simp] theorem memRead_status (s : State) (wa : BitVec 14) : (s.memRead wa).status = s.status := by
  unfold State.memRead; split <;> rfl
@[simp] theorem memRead_n (s : State) (wa : BitVec 14) : (s.memRead wa).n = s.n := by
  unfold State.memRead; split <;> rfl
@[simp] theorem memRead_k (s : State) (wa : BitVec 14) : (s.memRead wa).k = s.k := by
  unfold State.memRead; split <;> rfl
@[simp] theorem memRead_bmL (s : State) (wa : BitVec 14) : (s.memRead wa).bmL = s.bmL := by
  unfold State.memRead; split <;> rfl
@[simp] theorem memRead_bmM (s : State) (wa : BitVec 14) : (s.memRead wa).bmM = s.bmM := by
  unfold State.memRead; split <;> rfl
@[simp] theorem memRead_bmB (s : State) (wa : BitVec 14) : (s.memRead wa).bmB = s.bmB := by
  unfold State.memRead; split <;> rfl
@[simp] theorem memRead_errmap (s : State) (wa : BitVec 14) : (s.memRead wa).errmap = s.errmap := by
  unfold State.memRead; split <;> rfl
@[simp] theorem memRead_nerr (s : State) (wa : BitVec 14) : (s.memRead wa).nerr = s.nerr := by
  unfold State.memRead; split <;> rfl
@[simp] theorem memRead_mem (s : State) (wa : BitVec 14) : (s.memRead wa).mem = s.mem := by
  unfold State.memRead; split <;> rfl
@[simp] theorem memRead_rst (s : State) (wa : BitVec 14) : (s.memRead wa).rst = s.rst := by
  unfold State.memRead; split <;> rfl
@[simp] theorem memRead_program (s : State) (wa : BitVec 14) : (s.memRead wa).program = s.program := by
  unfold State.memRead; split <;> rfl
@[simp] theorem memRead_schedule (s : State) (wa : BitVec 14) : (s.memRead wa).schedule = s.schedule := by
  unfold State.memRead; split <;> rfl

/-! The host's used turn, and the end with an error code, as statements say them. -/

@[simp] theorem hostUsed_cfg (s : State) (rest : List HostOp) : (s.hostUsed rest).cfg = s.cfg := rfl
@[simp] theorem hostUsed_cmdlatch (s : State) (rest : List HostOp) : (s.hostUsed rest).cmdlatch = s.cmdlatch := rfl
@[simp] theorem hostUsed_n (s : State) (rest : List HostOp) : (s.hostUsed rest).n = s.n := rfl
@[simp] theorem hostUsed_k (s : State) (rest : List HostOp) : (s.hostUsed rest).k = s.k := rfl
@[simp] theorem hostUsed_bmL (s : State) (rest : List HostOp) : (s.hostUsed rest).bmL = s.bmL := rfl
@[simp] theorem hostUsed_bmM (s : State) (rest : List HostOp) : (s.hostUsed rest).bmM = s.bmM := rfl
@[simp] theorem hostUsed_bmB (s : State) (rest : List HostOp) : (s.hostUsed rest).bmB = s.bmB := rfl
@[simp] theorem hostUsed_errmap (s : State) (rest : List HostOp) : (s.hostUsed rest).errmap = s.errmap := rfl
@[simp] theorem hostUsed_nerr (s : State) (rest : List HostOp) : (s.hostUsed rest).nerr = s.nerr := rfl
@[simp] theorem hostUsed_mem (s : State) (rest : List HostOp) : (s.hostUsed rest).mem = s.mem := rfl
@[simp] theorem hostUsed_rst (s : State) (rest : List HostOp) : (s.hostUsed rest).rst = s.rst := rfl
@[simp] theorem hostUsed_program (s : State) (rest : List HostOp) : (s.hostUsed rest).program = rest := rfl
@[simp] theorem hostUsed_schedule (s : State) (rest : List HostOp) : (s.hostUsed rest).schedule = s.schedule.tail := rfl
@[simp] theorem hostUsed_reads (s : State) (rest : List HostOp) : (s.hostUsed rest).reads = s.reads := rfl
@[simp] theorem hostUsed_draws (s : State) (rest : List HostOp) : (s.hostUsed rest).draws = s.draws := rfl
@[simp] theorem hostUsed_status (s : State) (rest : List HostOp) : (s.hostUsed rest).status = s.status := rfl
@[simp] theorem withError_cfg (s : State) (code : BitVec 4) : (s.withError code).cfg = s.cfg := rfl
@[simp] theorem withError_cmdlatch (s : State) (code : BitVec 4) : (s.withError code).cmdlatch = s.cmdlatch := rfl
@[simp] theorem withError_n (s : State) (code : BitVec 4) : (s.withError code).n = s.n := rfl
@[simp] theorem withError_k (s : State) (code : BitVec 4) : (s.withError code).k = s.k := rfl
@[simp] theorem withError_bmL (s : State) (code : BitVec 4) : (s.withError code).bmL = s.bmL := rfl
@[simp] theorem withError_bmM (s : State) (code : BitVec 4) : (s.withError code).bmM = s.bmM := rfl
@[simp] theorem withError_bmB (s : State) (code : BitVec 4) : (s.withError code).bmB = s.bmB := rfl
@[simp] theorem withError_errmap (s : State) (code : BitVec 4) : (s.withError code).errmap = s.errmap := rfl
@[simp] theorem withError_nerr (s : State) (code : BitVec 4) : (s.withError code).nerr = s.nerr := rfl
@[simp] theorem withError_mem (s : State) (code : BitVec 4) : (s.withError code).mem = s.mem := rfl
@[simp] theorem withError_rst (s : State) (code : BitVec 4) : (s.withError code).rst = s.rst := rfl
@[simp] theorem withError_program (s : State) (code : BitVec 4) : (s.withError code).program = s.program := rfl
@[simp] theorem withError_schedule (s : State) (code : BitVec 4) : (s.withError code).schedule = s.schedule := rfl
@[simp] theorem withError_reads (s : State) (code : BitVec 4) : (s.withError code).reads = s.reads := rfl
@[simp] theorem withError_draws (s : State) (code : BitVec 4) : (s.withError code).draws = s.draws := rfl
@[simp] theorem withError_status (s : State) (code : BitVec 4) :
    (s.withError code).status = { s.status with busy := false, done := true, err := code } := rfl
theorem abort_eq_withError (e : Exception) (s : State) : abort e s = s.withError e.code := rfl

end Sys2Proof.Machine
end

