-- ==== Sys2Proof/Laws/Memory.lean ====
section
/-! SUPPORT. The laws of the buffers: a read after a write, what a write leaves alone, and that every write keeps the
canonical form. -/

namespace Sys2Proof.Machine

/-! Bytes. -/

@[simp] theorem readByte_writeByte_same (m : Mem) (a : Nat) (v : Byte) : readByte (writeByte m a v) a = some v := by
  induction m with
  | nil => simp [writeByte, readByte]
  | cons c m ih =>
    obtain ⟨b, w⟩ := c
    by_cases h1 : a < b
    · simp [writeByte, readByte, h1]
    · by_cases h2 : a = b
      · simp [writeByte, readByte, h2]
      · simp [writeByte, readByte, h1, h2, ih]

theorem readByte_writeByte_other (m : Mem) {a a' : Nat} (v : Byte) (h : a' ≠ a) :
    readByte (writeByte m a v) a' = readByte m a' := by
  induction m with
  | nil => simp [writeByte, readByte, h]
  | cons c m ih =>
    obtain ⟨b, w⟩ := c
    by_cases h1 : a < b
    · simp [writeByte, readByte, h1, h]
    · by_cases h2 : a = b
      · subst h2; simp [writeByte, readByte, h]
      · simp [writeByte, readByte, h1, h2, ih]

/-- A write adds at most its own cell. -/
theorem mem_writeByte {m : Mem} {a : Nat} {v : Byte} {c : Host.Cell} (h : c ∈ writeByte m a v) :
    c = (a, v) ∨ c ∈ m := by
  induction m with
  | nil => simpa [writeByte] using h
  | cons d m ih =>
    obtain ⟨b, w⟩ := d
    simp only [writeByte] at h
    split at h
    · simpa using h
    · split at h
      · rcases List.mem_cons.1 h with h | h
        · exact .inl h
        · exact .inr (List.mem_cons_of_mem _ h)
      · rcases List.mem_cons.1 h with h | h
        · exact .inr (h ▸ List.mem_cons_self)
        · exact (ih h).imp_right (List.mem_cons_of_mem _)

/-- A byte write keeps the canonical form. -/
theorem writeByte_wf {m : Mem} (h : m.wf) (a : Nat) (v : Byte) : Mem.wf (writeByte m a v) := by
  induction m with
  | nil => simp [writeByte, Mem.wf]
  | cons c m ih =>
    obtain ⟨b, w⟩ := c
    have ⟨hb, hm⟩ := List.pairwise_cons.1 h
    simp only [writeByte]
    split
    · rename_i hab
      refine List.pairwise_cons.2 ⟨?_, h⟩
      intro d hd
      rcases List.mem_cons.1 hd with rfl | hd
      · exact hab
      · exact lt_trans hab (hb d hd)
    · split
      · rename_i _ hab
        exact List.pairwise_cons.2 ⟨fun d hd => by simpa [hab] using hb d hd, hm⟩
      · rename_i h1 h2
        refine List.pairwise_cons.2 ⟨fun d hd => ?_, ih hm⟩
        rcases mem_writeByte hd with rfl | hd
        · exact lt_of_le_of_ne (not_lt.1 h1) (Ne.symm h2)
        · exact hb d hd

/-! Words. -/

theorem byteLanes_append (w : Word) : byteLane w 3 ++ byteLane w 2 ++ byteLane w 1 ++ byteLane w 0 = w := by
  apply BitVec.eq_of_getLsbD_eq
  intro i hi
  simp only [byteLane, BitVec.getLsbD_append, BitVec.getLsbD_extractLsb']
  split <;> rename_i h0
  · simp [h0]
  · split <;> rename_i h1
    · rw [show 8 * 1 + (i - 8) = i by omega]; simp; omega
    · split <;> rename_i h2
      · rw [show 8 * 2 + (i - 8 - 8) = i by omega]; simp; omega
      · rw [show 8 * 3 + (i - 8 - 8 - 8) = i by omega]; simp; omega

@[simp] theorem readWord_writeWord_same (m : Mem) (a : Nat) (w : Word) : readWord (writeWord m a w) a = some w := by
  have h0 : readByte (writeWord m a w) a = some (byteLane w 0) := by
    simp [writeWord, readByte_writeByte_other]
  have h1 : readByte (writeWord m a w) (a + 1) = some (byteLane w 1) := by
    simp [writeWord, readByte_writeByte_other]
  have h2 : readByte (writeWord m a w) (a + 2) = some (byteLane w 2) := by
    simp [writeWord, readByte_writeByte_other]
  have h3 : readByte (writeWord m a w) (a + 3) = some (byteLane w 3) := by
    simp [writeWord]
  simp only [readWord, h0, h1, h2, h3, byteLanes_append]

theorem readByte_writeWord_lane (m : Mem) (a : Nat) (w : Word) (j : Nat) (h : j < 4) :
    readByte (writeWord m a w) (a + j) = some (byteLane w j) := by
  have : j = 0 ∨ j = 1 ∨ j = 2 ∨ j = 3 := by omega
  rcases this with rfl | rfl | rfl | rfl <;> simp [writeWord, readByte_writeByte_other]

theorem readByte_writeWord_outside (m : Mem) {a a' : Nat} (w : Word) (h : a' < a ∨ a + 4 ≤ a') :
    readByte (writeWord m a w) a' = readByte m a' := by
  unfold writeWord
  rw [readByte_writeByte_other _ _ (by omega), readByte_writeByte_other _ _ (by omega),
    readByte_writeByte_other _ _ (by omega), readByte_writeByte_other _ _ (by omega)]

theorem readWord_writeWord_disjoint (m : Mem) {a a' : Nat} (w : Word) (h : a' + 4 ≤ a ∨ a + 4 ≤ a') :
    readWord (writeWord m a w) a' = readWord m a' := by
  unfold readWord
  rw [readByte_writeWord_outside _ _ (by omega), readByte_writeWord_outside _ _ (by omega),
    readByte_writeWord_outside _ _ (by omega), readByte_writeWord_outside _ _ (by omega)]

/-- A word holds a value exactly when its four lanes do. -/
theorem readWord_eq_some_iff {m : Mem} {a : Nat} :
    (∃ w, readWord m a = some w) ↔ ∀ j, j < 4 → ∃ v, readByte m (a + j) = some v := by
  constructor
  · rintro ⟨w, h⟩ j hj
    unfold readWord at h
    split at h
    · rename_i b0 b1 b2 b3 h0 h1 h2 h3
      have : j = 0 ∨ j = 1 ∨ j = 2 ∨ j = 3 := by omega
      rcases this with rfl | rfl | rfl | rfl
      exacts [⟨_, h0⟩, ⟨_, h1⟩, ⟨_, h2⟩, ⟨_, h3⟩]
    · cases h
  · intro h
    obtain ⟨b0, h0⟩ := h 0 (by omega)
    obtain ⟨b1, h1⟩ := h 1 (by omega)
    obtain ⟨b2, h2⟩ := h 2 (by omega)
    obtain ⟨b3, h3⟩ := h 3 (by omega)
    rw [Nat.add_zero] at h0
    exact ⟨b3 ++ b2 ++ b1 ++ b0, by simp [readWord, h0, h1, h2, h3]⟩

/-- What a word reads as depends on its four lanes alone. -/
theorem readWord_congr {m m' : Mem} {a : Nat} (h : ∀ j, j < 4 → readByte m (a + j) = readByte m' (a + j)) :
    readWord m a = readWord m' a := by
  have h0 := h 0 (by omega)
  rw [Nat.add_zero] at h0
  unfold readWord
  rw [h0, h 1 (by omega), h 2 (by omega), h 3 (by omega)]

theorem writeWord_wf {m : Mem} (h : m.wf) (a : Nat) (w : Word) : Mem.wf (writeWord m a w) :=
  writeByte_wf (writeByte_wf (writeByte_wf (writeByte_wf h _ _) _ _) _ _) _ _

/-- A word write adds at most the cells of its own four lanes. -/
theorem mem_writeWord {m : Mem} {a : Nat} {w : Word} {c : Host.Cell} (h : c ∈ writeWord m a w) :
    (∃ j, j < 4 ∧ c.1 = a + j) ∨ c ∈ m := by
  unfold writeWord at h
  rcases mem_writeByte h with rfl | h
  · exact .inl ⟨3, by omega, rfl⟩
  rcases mem_writeByte h with rfl | h
  · exact .inl ⟨2, by omega, rfl⟩
  rcases mem_writeByte h with rfl | h
  · exact .inl ⟨1, by omega, rfl⟩
  rcases mem_writeByte h with rfl | h
  · exact .inl ⟨0, by omega, rfl⟩
  exact .inr h

/-! Elements. -/

theorem Buf.base_eq (b : Buf) : ∃ k, 1 ≤ k ∧ k ≤ 8 ∧ b.base = 0x1000 * k := by
  cases b
  exacts [⟨1, by decide⟩, ⟨2, by decide⟩, ⟨3, by decide⟩, ⟨4, by decide⟩, ⟨5, by decide⟩, ⟨6, by decide⟩,
    ⟨7, by decide⟩, ⟨8, by decide⟩]

theorem Buf.base_injective {b b' : Buf} (h : b.base = b'.base) : b = b' := by
  cases b <;> cases b' <;> first | rfl | (exact absurd h (by decide))

/-- Different elements within their windows lie apart. -/
theorem elemAddr_disjoint {b b' : Buf} {i i' : Nat} (hi : i < 1024) (hi' : i' < 1024) (h : b ≠ b' ∨ i ≠ i') :
    elemAddr b i + 4 ≤ elemAddr b' i' ∨ elemAddr b' i' + 4 ≤ elemAddr b i := by
  obtain ⟨k, -, -, hk⟩ := Buf.base_eq b
  obtain ⟨k', -, -, hk'⟩ := Buf.base_eq b'
  have hne : b.base ≠ b'.base ∨ i ≠ i' := h.imp_left fun hb hc => hb (Buf.base_injective hc)
  unfold elemAddr
  omega

@[simp] theorem elem_setElem_same (s : State) (b : Buf) (i v : Nat) :
    (s.setElem b i v).elem b i = some (elemWord s.cfg.field v) := by
  simp [State.elem, writeElem]

theorem elem_setElem_other (s : State) {b b' : Buf} {i i' : Nat} (v : Nat) (hi : i < 1024) (hi' : i' < 1024)
    (h : b' ≠ b ∨ i' ≠ i) : (s.setElem b i v).elem b' i' = s.elem b' i' := by
  simp only [State.elem, setElem_mem, writeElem]
  exact readWord_writeWord_disjoint _ _ (elemAddr_disjoint hi' hi h)

theorem readByte_writeElemsFrom_outside (F : FieldDesc) (b : Buf) (vs : List Nat) : ∀ (m : Mem) (i : Nat) {a : Nat},
    a < elemAddr b i ∨ elemAddr b (i + vs.length) ≤ a → readByte (writeElemsFrom F m b i vs) a = readByte m a := by
  induction vs with
  | nil => intro m i a _; rfl
  | cons v vs ih =>
    intro m i a h
    simp only [List.length_cons, elemAddr] at h
    rw [writeElemsFrom, ih _ _ (by simp only [elemAddr]; omega), writeElem]
    exact readByte_writeWord_outside _ _ (by simp only [elemAddr]; omega)

theorem readWord_writeElemsFrom_outside (F : FieldDesc) (b : Buf) (vs : List Nat) (m : Mem) (i : Nat) {a : Nat}
    (h : a + 4 ≤ elemAddr b i ∨ elemAddr b (i + vs.length) ≤ a) :
    readWord (writeElemsFrom F m b i vs) a = readWord m a :=
  readWord_congr fun j hj => readByte_writeElemsFrom_outside F b vs m i (by omega)

theorem readWord_writeElemsFrom_same (F : FieldDesc) (b : Buf) (vs : List Nat) : ∀ (m : Mem) (i j : Nat),
    j < vs.length → readWord (writeElemsFrom F m b i vs) (elemAddr b (i + j)) = some (elemWord F (vs.getD j 0)) := by
  induction vs with
  | nil => intro m i j h; simp at h
  | cons v vs ih =>
    intro m i j h
    rw [writeElemsFrom]
    cases j with
    | zero =>
      rw [readWord_writeElemsFrom_outside F b vs _ _ (by simp only [elemAddr]; omega)]
      simp [writeElem]
    | succ j =>
      have := ih (writeElem F m b i v) (i + 1) j (by simpa using h)
      rw [show i + 1 + j = i + (j + 1) by omega] at this
      simpa using this

theorem writeElemsFrom_wf (F : FieldDesc) (b : Buf) (vs : List Nat) : ∀ (m : Mem) (i : Nat), m.wf →
    Mem.wf (writeElemsFrom F m b i vs) := by
  induction vs with
  | nil => intro m i h; exact h
  | cons v vs ih => intro m i h; exact ih _ _ (writeWord_wf h _ _)

/-- Writing elements adds at most the cells of those elements. -/
theorem mem_writeElemsFrom (F : FieldDesc) (b : Buf) (vs : List Nat) : ∀ (m : Mem) (i : Nat) {c : Host.Cell},
    c ∈ writeElemsFrom F m b i vs → (∃ k j, i ≤ k ∧ k < i + vs.length ∧ j < 4 ∧ c.1 = elemAddr b k + j) ∨ c ∈ m := by
  induction vs with
  | nil => intro m i c h; exact .inr h
  | cons v vs ih =>
    intro m i c h
    rcases ih _ _ h with ⟨k, j, h1, h2, h3, h4⟩ | h
    · exact .inl ⟨k, j, by omega, by simp only [List.length_cons]; omega, h3, h4⟩
    · rcases mem_writeWord h with ⟨j, hj, hc⟩ | h
      · exact .inl ⟨i, j, le_refl _, by simp, hj, hc⟩
      · exact .inr h

theorem elem_setElems_same (s : State) (b : Buf) (vs : List Nat) {j : Nat} (h : j < vs.length) :
    (s.setElems b vs).elem b j = some (elemWord s.cfg.field (vs.getD j 0)) := by
  have := readWord_writeElemsFrom_same s.cfg.field b vs s.mem 0 j h
  rw [Nat.zero_add] at this
  exact this

theorem elem_setElems_beyond (s : State) (b : Buf) (vs : List Nat) {j : Nat} (h : vs.length ≤ j) :
    (s.setElems b vs).elem b j = s.elem b j :=
  readWord_writeElemsFrom_outside _ _ _ _ _ (.inr (by simp only [elemAddr, Nat.zero_add]; omega))

theorem elem_setElems_other (s : State) {b b' : Buf} (vs : List Nat) {j : Nat} (hb : b' ≠ b) (hj : j < 1024)
    (hl : vs.length ≤ 1024) : (s.setElems b vs).elem b' j = s.elem b' j := by
  refine readWord_writeElemsFrom_outside _ _ _ _ _ ?_
  obtain ⟨k, -, -, hk⟩ := Buf.base_eq b
  obtain ⟨k', -, -, hk'⟩ := Buf.base_eq b'
  have hne : b.base ≠ b'.base := fun hc => hb (Buf.base_injective hc.symm)
  simp only [elemAddr, Nat.zero_add]
  omega

/-- Writing `BUF[0..len-1]` leaves every byte outside it as it was. -/
theorem readByte_setElems_outside (s : State) (b : Buf) (vs : List Nat) {a : Nat} (h : ¬ lanesOf b vs.length a) :
    readByte (s.setElems b vs).mem a = readByte s.mem a := by
  refine readByte_writeElemsFrom_outside _ _ _ _ _ ?_
  rw [Nat.zero_add]
  unfold lanesOf at h
  omega

theorem setElems_wf (s : State) (b : Buf) (vs : List Nat) (h : s.mem.wf) : (s.setElems b vs).mem.wf :=
  writeElemsFrom_wf _ _ _ _ _ h

theorem setElem_wf (s : State) (b : Buf) (i v : Nat) (h : s.mem.wf) : (s.setElem b i v).mem.wf := writeWord_wf h _ _

/-- An element is one buffer's contents: only `mem` matters. -/
theorem elem_congr {s t : State} (h : s.mem = t.mem) (b : Buf) (i : Nat) : s.elem b i = t.elem b i := by
  simp [State.elem, h]

/-! What an element stores. -/

/-- EW bits hold every code (R7). -/
theorem size_le_pow_ew (F : FieldDesc) (h : F.size ≤ 2 ^ 32) : F.size ≤ 2 ^ F.ew := by
  unfold FieldDesc.ew
  obtain ⟨e, he⟩ : ∃ e, (List.range 33).find? (fun e => decide (F.size ≤ 2 ^ e)) = some e := by
    rw [← Option.isSome_iff_exists, List.find?_isSome]
    exact ⟨32, by simp, by simpa using h⟩
  rw [he]
  have := List.find?_some he
  simp only [decide_eq_true_eq] at this
  exact this.trans (Nat.pow_le_pow_right (by omega) (by simp))

theorem ew_le (F : FieldDesc) : F.ew ≤ 32 := by
  unfold FieldDesc.ew
  cases he : (List.range 33).find? (fun e => decide (F.size ≤ 2 ^ e)) with
  | none => simp
  | some e =>
    have := List.mem_of_find?_eq_some he
    simp only [List.mem_range] at this
    simp; omega

/-- A canonical code is stored unchanged. -/
theorem elemWord_canonical {F : FieldDesc} {v : Nat} (hF : F.size ≤ 2 ^ 32 - 1) (hv : v < F.size) :
    elemWord F v = BitVec.ofNat 32 v := by
  have := size_le_pow_ew F (by omega)
  rw [elemWord, Nat.mod_eq_of_lt (by omega)]

theorem elemWord_toNat_lt (F : FieldDesc) (v : Nat) : (elemWord F v).toNat < 2 ^ F.ew := by
  have h1 : v % 2 ^ F.ew < 2 ^ F.ew := Nat.mod_lt _ (by positivity)
  have h2 : (2 : Nat) ^ F.ew ≤ 2 ^ 32 := Nat.pow_le_pow_right (by omega) (ew_le F)
  simp only [elemWord, BitVec.toNat_ofNat]
  rw [Nat.mod_eq_of_lt (by omega)]
  exact h1

theorem toNat_ofNat_code {F : FieldDesc} {v : Nat} (hF : F.size ≤ 2 ^ 32 - 1) (hv : v < F.size) :
    (BitVec.ofNat 32 v).toNat = v := by
  rw [BitVec.toNat_ofNat, Nat.mod_eq_of_lt (by omega)]

/-- Canonical codes written to `BUF[0..len-1]` are held there. -/
theorem codes_setElems (s : State) (b : Buf) (vs : List Nat) (hF : s.cfg.field.size ≤ 2 ^ 32 - 1)
    (hv : ∀ v ∈ vs, v < s.cfg.field.size) : (s.setElems b vs).Codes b vs := by
  intro i hi
  rw [elem_setElems_same s b vs hi, elemWord_canonical hF (hv _ ?_)]
  rw [List.getD_eq_getElem _ _ hi]
  exact List.getElem_mem _

/-- Codes of another buffer stay. -/
theorem codes_setElems_other {s : State} {b b' : Buf} {vs ws : List Nat} (h : s.Codes b' ws) (hb : b' ≠ b)
    (hw : ws.length ≤ 1024) (hl : vs.length ≤ 1024) : (s.setElems b vs).Codes b' ws := by
  intro i hi
  rw [elem_setElems_other s vs hb (by omega) hl]
  exact h i hi

/-! The bitmap. -/

theorem getLsbD_bitmapFold (ps : List Nat) : ∀ (m : BitVec 1024) (i : Nat),
    (ps.foldl (fun m i => m ||| BitVec.twoPow 1024 i) m).getLsbD i =
      (m.getLsbD i || (decide (i < 1024) && decide (i ∈ ps))) := by
  induction ps with
  | nil => intro m i; simp
  | cons p ps ih =>
    intro m i
    simp only [List.foldl_cons, ih, BitVec.getLsbD_or, BitVec.getLsbD_twoPow, List.mem_cons, Bool.decide_or]
    by_cases h1 : i < 1024
    · by_cases h2 : i = p
      · subst h2; simp [h1]
      · simp [h1, h2, Ne.symm h2]
    · have hm : m.getLsbD i = false := BitVec.getLsbD_of_ge _ _ (by omega)
      by_cases h2 : p = i
      · subst h2; simp [h1, hm]
      · simp [h1, h2]

/-- Bit `i` of a bitmap says whether position `i` is in the set. -/
theorem getLsbD_bitmapOf (ps : List Nat) {i : Nat} (h : i < 1024) : (bitmapOf ps).getLsbD i = decide (i ∈ ps) := by
  rw [bitmapOf, getLsbD_bitmapFold]; simp [h]

theorem errBit_setErrors (s : State) (ps : List Nat) {i : Nat} (h : i < 1024) :
    (s.setErrors ps).errBit i = decide (i ∈ ps) := getLsbD_bitmapOf ps h

end Sys2Proof.Machine
end

