-- ==== Sys2Proof/Laws/Operands.lean ====
section
/-! SUPPORT. What the operand checks can do, and what sequencing and completion make of it: the specification lemmas of
`andThen`, `checkGeometry`, `readCanonical`, `readElems` and `complete`. -/

namespace Sys2Proof.Machine

/-! Sequencing. -/

@[simp] theorem andThen_ok (a : α) (f : α → Attempt β) : (Attempt.ok a).andThen f = f a := rfl
@[simp] theorem andThen_raised (e : Exception) (f : α → Attempt β) : (Attempt.raised e).andThen f = .raised e := rfl
@[simp] theorem andThen_faulted (g : Fault) (f : α → Attempt β) : (Attempt.faulted g).andThen f = .faulted g := rfl

theorem andThen_eq_ok {x : Attempt α} {f : α → Attempt β} {b : β} (h : x.andThen f = .ok b) :
    ∃ a, x = .ok a ∧ f a = .ok b := by
  cases x with
  | ok a => exact ⟨a, rfl, h⟩
  | raised e => cases h
  | faulted g => cases h

theorem andThen_eq_raised {x : Attempt α} {f : α → Attempt β} {e : Exception} (h : x.andThen f = .raised e) :
    x = .raised e ∨ ∃ a, x = .ok a ∧ f a = .raised e := by
  cases x with
  | ok a => exact .inr ⟨a, rfl, h⟩
  | raised e' => cases h; exact .inl rfl
  | faulted g => cases h

theorem andThen_eq_faulted {x : Attempt α} {f : α → Attempt β} {g : Fault} (h : x.andThen f = .faulted g) :
    x = .faulted g ∨ ∃ a, x = .ok a ∧ f a = .faulted g := by
  cases x with
  | ok a => exact .inr ⟨a, rfl, h⟩
  | raised e => cases h
  | faulted g' => cases h; exact .inl rfl

@[simp] theorem orDivisionByZero_some (a : α) : orDivisionByZero (some a) = .ok a := rfl
@[simp] theorem orDivisionByZero_none : orDivisionByZero (none : Option α) = .raised .divisionByZero := rfl

theorem orDivisionByZero_eq_ok {x : Option α} {a : α} (h : orDivisionByZero x = .ok a) : x = some a := by
  cases x with
  | none => cases h
  | some b => cases h; rfl

theorem orDivisionByZero_eq_raised {x : Option α} {e : Exception} (h : orDivisionByZero x = .raised e) :
    x = none ∧ e = .divisionByZero := by
  cases x with
  | none => cases h; exact ⟨rfl, rfl⟩
  | some b => cases h

theorem orDivisionByZero_ne_faulted {x : Option α} {g : Fault} : orDivisionByZero x ≠ .faulted g := by
  cases x <;> simp [orDivisionByZero]

/-! The geometry check (R255). -/

theorem checkGeometry_ok {s : State} (h : s.GeometryOk) : s.checkGeometry = .ok () := by
  unfold State.GeometryOk at h
  simp [State.checkGeometry, h]

theorem checkGeometry_raised {s : State} (h : ¬ s.GeometryOk) : s.checkGeometry = .raised .lengthMismatch := by
  unfold State.GeometryOk at h
  simp only [State.checkGeometry, if_neg h]

theorem checkGeometry_eq_ok {s : State} {u : Unit} (h : s.checkGeometry = .ok u) : s.GeometryOk := by
  by_contra hc
  rw [checkGeometry_raised hc] at h
  cases h

theorem checkGeometry_ne_faulted {s : State} {g : Fault} : s.checkGeometry ≠ .faulted g := by
  unfold State.checkGeometry
  split <;> simp

theorem checkGeometry_eq_raised {s : State} {e : Exception} (h : s.checkGeometry = .raised e) :
    ¬ s.GeometryOk ∧ e = .lengthMismatch := by
  by_cases hg : s.GeometryOk
  · rw [checkGeometry_ok hg] at h; cases h
  · rw [checkGeometry_raised hg] at h; cases h; exact ⟨hg, rfl⟩

/-! The canonical-operand check (R256). -/

theorem readCanonicalFrom_of_codes {s : State} (hF : s.cfg.field.size ≤ 2 ^ 32 - 1) {b : Buf} :
    ∀ (vs : List Nat) (i : Nat),
      (∀ j, j < vs.length → s.elem b (i + j) = some (BitVec.ofNat 32 (vs.getD j 0))) →
      (∀ v ∈ vs, v < s.cfg.field.size) → s.readCanonicalFrom b i vs.length = .ok vs := by
  intro vs
  induction vs with
  | nil => intro i _ _; rfl
  | cons v vs ih =>
    intro i h hv
    have h0 : s.elem b i = some (BitVec.ofNat 32 v) := by simpa using h 0 (by simp)
    have hvlt : v < s.cfg.field.size := hv v (by simp)
    have hrest := ih (i + 1) (fun j hj => by
      have := h (j + 1) (by simpa using hj)
      rw [show i + 1 + j = i + (j + 1) by omega]; simpa using this) (fun w hw => hv w (by simp [hw]))
    simp only [List.length_cons, State.readCanonicalFrom, h0, toNat_ofNat_code hF hvlt]
    rw [if_neg (by omega), hrest]
    rfl

theorem readCanonicalFrom_eq_ok {s : State} {b : Buf} : ∀ (len i : Nat) {vs : List Nat},
    s.readCanonicalFrom b i len = .ok vs →
      vs.length = len ∧ (∀ j, j < len → s.elem b (i + j) = some (BitVec.ofNat 32 (vs.getD j 0))) ∧
      ∀ v ∈ vs, v < s.cfg.field.size := by
  intro len
  induction len with
  | zero => intro i vs h; cases h; simp
  | succ len ih =>
    intro i vs h
    rw [State.readCanonicalFrom] at h
    split at h
    · cases h
    · rename_i w hw
      split at h
      · cases h
      · rename_i hlt
        obtain ⟨ws, h1, h2⟩ := andThen_eq_ok h
        obtain ⟨k1, k2, k3⟩ := ih (i + 1) h1
        cases h2
        refine ⟨by simp [k1], ?_, ?_⟩
        · intro j hj
          cases j with
          | zero => simpa using hw
          | succ j =>
            have := k2 j (by omega)
            rw [show i + (j + 1) = i + 1 + j by omega]; simpa using this
        · intro v hv
          rcases List.mem_cons.1 hv with rfl | hv
          · exact not_le.1 hlt
          · exact k3 v hv

/-- The operand check succeeds on a readable operand range, and gives its codes. -/
theorem readCanonical_ok {s : State} {b : Buf} {len : Nat} {vs : List Nat} (hF : s.cfg.field.size ≤ 2 ^ 32 - 1)
    (h : s.Operand b len vs) : s.readCanonical b len = .ok vs := by
  obtain ⟨h1, h2, h3⟩ := h
  subst h1
  exact readCanonicalFrom_of_codes hF vs 0 (fun j hj => by simpa using h2 j hj) h3

/-- If the operand check succeeds, the range is readable and the codes are those it holds. -/
theorem readCanonical_eq_ok {s : State} {b : Buf} {len : Nat} {vs : List Nat} (h : s.readCanonical b len = .ok vs) :
    s.Operand b len vs := by
  obtain ⟨h1, h2, h3⟩ := readCanonicalFrom_eq_ok len 0 h
  exact ⟨h1, fun i hi => by simpa using h2 i (h1 ▸ hi), h3⟩

theorem readCanonicalFrom_eq_raised {s : State} {b : Buf} {e : Exception} : ∀ (len i : Nat),
    s.readCanonicalFrom b i len = .raised e →
      e = .rangeError ∧ ∃ j w, j < len ∧ s.elem b (i + j) = some w ∧ s.cfg.field.size ≤ w.toNat := by
  intro len
  induction len with
  | zero => intro i h; cases h
  | succ len ih =>
    intro i h
    rw [State.readCanonicalFrom] at h
    split at h
    · cases h
    · rename_i w hw
      split at h
      · rename_i hle; cases h; exact ⟨rfl, 0, w, by omega, by simpa using hw, hle⟩
      · rcases andThen_eq_raised h with h | ⟨_, -, h⟩
        · obtain ⟨h1, j, w, h2, h3, h4⟩ := ih _ h
          exact ⟨h1, j + 1, w, by omega, by rw [show i + (j + 1) = i + 1 + j by omega]; exact h3, h4⟩
        · cases h

/-- The operand check raises only RangeError, and only for a non-canonical element of the range. -/
theorem readCanonical_eq_raised {s : State} {b : Buf} {len : Nat} {e : Exception}
    (h : s.readCanonical b len = .raised e) :
    e = .rangeError ∧ ∃ j w, j < len ∧ s.elem b j = some w ∧ s.cfg.field.size ≤ w.toNat := by
  obtain ⟨h1, j, w, h2, h3, h4⟩ := readCanonicalFrom_eq_raised len 0 h
  exact ⟨h1, j, w, h2, by simpa using h3, h4⟩

theorem readCanonicalFrom_eq_faulted {s : State} {b : Buf} {g : Fault} : ∀ (len i : Nat),
    s.readCanonicalFrom b i len = .faulted g →
      ∃ j, j < len ∧ s.elem b (i + j) = none ∧ g = .unwrittenElement b (i + j) := by
  intro len
  induction len with
  | zero => intro i h; cases h
  | succ len ih =>
    intro i h
    rw [State.readCanonicalFrom] at h
    split at h
    · rename_i hw; cases h; exact ⟨0, by omega, by simpa using hw, rfl⟩
    · split at h
      · cases h
      · rcases andThen_eq_faulted h with h | ⟨_, -, h⟩
        · obtain ⟨j, h2, h3, h4⟩ := ih _ h
          rw [show i + 1 + j = i + (j + 1) by omega] at h3 h4
          exact ⟨j + 1, by omega, h3, h4⟩
        · cases h

/-- The operand check faults only at an element of the range that holds no value. -/
theorem readCanonical_eq_faulted {s : State} {b : Buf} {len : Nat} {g : Fault}
    (h : s.readCanonical b len = .faulted g) : ∃ j, j < len ∧ s.elem b j = none ∧ g = .unwrittenElement b j := by
  obtain ⟨j, h1, h2, h3⟩ := readCanonicalFrom_eq_faulted len 0 h
  rw [Nat.zero_add] at h2 h3
  exact ⟨j, h1, h2, h3⟩

theorem readElemsFrom_of_codes {s : State} {b : Buf} : ∀ (vs : List Nat) (i : Nat),
    (∀ j, j < vs.length → s.elem b (i + j) = some (BitVec.ofNat 32 (vs.getD j 0))) →
    (∀ v ∈ vs, v < 2 ^ 32) → s.readElemsFrom b i vs.length = .ok vs := by
  intro vs
  induction vs with
  | nil => intro i _ _; rfl
  | cons v vs ih =>
    intro i h hv
    have h0 : s.elem b i = some (BitVec.ofNat 32 v) := by simpa using h 0 (by simp)
    have hvlt : v < 2 ^ 32 := hv v (by simp)
    have hrest := ih (i + 1) (fun j hj => by
      have := h (j + 1) (by simpa using hj)
      rw [show i + 1 + j = i + (j + 1) by omega]; simpa using this) (fun w hw => hv w (by simp [hw]))
    simp only [List.length_cons, State.readElemsFrom, h0, hrest, andThen_ok, BitVec.toNat_ofNat,
      Nat.mod_eq_of_lt hvlt]

/-- Reading elements that hold 32-bit codes gives the codes. -/
theorem readElems_ok {s : State} {b : Buf} {len : Nat} {vs : List Nat} (hl : vs.length = len) (h : s.Codes b vs)
    (hv : ∀ v ∈ vs, v < 2 ^ 32) : s.readElems b len = .ok vs := by
  subst hl
  exact readElemsFrom_of_codes vs 0 (fun j hj => by simpa using h j hj) hv

theorem readElemsFrom_eq_ok {s : State} {b : Buf} : ∀ (len i : Nat) {vs : List Nat},
    s.readElemsFrom b i len = .ok vs →
      vs.length = len ∧ (∀ j, j < len → s.elem b (i + j) = some (BitVec.ofNat 32 (vs.getD j 0))) ∧
        ∀ v ∈ vs, v < 2 ^ 32 := by
  intro len
  induction len with
  | zero => intro i vs h; cases h; simp
  | succ len ih =>
    intro i vs h
    rw [State.readElemsFrom] at h
    split at h
    · cases h
    · rename_i w hw
      obtain ⟨ws, h1, h2⟩ := andThen_eq_ok h
      obtain ⟨k1, k2, k3⟩ := ih (i + 1) h1
      cases h2
      refine ⟨by simp [k1], ?_, by simpa using ⟨w.isLt, k3⟩⟩
      intro j hj
      cases j with
      | zero => simpa using hw
      | succ j =>
        have := k2 j (by omega)
        rw [show i + (j + 1) = i + 1 + j by omega]; simpa using this

theorem readElems_eq_ok {s : State} {b : Buf} {len : Nat} {vs : List Nat} (h : s.readElems b len = .ok vs) :
    vs.length = len ∧ s.Codes b vs ∧ ∀ v ∈ vs, v < 2 ^ 32 := by
  obtain ⟨h1, h2, h3⟩ := readElemsFrom_eq_ok len 0 h
  exact ⟨h1, fun i hi => by simpa using h2 i (h1 ▸ hi), h3⟩

theorem readElemsFrom_ne_raised {s : State} {b : Buf} {e : Exception} : ∀ (len i : Nat),
    s.readElemsFrom b i len ≠ .raised e := by
  intro len
  induction len with
  | zero => intro i h; cases h
  | succ len ih =>
    intro i h
    rw [State.readElemsFrom] at h
    split at h
    · cases h
    · rcases andThen_eq_raised h with h | ⟨_, -, h⟩
      · exact ih _ h
      · cases h

theorem readElems_ne_raised {s : State} {b : Buf} {len : Nat} {e : Exception} : s.readElems b len ≠ .raised e :=
  readElemsFrom_ne_raised len 0

/-- What a buffer's element reads as depends on `mem` alone, and so do the codes it holds. -/
theorem codes_congr {s t : State} (h : s.mem = t.mem) {b : Buf} {vs : List Nat} : s.Codes b vs ↔ t.Codes b vs := by
  simp only [State.Codes, elem_congr h]

theorem operand_congr {s t : State} (h : s.mem = t.mem) (hc : s.cfg = t.cfg) {b : Buf} {len : Nat} {vs : List Nat} :
    s.Operand b len vs ↔ t.Operand b len vs := by
  simp only [State.Operand, codes_congr h, hc]

/-! The two ends of a command (R240, R252). -/

@[simp] theorem complete_ok (s t : State) : complete s (.ok t) = .next (finish t) := rfl
@[simp] theorem complete_raised (s : State) (e : Exception) : complete s (.raised e) = .next (abort e s) := rfl
@[simp] theorem complete_faulted (s : State) (f : Fault) : complete s (.faulted f) = .fault f := rfl

/-- If a command ends in a next state, it committed or it aborted. -/
theorem complete_eq_next {s t : State} {r : Attempt State} (h : complete s r = .next t) :
    (∃ u, r = .ok u ∧ t = finish u) ∨ ∃ e, r = .raised e ∧ t = abort e s := by
  cases r with
  | ok u => cases h; exact .inl ⟨u, rfl, rfl⟩
  | raised e => cases h; exact .inr ⟨e, rfl, rfl⟩
  | faulted f => cases h

theorem complete_eq_fault {s : State} {r : Attempt State} {f : Fault} (h : complete s r = .fault f) :
    r = .faulted f := by
  cases r <;> cases h
  rfl

theorem complete_ne_refused {s : State} {r : Attempt State} {x : Refusal} : complete s r ≠ .refused x := by
  cases r <;> simp

end Sys2Proof.Machine
end

