-- ==== Sys2Proof/Laws/Exec.lean ====
section
/-! SUPPORT. What each command can do, said once: if its rule computes a commit, these operands were readable and this is the
state committed; and how a command ends. -/

namespace Sys2Proof.Machine

/-! Commits, command by command. -/

theorem runEncode_eq_ok {s t : State} (h : runEncode s = .ok t) : s.GeometryOk ∧ ∃ msg points,
    s.Operand .msg s.dim msg ∧ s.Operand .alpha s.len points ∧
    t = s.setElems .cw (encodeMessage s.cfg.field msg points) := by
  obtain ⟨_, h0, h⟩ := andThen_eq_ok h
  obtain ⟨msg, h1, h⟩ := andThen_eq_ok h
  obtain ⟨points, h2, h⟩ := andThen_eq_ok h
  cases h
  exact ⟨checkGeometry_eq_ok h0, msg, points, readCanonical_eq_ok h1, readCanonical_eq_ok h2, rfl⟩

theorem runEncode_ok {s : State} (hF : s.cfg.field.size ≤ 2 ^ 32 - 1) (hg : s.GeometryOk) {msg points : List Nat}
    (h1 : s.Operand .msg s.dim msg) (h2 : s.Operand .alpha s.len points) :
    runEncode s = .ok (s.setElems .cw (encodeMessage s.cfg.field msg points)) := by
  simp [runEncode, checkGeometry_ok hg, readCanonical_ok hF h1, readCanonical_ok hF h2]

theorem runWeights_eq_ok {s t : State} (h : runWeights s = .ok t) : s.GeometryOk ∧ ∃ points w,
    s.Operand .alpha s.len points ∧ s.cfg.field.wfn points = some w ∧ t = s.commitWeights w := by
  obtain ⟨_, h0, h⟩ := andThen_eq_ok h
  obtain ⟨points, h1, h⟩ := andThen_eq_ok h
  obtain ⟨w, h2, h⟩ := andThen_eq_ok h
  cases h
  exact ⟨checkGeometry_eq_ok h0, points, w, readCanonical_eq_ok h1, orDivisionByZero_eq_ok h2, rfl⟩

theorem runWeights_ok {s : State} (hF : s.cfg.field.size ≤ 2 ^ 32 - 1) (hg : s.GeometryOk) {points w : List Nat}
    (h1 : s.Operand .alpha s.len points) (h2 : s.cfg.field.wfn points = some w) :
    runWeights s = .ok (s.commitWeights w) := by
  simp [runWeights, checkGeometry_ok hg, readCanonical_ok hF h1, h2]

/-- Where the weights in use come from (R168). -/
theorem weightsForUse_eq_ok {s : State} {points : List Nat} {wc : List Nat × Bool}
    (h : s.weightsForUse points = .ok wc) :
    (s.status.wValid = true ∧ wc.2 = false ∧ wc.1.length = s.len ∧ s.Codes .w wc.1 ∧ ∀ v ∈ wc.1, v < 2 ^ 32) ∨
    (s.status.wValid = false ∧ wc.2 = true ∧ s.cfg.field.wfn points = some wc.1) := by
  unfold State.weightsForUse at h
  split at h
  · rename_i hv
    obtain ⟨w, h1, h2⟩ := andThen_eq_ok h
    cases h2
    exact .inl ⟨hv, rfl, readElems_eq_ok h1⟩
  · rename_i hv
    obtain ⟨w, h1, h2⟩ := andThen_eq_ok h
    cases h2
    exact .inr ⟨by simpa using hv, rfl, orDivisionByZero_eq_ok h1⟩

theorem weightsForUse_cached {s : State} {points w : List Nat} (hv : s.status.wValid = true) (hl : w.length = s.len)
    (hw : s.Codes .w w) (h32 : ∀ v ∈ w, v < 2 ^ 32) : s.weightsForUse points = .ok (w, false) := by
  simp [State.weightsForUse, hv, readElems_ok hl hw h32]

theorem weightsForUse_fresh {s : State} {points w : List Nat} (hv : s.status.wValid = false)
    (hw : s.cfg.field.wfn points = some w) : s.weightsForUse points = .ok (w, true) := by
  simp [State.weightsForUse, hv, hw]

theorem runSyndrome_eq_ok {s t : State} (h : runSyndrome s = .ok t) : s.GeometryOk ∧ ∃ r points wc,
    s.Operand .cw s.len r ∧ s.Operand .alpha s.len points ∧ s.weightsForUse points = .ok wc ∧
    t = (s.commitIfComputed wc).setElems .s (s.cfg.field.sfn r points wc.1 (s.len - s.dim)) := by
  obtain ⟨_, h0, h⟩ := andThen_eq_ok h
  obtain ⟨r, h1, h⟩ := andThen_eq_ok h
  obtain ⟨points, h2, h⟩ := andThen_eq_ok h
  obtain ⟨wc, h3, h⟩ := andThen_eq_ok h
  cases h
  exact ⟨checkGeometry_eq_ok h0, r, points, wc, readCanonical_eq_ok h1, readCanonical_eq_ok h2, h3, rfl⟩

theorem runSyndrome_ok {s : State} (hF : s.cfg.field.size ≤ 2 ^ 32 - 1) (hg : s.GeometryOk) {r points : List Nat}
    {wc : List Nat × Bool} (h1 : s.Operand .cw s.len r) (h2 : s.Operand .alpha s.len points)
    (h3 : s.weightsForUse points = .ok wc) :
    runSyndrome s =
      .ok ((s.commitIfComputed wc).setElems .s (s.cfg.field.sfn r points wc.1 (s.len - s.dim))) := by
  simp [runSyndrome, checkGeometry_ok hg, readCanonical_ok hF h1, readCanonical_ok hF h2, h3]

theorem runBmsyn_eq_ok {s t : State} (h : runBmsyn s = .ok t) : s.GeometryOk ∧ ∃ syn st,
    s.Operand .s (s.len - s.dim) syn ∧ s.cfg.field.bm syn = some st ∧ t = s.commitSynth st := by
  obtain ⟨_, h0, h⟩ := andThen_eq_ok h
  obtain ⟨syn, h1, h⟩ := andThen_eq_ok h
  obtain ⟨st, h2, h⟩ := andThen_eq_ok h
  cases h
  exact ⟨checkGeometry_eq_ok h0, syn, st, readCanonical_eq_ok h1, orDivisionByZero_eq_ok h2, rfl⟩

theorem runBmsyn_ok {s : State} (hF : s.cfg.field.size ≤ 2 ^ 32 - 1) (hg : s.GeometryOk) {syn : List Nat}
    {st : SynthState} (h1 : s.Operand .s (s.len - s.dim) syn) (h2 : s.cfg.field.bm syn = some st) :
    runBmsyn s = .ok (s.commitSynth st) := by
  simp [runBmsyn, checkGeometry_ok hg, readCanonical_ok hF h1, h2]

theorem runRoots_eq_ok {s t : State} (h : runRoots s = .ok t) : s.GeometryOk ∧ ∃ points lam,
    s.Operand .alpha s.len points ∧ s.Operand .lambda (s.len - s.dim + 1) lam ∧
    t = s.setErrors (s.cfg.field.errorPositions s.cfg.nmax s.len points lam) := by
  obtain ⟨_, h0, h⟩ := andThen_eq_ok h
  obtain ⟨points, h1, h⟩ := andThen_eq_ok h
  obtain ⟨lam, h2, h⟩ := andThen_eq_ok h
  cases h
  exact ⟨checkGeometry_eq_ok h0, points, lam, readCanonical_eq_ok h1, readCanonical_eq_ok h2, rfl⟩

theorem runRoots_ok {s : State} (hF : s.cfg.field.size ≤ 2 ^ 32 - 1) (hg : s.GeometryOk) {points lam : List Nat}
    (h1 : s.Operand .alpha s.len points) (h2 : s.Operand .lambda (s.len - s.dim + 1) lam) :
    runRoots s = .ok (s.setErrors (s.cfg.field.errorPositions s.cfg.nmax s.len points lam)) := by
  simp [runRoots, checkGeometry_ok hg, readCanonical_ok hF h1, readCanonical_ok hF h2]

theorem runRecover_eq_ok {s t : State} (h : runRecover s = .ok t) : s.GeometryOk ∧ ∃ points r res,
    s.Operand .alpha s.len points ∧ s.Operand .cw s.len r ∧ s.cfg.field.rfn s.errBit points r s.dim = some res ∧
    t = s.commitRecovery res := by
  obtain ⟨_, h0, h⟩ := andThen_eq_ok h
  obtain ⟨points, h1, h⟩ := andThen_eq_ok h
  obtain ⟨r, h2, h⟩ := andThen_eq_ok h
  obtain ⟨res, h3, h⟩ := andThen_eq_ok h
  cases h
  exact ⟨checkGeometry_eq_ok h0, points, r, res, readCanonical_eq_ok h1, readCanonical_eq_ok h2,
    orDivisionByZero_eq_ok h3, rfl⟩

theorem runRecover_ok {s : State} (hF : s.cfg.field.size ≤ 2 ^ 32 - 1) (hg : s.GeometryOk) {points r : List Nat}
    {res : List Nat × Bool} (h1 : s.Operand .alpha s.len points) (h2 : s.Operand .cw s.len r)
    (h3 : s.cfg.field.rfn s.errBit points r s.dim = some res) : runRecover s = .ok (s.commitRecovery res) := by
  simp [runRecover, checkGeometry_ok hg, readCanonical_ok hF h1, readCanonical_ok hF h2, h3]

theorem decodeStages_eq_ok {c : Config} {k : Nat} {r points w : List Nat} {d : DecodeResult}
    (h : decodeStages c k r points w = .ok d) :
    d.syn = c.field.sfn r points w (points.length - k) ∧ c.field.bm d.syn = some d.synth ∧
    d.errors = c.field.errorPositions c.nmax points.length points d.synth.lam ∧
    c.field.rfn (fun i => decide (i ∈ d.errors)) points r k = some d.recovery := by
  obtain ⟨st, h1, h⟩ := andThen_eq_ok h
  obtain ⟨res, h2, h⟩ := andThen_eq_ok h
  cases h
  exact ⟨rfl, orDivisionByZero_eq_ok h1, rfl, orDivisionByZero_eq_ok h2⟩

theorem decodeStages_ok {c : Config} {k : Nat} {r points w : List Nat} {st : SynthState} {res : List Nat × Bool}
    (h1 : c.field.bm (c.field.sfn r points w (points.length - k)) = some st)
    (h2 : c.field.rfn (fun i => decide (i ∈ c.field.errorPositions c.nmax points.length points st.lam)) points r k
      = some res) :
    decodeStages c k r points w =
      .ok { syn := c.field.sfn r points w (points.length - k), synth := st
            errors := c.field.errorPositions c.nmax points.length points st.lam, recovery := res } := by
  simp [decodeStages, h1, h2]

theorem runDecode_eq_ok {s t : State} (h : runDecode s = .ok t) : s.GeometryOk ∧ ∃ r points wc d,
    s.Operand .cw s.len r ∧ s.Operand .alpha s.len points ∧ s.weightsForUse points = .ok wc ∧
    decodeStages s.cfg s.dim r points wc.1 = .ok d ∧ t = s.commitDecode wc d := by
  obtain ⟨_, h0, h⟩ := andThen_eq_ok h
  obtain ⟨r, h1, h⟩ := andThen_eq_ok h
  obtain ⟨points, h2, h⟩ := andThen_eq_ok h
  obtain ⟨wc, h3, h⟩ := andThen_eq_ok h
  obtain ⟨d, h4, h⟩ := andThen_eq_ok h
  cases h
  exact ⟨checkGeometry_eq_ok h0, r, points, wc, d, readCanonical_eq_ok h1, readCanonical_eq_ok h2, h3, h4, rfl⟩

theorem runDecode_ok {s : State} (hF : s.cfg.field.size ≤ 2 ^ 32 - 1) (hg : s.GeometryOk) {r points : List Nat}
    {wc : List Nat × Bool} {d : DecodeResult} (h1 : s.Operand .cw s.len r) (h2 : s.Operand .alpha s.len points)
    (h3 : s.weightsForUse points = .ok wc) (h4 : decodeStages s.cfg s.dim r points wc.1 = .ok d) :
    runDecode s = .ok (s.commitDecode wc d) := by
  simp [runDecode, checkGeometry_ok hg, readCanonical_ok hF h1, readCanonical_ok hF h2, h3, h4]

/-! The ends of a command. -/

/-- What a command computes before it completes. -/
def runOf (i : Instr) (s : State) : Attempt State :=
  match i with
  | .nop => .ok s
  | .encode => runEncode s
  | .weights => runWeights s
  | .syndrome => runSyndrome s
  | .bmsyn => runBmsyn s
  | .roots => runRoots s
  | .recover => runRecover s
  | .decode => runDecode s

theorem exec_eq_complete (i : Instr) (s : State) : exec i s = complete s (runOf i s) := by cases i <;> rfl

/-- A command that ends in a next state committed or aborted. -/
theorem exec_eq_next {i : Instr} {s t : State} (h : exec i s = .next t) :
    (∃ u, runOf i s = .ok u ∧ t = finish u) ∨ ∃ e, runOf i s = .raised e ∧ t = abort e s :=
  complete_eq_next (exec_eq_complete i s ▸ h)

/-- A failed geometry check aborts every command but NOP, before anything is read (R254, R255). -/
theorem runOf_of_not_geometry {i : Instr} {s : State} (hi : i ≠ .nop) (h : ¬ s.GeometryOk) :
    runOf i s = .raised .lengthMismatch := by
  cases i <;> first | exact absurd rfl hi | simp [runOf, runEncode, runWeights, runSyndrome, runBmsyn, runRoots,
    runRecover, runDecode, checkGeometry_raised h]

/-- Whether or not weights were computed, their commit touches `mem` and W_VALID alone (R171). -/
theorem commitIfComputed_eq (s : State) (wc : List Nat × Bool) : s.commitIfComputed wc =
    { s with mem := (s.commitIfComputed wc).mem, status := { s.status with wValid := s.status.wValid || wc.2 } } := by
  unfold State.commitIfComputed
  cases h : wc.2 with
  | true => simp [State.commitWeights, State.setElems]
  | false => simp

/-- What no command writes, and that none clears W_VALID (R32, R41): the frame of every commit. -/
theorem runOf_frame {i : Instr} {s u : State} (h : runOf i s = .ok u) :
    u = { s with
          mem := u.mem, bmL := u.bmL, bmM := u.bmM, bmB := u.bmB, errmap := u.errmap, nerr := u.nerr
          status := { s.status with wValid := u.status.wValid, insuf := u.status.insuf } } ∧
    (s.status.wValid = true → u.status.wValid = true) := by
  cases i with
  | nop => cases h; exact ⟨rfl, id⟩
  | encode => obtain ⟨-, _, _, -, -, rfl⟩ := runEncode_eq_ok h; exact ⟨rfl, id⟩
  | weights => obtain ⟨-, _, _, -, -, rfl⟩ := runWeights_eq_ok h; exact ⟨rfl, fun _ => rfl⟩
  | syndrome =>
    obtain ⟨-, _, _, wc, -, -, -, rfl⟩ := runSyndrome_eq_ok h
    rw [commitIfComputed_eq]
    exact ⟨rfl, fun hv => by simp [hv]⟩
  | bmsyn => obtain ⟨-, _, _, -, -, rfl⟩ := runBmsyn_eq_ok h; exact ⟨rfl, id⟩
  | roots => obtain ⟨-, _, _, -, -, rfl⟩ := runRoots_eq_ok h; exact ⟨rfl, id⟩
  | recover => obtain ⟨-, _, _, _, -, -, -, rfl⟩ := runRecover_eq_ok h; exact ⟨rfl, id⟩
  | decode =>
    obtain ⟨-, _, _, wc, d, -, -, -, -, rfl⟩ := runDecode_eq_ok h
    rw [State.commitDecode, commitIfComputed_eq]
    exact ⟨rfl, fun hv => by simp [State.commitRecovery, State.commitSynth, hv]⟩

end Sys2Proof.Machine
end

