-- ==== Sys2Proof/Laws/Field.lean ====
section
/-! SUPPORT. The field operations are those of a mathematical field: the prime instance satisfies the laws, `fsub` and
`finv` are what R122 and R124 say, and every valid FIELD is a coding of a field of Mathlib. -/

namespace Sys2Proof

/-! The prime field. -/

theorem FieldDesc.prime_isField {q : Nat} (hq : q.Prime) : (FieldDesc.prime q).IsField where
  one_lt := hq.one_lt
  add_lt _ _ _ _ := Nat.mod_lt _ hq.pos
  mul_lt _ _ _ _ := Nat.mod_lt _ hq.pos
  add_comm a _ b _ := by simp [FieldDesc.fadd, Nat.add_comm]
  add_assoc a _ b _ c _ := by simp [FieldDesc.fadd, Nat.add_assoc]
  add_zero a h := Nat.mod_eq_of_lt h
  add_neg a h := by
    simp only [FieldDesc.size] at *
    refine ⟨(q - a) % q, Nat.mod_lt _ hq.pos, ?_⟩
    simp only [FieldDesc.fadd, Nat.add_mod_mod]
    rw [Nat.add_sub_cancel' (le_of_lt h), Nat.mod_self]
  mul_comm a _ b _ := by simp [FieldDesc.fmul, Nat.mul_comm]
  mul_assoc a _ b _ c _ := by
    simp only [FieldDesc.fmul, Nat.mod_mul_mod, Nat.mul_mod_mod, Nat.mul_assoc]
  mul_one a h := by
    simp only [FieldDesc.size] at h
    simpa [FieldDesc.fmul] using Nat.mod_eq_of_lt h
  mul_inv a h h0 := by
    simp only [FieldDesc.size] at *
    have hc : Nat.Coprime a q := (Nat.coprime_of_lt_prime h0 h hq).symm
    obtain ⟨b, hb⟩ := Nat.exists_mul_mod_eq_one_of_coprime hc hq.one_lt
    exact ⟨b % q, Nat.mod_lt _ hq.pos, by simpa [FieldDesc.fmul] using hb.2⟩
  distrib a _ b _ c _ := by simp [FieldDesc.fmul, FieldDesc.fadd, Nat.mul_add, Nat.add_mod]

theorem FieldDesc.Valid.isField {F : FieldDesc} (h : F.Valid) : F.IsField := by
  cases F with
  | prime q => exact prime_isField h.2
  | table add mul => exact h.2.2.2.2

theorem FieldDesc.Valid.size_le {F : FieldDesc} (h : F.Valid) : F.size ≤ 2 ^ 32 - 1 := h.1

theorem Config.Valid.size_le {c : Config} (h : c.Valid) : c.field.size ≤ 2 ^ 32 - 1 := h.1.1

/-- Residues modulo `q` with the identities 0 and 1 form a field only for a prime `q`. -/
theorem FieldDesc.IsField.size_prime {F : FieldDesc} (h : F.IsField)
    (hm : ∀ a, a < F.size → ∀ b, b < F.size → F.fmul a b = a * b % F.size) : F.size.Prime := by
  by_contra hp
  have h1 := h.one_lt
  obtain ⟨d, ⟨e, he⟩, hd1, hdn⟩ := (Nat.not_prime_iff_exists_dvd_lt (by omega)).1 hp
  have he0 : e ≠ 0 := by rintro rfl; omega
  have hen : e < F.size := by
    have : 2 * e ≤ d * e := Nat.mul_le_mul_right e hd1
    omega
  obtain ⟨b, hb, hdb⟩ := h.mul_inv d hdn (by omega)
  have hz : F.fmul d e = 0 := by rw [hm d hdn e hen, ← he, Nat.mod_self]
  have hbz : F.fmul b 0 = 0 := by rw [hm b hb 0 (by omega), Nat.mul_zero, Nat.zero_mod]
  have := h.mul_assoc b hb d hdn e hen
  rw [h.mul_comm b hb d hdn, hdb, hz, hbz, h.mul_comm 1 h1 e hen, h.mul_one e hen] at this
  exact he0 this

/-- R22: PRIME says that FIELD is GF(Q), Q prime, with the canonical residues as codes. -/
theorem FieldDesc.Valid.isPrime_iff {F : FieldDesc} (h : F.Valid) : F.isPrime = true ↔ F.size.Prime ∧
    ∀ a b, a < F.size → b < F.size → F.fadd a b = (a + b) % F.size ∧ F.fmul a b = (a * b) % F.size := by
  cases F with
  | prime q => exact ⟨fun _ => ⟨h.2, fun _ _ _ _ => ⟨rfl, rfl⟩⟩, fun _ => rfl⟩
  | table add mul =>
    have hall : FieldDesc.isPrime (.table add mul) = true ↔ ∀ a, a < add.length → ∀ b, b < add.length →
        tableEntry add a b = (a + b) % add.length ∧ tableEntry mul a b = a * b % add.length := by
      simp [FieldDesc.isPrime]
    rw [hall]
    constructor
    · intro ht
      exact ⟨h.isField.size_prime fun a ha b hb => (ht a ha b hb).2, fun a b ha hb => ht a ha b hb⟩
    · exact fun ht a ha b hb => ht.2 a b ha hb

theorem powMod_eq (q : Nat) : ∀ (bits a e : Nat), e < 2 ^ bits → powMod q a bits e = a ^ e % q := by
  intro bits
  induction bits with
  | zero => intro a e h; obtain rfl : e = 0 := by simpa using h
            simp [powMod]
  | succ bits ih =>
    intro a e h
    have he : e / 2 < 2 ^ bits := by rw [pow_succ] at h; omega
    have hsq : (a * a % q) ^ (e / 2) % q = a ^ (2 * (e / 2)) % q := by
      rw [← Nat.pow_mod, pow_mul, pow_two]
    rw [powMod, ih _ _ he, hsq]
    split
    · rename_i hodd
      rw [Nat.mul_mod, Nat.mod_mod, ← Nat.mul_mod, ← pow_succ', show 2 * (e / 2) + 1 = e by omega]
    · rename_i heven
      rw [show 2 * (e / 2) = e by omega]

/-- R124 for GF(Q): Fermat's inverse. -/
theorem FieldDesc.prime_finv {q a : Nat} (hq : q.Prime) (hq32 : q ≤ 2 ^ 32 - 1) (ha : a < q) (h0 : a ≠ 0) :
    (FieldDesc.prime q).finv a = some (a ^ (q - 2) % q) ∧ (a * (a ^ (q - 2) % q)) % q = 1 := by
  have h2 := hq.two_le
  refine ⟨?_, ?_⟩
  · simp only [FieldDesc.finv, if_neg h0]
    rw [powMod_eq _ _ _ _ (by omega)]
  · have hc : Nat.Coprime a q := (Nat.coprime_of_lt_prime h0 ha hq).symm
    have hf := Nat.ModEq.pow_totient hc
    rw [Nat.totient_prime hq] at hf
    have hf' : a ^ (q - 1) % q = 1 := by
      have : a ^ (q - 1) % q = 1 % q := hf
      rwa [Nat.mod_eq_of_lt hq.one_lt] at this
    rw [Nat.mul_mod, Nat.mod_mod, ← Nat.mul_mod, ← pow_succ', show q - 2 + 1 = q - 1 by omega, hf']

@[simp] theorem FieldDesc.finv_zero (F : FieldDesc) : F.finv 0 = none := by simp [FieldDesc.finv]

/-- R124: a nonzero element has an inverse, and `finv` gives it. -/
theorem FieldDesc.Valid.finv_spec {F : FieldDesc} (h : F.Valid) {a : Nat} (ha : a < F.size) (h0 : a ≠ 0) :
    ∃ b, F.finv a = some b ∧ b < F.size ∧ F.fmul a b = 1 := by
  cases F with
  | prime q =>
    obtain ⟨h1, h2⟩ := FieldDesc.prime_finv h.2 h.1 ha h0
    exact ⟨_, h1, Nat.mod_lt _ h.2.pos, h2⟩
  | table add mul =>
    obtain ⟨hs, hl, -, -, hf⟩ := h
    obtain ⟨b, hb, hab⟩ := hf.mul_inv a ha h0
    have hsome : ((List.range mul.length).find? fun b => decide (tableEntry mul a b = 1)).isSome := by
      rw [List.find?_isSome]
      exact ⟨b, List.mem_range.2 (by rw [hl]; exact hb), by simpa [FieldDesc.fmul] using hab⟩
    obtain ⟨c, hc⟩ := Option.isSome_iff_exists.1 hsome
    refine ⟨c, by simp [FieldDesc.finv, h0, hc], ?_, ?_⟩
    · have := List.mem_of_find?_eq_some hc
      simp only [List.mem_range, hl] at this
      exact this
    · have := List.find?_some hc
      simpa [FieldDesc.fmul] using this

theorem FieldDesc.Valid.finv_eq_none {F : FieldDesc} (h : F.Valid) {a : Nat} (ha : a < F.size) :
    F.finv a = none ↔ a = 0 := by
  constructor
  · intro hn
    by_contra h0
    obtain ⟨b, hb, -⟩ := h.finv_spec ha h0
    rw [hn] at hb; cases hb
  · rintro rfl; exact F.finv_zero

theorem FieldDesc.Valid.finv_eq_some {F : FieldDesc} (h : F.Valid) {a b : Nat} (ha : a < F.size)
    (hb : F.finv a = some b) : a ≠ 0 ∧ b < F.size ∧ F.fmul a b = 1 := by
  have h0 : a ≠ 0 := by rintro rfl; simp at hb
  obtain ⟨c, hc, h1, h2⟩ := h.finv_spec ha h0
  rw [hb] at hc; cases hc
  exact ⟨h0, h1, h2⟩

/-- R122: the difference is the element that `b` must be added to. -/
theorem FieldDesc.Valid.fsub_spec {F : FieldDesc} (h : F.Valid) {a b : Nat} (ha : a < F.size) (hb : b < F.size) :
    F.fsub a b < F.size ∧ F.fadd b (F.fsub a b) = a := by
  cases F with
  | prime q =>
    simp only [FieldDesc.size] at ha hb
    refine ⟨Nat.mod_lt _ h.2.pos, ?_⟩
    simp only [FieldDesc.fadd, FieldDesc.fsub, Nat.add_mod_mod]
    rw [show b + (a + q - b) = a + q by omega, Nat.add_mod_right, Nat.mod_eq_of_lt ha]
  | table add mul =>
    obtain ⟨hs, hl, -, -, hf⟩ := h
    obtain ⟨nb, hnb, hnb0⟩ := hf.add_neg b hb
    have hc := hf.add_lt nb hnb a ha
    have hex : FieldDesc.fadd (.table add mul) b (FieldDesc.fadd (.table add mul) nb a) = a := by
      rw [← hf.add_assoc b hb nb hnb a ha, hnb0, hf.add_comm 0 (lt_trans Nat.zero_lt_one hf.one_lt) a ha,
        hf.add_zero a ha]
    have hsome : ((List.range add.length).find? fun c => decide (tableEntry add b c = a)).isSome := by
      rw [List.find?_isSome]
      exact ⟨_, List.mem_range.2 hc, decide_eq_true hex⟩
    obtain ⟨c, hc⟩ := Option.isSome_iff_exists.1 hsome
    have h1 := List.mem_of_find?_eq_some hc
    have h2 := List.find?_some hc
    simp only [List.mem_range, decide_eq_true_eq] at h1 h2
    have he : FieldDesc.fsub (.table add mul) a b = c := by simp only [FieldDesc.fsub, hc, Option.getD_some]
    rw [he]
    exact ⟨h1, h2⟩

/-! Every valid FIELD codes a field. -/

/-- `φ` reads a code as an element of the field `K`, and the operations of `F` are those of `K`. -/
structure FieldDesc.Codes (F : FieldDesc) {K : Type} [Field K] (φ : Nat → K) : Prop where
  zero : φ 0 = 0
  one : φ 1 = 1
  inj : ∀ a, a < F.size → ∀ b, b < F.size → φ a = φ b → a = b
  surj : ∀ x, ∃ a, a < F.size ∧ φ a = x
  add : ∀ a, a < F.size → ∀ b, b < F.size → φ (F.fadd a b) = φ a + φ b
  mul : ∀ a, a < F.size → ∀ b, b < F.size → φ (F.fmul a b) = φ a * φ b

theorem exists_codes_of_isField {F : FieldDesc} (h : F.IsField) :
    ∃ (K : Type) (_ : Field K) (φ : Nat → K), F.Codes φ := by
  classical
  have hpos : 0 < F.size := lt_trans Nat.zero_lt_one h.one_lt
  let K := { a : Nat // a < F.size }
  choose! ng hng using h.add_neg
  let addK : Add K := ⟨fun x y => ⟨F.fadd x.1 y.1, h.add_lt _ x.2 _ y.2⟩⟩
  let mulK : Mul K := ⟨fun x y => ⟨F.fmul x.1 y.1, h.mul_lt _ x.2 _ y.2⟩⟩
  let zeroK : Zero K := ⟨⟨0, hpos⟩⟩
  let oneK : One K := ⟨⟨1, h.one_lt⟩⟩
  let negK : Neg K := ⟨fun x => ⟨ng x.1, (hng x.1 x.2).1⟩⟩
  have add_comm' : ∀ x y : K, x + y = y + x := fun x y => Subtype.ext (h.add_comm _ x.2 _ y.2)
  have mul_comm' : ∀ x y : K, x * y = y * x := fun x y => Subtype.ext (h.mul_comm _ x.2 _ y.2)
  let ringK : CommRing K := CommRing.ofMinimalAxioms
    (fun x y z => Subtype.ext (h.add_assoc _ x.2 _ y.2 _ z.2))
    (fun x => by rw [add_comm']; exact Subtype.ext (h.add_zero _ x.2))
    (fun x => by rw [add_comm']; exact Subtype.ext (hng x.1 x.2).2)
    (fun x y z => Subtype.ext (h.mul_assoc _ x.2 _ y.2 _ z.2))
    mul_comm'
    (fun x => by rw [mul_comm']; exact Subtype.ext (h.mul_one _ x.2))
    (fun x y z => Subtype.ext (h.distrib _ x.2 _ y.2 _ z.2))
  have hfield : IsField K := by
    refine ⟨⟨0, 1, fun hc => ?_⟩, mul_comm', fun {x} hx => ?_⟩
    · have : (0 : Nat) = 1 := congrArg Subtype.val hc
      omega
    · obtain ⟨b, hb, hab⟩ := h.mul_inv x.1 x.2 (fun hc => hx (Subtype.ext hc))
      exact ⟨⟨b, hb⟩, Subtype.ext hab⟩
  let fieldK : Field K := hfield.toField
  refine ⟨K, fieldK, fun a => if ha : a < F.size then ⟨a, ha⟩ else ⟨0, hpos⟩, ?_⟩
  refine ⟨?_, ?_, ?_, ?_, ?_, ?_⟩
  · simp only [hpos, dite_true]; rfl
  · simp only [h.one_lt, dite_true]; rfl
  · intro a ha b hb hab
    simp only [ha, hb, dite_true] at hab
    exact congrArg Subtype.val hab
  · intro x; exact ⟨x.1, x.2, by simp [x.2]⟩
  · intro a ha b hb
    simp only [ha, hb, h.add_lt a ha b hb, dite_true]; rfl
  · intro a ha b hb
    simp only [ha, hb, h.mul_lt a ha b hb, dite_true]; rfl

end Sys2Proof
end

