-- ==== Sys2Proof/Laws/PerInstr.lean ====
section
/-! SUPPORT. What is said of every command as syntax, one lemma per constructor. -/

namespace Sys2Proof.Laws.RoundTrip

/-- The command's word decodes to it, its reserved field is 0, and its opcode is below 8 (R90, R92). -/
def Statement (i : Instr) : Prop :=
  Sys2Proof.decode (Sys2Proof.encode i) = .ok i ∧ (Sys2Proof.encode i).toNat = i.opcode.toNat ∧ i.opcode.toNat < 8

theorem nop : Statement .nop := ⟨rfl, by decide, by decide⟩
theorem encode : Statement .encode := ⟨rfl, by decide, by decide⟩
theorem weights : Statement .weights := ⟨rfl, by decide, by decide⟩
theorem syndrome : Statement .syndrome := ⟨rfl, by decide, by decide⟩
theorem bmsyn : Statement .bmsyn := ⟨rfl, by decide, by decide⟩
theorem roots : Statement .roots := ⟨rfl, by decide, by decide⟩
theorem recover : Statement .recover := ⟨rfl, by decide, by decide⟩
theorem decode : Statement .decode := ⟨rfl, by decide, by decide⟩

end Sys2Proof.Laws.RoundTrip
end

