-- ==== Sys2Proof/Laws/Poly.lean ====
section
/-! SUPPORT. The arithmetic and the polynomials of a valid FIELD, read in the field of Mathlib that it codes: every operation stays
canonical, and is the operation of that field or of its polynomials. -/

namespace Sys2Proof

open Polynomial

/-! Canonical results (R120). -/

section Canonical

variable {F : FieldDesc} (hv : F.Valid)
include hv

theorem FieldDesc.Valid.zero_lt : 0 < F.size := lt_trans Nat.zero_lt_one hv.isField.one_lt
theorem FieldDesc.Valid.one_lt : 1 < F.size := hv.isField.one_lt
theorem FieldDesc.Valid.fadd_lt {a b : Nat} (ha : a < F.size) (hb : b < F.size) : F.fadd a b < F.size :=
  hv.isField.add_lt a ha b hb
theorem FieldDesc.Valid.fmul_lt {a b : Nat} (ha : a < F.size) (hb : b < F.size) : F.fmul a b < F.size :=
  hv.isField.mul_lt a ha b hb
theorem FieldDesc.Valid.fsub_lt {a b : Nat} (ha : a < F.size) (hb : b < F.size) : F.fsub a b < F.size :=
  (hv.fsub_spec ha hb).1

theorem FieldDesc.Valid.fpow_lt {a : Nat} (ha : a < F.size) (j : Nat) : F.fpow a j < F.size := by
  induction j with
  | zero => exact hv.one_lt
  | succ j ih => exact hv.fmul_lt ih ha

theorem FieldDesc.Valid.foldl_fadd_lt (xs : List Nat) : ∀ a, a < F.size → (∀ v ∈ xs, v < F.size) →
    xs.foldl F.fadd a < F.size := by
  induction xs with
  | nil => exact fun a ha _ => ha
  | cons x xs ih =>
    intro a ha h
    exact ih _ (hv.fadd_lt ha (h x (by simp))) fun v hx => h v (by simp [hx])

theorem FieldDesc.Valid.fsum_lt {xs : List Nat} (h : ∀ v ∈ xs, v < F.size) : F.fsum xs < F.size :=
  hv.foldl_fadd_lt xs 0 hv.zero_lt h

/-- A sum that starts from `a` is `a` plus the sum. -/
theorem FieldDesc.Valid.foldl_fadd_eq (xs : List Nat) : ∀ a, a < F.size → (∀ v ∈ xs, v < F.size) →
    xs.foldl F.fadd a = F.fadd a (F.fsum xs) := by
  induction xs with
  | nil => exact fun a ha _ => (hv.isField.add_zero a ha).symm
  | cons x xs ih =>
    intro a ha h
    have hx : x < F.size := h x (by simp)
    have hxs : ∀ v ∈ xs, v < F.size := fun v hm => h v (by simp [hm])
    have h0 : F.fadd 0 x = x := by rw [hv.isField.add_comm 0 hv.zero_lt x hx, hv.isField.add_zero x hx]
    rw [FieldDesc.fsum, List.foldl_cons, List.foldl_cons, h0, ih _ (hv.fadd_lt ha hx) hxs, ih x hx hxs,
      hv.isField.add_assoc a ha x hx _ (hv.fsum_lt hxs)]

theorem FieldDesc.Valid.foldl_fmul_lt (xs : List Nat) : ∀ a, a < F.size → (∀ v ∈ xs, v < F.size) →
    xs.foldl F.fmul a < F.size := by
  induction xs with
  | nil => exact fun a ha _ => ha
  | cons x xs ih =>
    intro a ha h
    exact ih _ (hv.fmul_lt ha (h x (by simp))) fun v hx => h v (by simp [hx])

theorem FieldDesc.Valid.fprod_lt {xs : List Nat} (h : ∀ v ∈ xs, v < F.size) : F.fprod xs < F.size :=
  hv.foldl_fmul_lt xs 1 hv.one_lt h

theorem FieldDesc.Valid.getD_lt {p : List Nat} (h : ∀ v ∈ p, v < F.size) (i : Nat) : p.getD i 0 < F.size := by
  by_cases hi : i < p.length
  · rw [List.getD_eq_getElem _ _ hi]; exact h _ (List.getElem_mem hi)
  · rw [List.getD_eq_default _ _ (by omega)]; exact hv.zero_lt

theorem FieldDesc.Valid.peval_lt {p : List Nat} {x : Nat} (hx : x < F.size) (h : ∀ v ∈ p, v < F.size) :
    F.peval p x < F.size := by
  induction p with
  | nil => exact hv.zero_lt
  | cons c p ih =>
    exact hv.fadd_lt (hv.fmul_lt (ih fun v hp => h v (by simp [hp])) hx) (h c (by simp))

theorem FieldDesc.Valid.padd_lt {p q : List Nat} (hp : ∀ v ∈ p, v < F.size) (hq : ∀ v ∈ q, v < F.size) :
    ∀ v ∈ F.padd p q, v < F.size := by
  intro v hvm
  obtain ⟨i, -, rfl⟩ := List.mem_map.1 hvm
  exact hv.fadd_lt (hv.getD_lt hp i) (hv.getD_lt hq i)

theorem FieldDesc.Valid.psub_lt {p q : List Nat} (hp : ∀ v ∈ p, v < F.size) (hq : ∀ v ∈ q, v < F.size) :
    ∀ v ∈ F.psub p q, v < F.size := by
  intro v hvm
  obtain ⟨i, -, rfl⟩ := List.mem_map.1 hvm
  exact hv.fsub_lt (hv.getD_lt hp i) (hv.getD_lt hq i)

theorem FieldDesc.Valid.pscale_lt {p : List Nat} {c : Nat} (hp : ∀ v ∈ p, v < F.size) (hc : c < F.size) :
    ∀ v ∈ F.pscale p c, v < F.size := by
  intro v hvm
  obtain ⟨a, ha, rfl⟩ := List.mem_map.1 hvm
  exact hv.fmul_lt (hp a ha) hc

theorem FieldDesc.Valid.pshift_lt {p : List Nat} (hp : ∀ v ∈ p, v < F.size) (m : Nat) :
    ∀ v ∈ pshift p m, v < F.size := by
  intro v hvm
  rcases List.mem_append.1 hvm with h | h
  · rw [(List.mem_replicate.1 h).2]; exact hv.zero_lt
  · exact hp v h

theorem FieldDesc.Valid.pmul_lt {p q : List Nat} (hp : ∀ v ∈ p, v < F.size) (hq : ∀ v ∈ q, v < F.size) :
    ∀ v ∈ F.pmul p q, v < F.size := by
  intro v hvm
  obtain ⟨i, -, rfl⟩ := List.mem_map.1 hvm
  refine hv.fsum_lt fun w hw => ?_
  obtain ⟨a, -, rfl⟩ := List.mem_map.1 hw
  exact hv.fmul_lt (hv.getD_lt hp a) (hv.getD_lt hq _)

theorem FieldDesc.Valid.lagrangeNum_lt {xs : List Nat} (hx : ∀ v ∈ xs, v < F.size) (i : Nat) :
    ∀ v ∈ F.lagrangeNum xs i, v < F.size := by
  unfold FieldDesc.lagrangeNum
  generalize othersOf xs.length i = js
  have : ∀ (js p : List Nat), (∀ v ∈ p, v < F.size) →
      ∀ v ∈ js.foldl (fun num j => F.pmul num [F.fsub 0 (xs.getD j 0), 1]) p, v < F.size := by
    intro js
    induction js with
    | nil => exact fun p hp => hp
    | cons j js ih =>
      intro p hp
      refine ih _ (hv.pmul_lt hp fun v hvm => ?_)
      rcases List.mem_cons.1 hvm with rfl | hvm
      · exact hv.fsub_lt hv.zero_lt (hv.getD_lt hx j)
      · rw [List.mem_singleton.1 hvm]; exact hv.one_lt
  exact this js [1] fun v hvm => by rw [List.mem_singleton.1 hvm]; exact hv.one_lt

theorem FieldDesc.Valid.lagrangeDen_lt {xs : List Nat} (hx : ∀ v ∈ xs, v < F.size) (i : Nat) :
    F.lagrangeDen xs i < F.size := by
  refine hv.fprod_lt fun v hvm => ?_
  obtain ⟨j, -, rfl⟩ := List.mem_map.1 hvm
  exact hv.fsub_lt (hv.getD_lt hx i) (hv.getD_lt hx j)

end Canonical

/-! Lengths. -/

@[simp] theorem FieldDesc.length_padd (F : FieldDesc) (p q : List Nat) :
    (F.padd p q).length = max p.length q.length := by simp [FieldDesc.padd]
@[simp] theorem FieldDesc.length_psub (F : FieldDesc) (p q : List Nat) :
    (F.psub p q).length = max p.length q.length := by simp [FieldDesc.psub]
@[simp] theorem FieldDesc.length_pscale (F : FieldDesc) (p : List Nat) (c : Nat) :
    (F.pscale p c).length = p.length := by simp [FieldDesc.pscale]
@[simp] theorem FieldDesc.length_pmul (F : FieldDesc) (p q : List Nat) :
    (F.pmul p q).length = p.length + q.length - 1 := by simp [FieldDesc.pmul]
@[simp] theorem length_pshift (p : List Nat) (m : Nat) : (pshift p m).length = m + p.length := by simp [pshift]

theorem getD_map_range (f : Nat → Nat) (n i : Nat) :
    ((List.range n).map f).getD i 0 = if i < n then f i else 0 := by
  split
  · rename_i h; simp [List.getD_eq_getElem?_getD, h]
  · rename_i h; simp [List.getD_eq_getElem?_getD, h]

theorem getD_pshift (p : List Nat) (m i : Nat) : (pshift p m).getD i 0 = if i < m then 0 else p.getD (i - m) 0 := by
  unfold pshift
  simp only [List.getD_eq_getElem?_getD, List.getElem?_append, List.length_replicate]
  split <;> rename_i h <;> simp [h]

/-! The operations read in the field. -/

section Codes

variable {F : FieldDesc} (hv : F.Valid) {K : Type} [Field K] {φ : Nat → K} (hc : F.Codes φ)

/-- A valid FIELD codes a field of Mathlib. -/
theorem FieldDesc.Valid.exists_codes (hv : F.Valid) : ∃ (K : Type) (_ : Field K) (φ : Nat → K), F.Codes φ :=
  exists_codes_of_isField hv.isField

include hv hc

theorem FieldDesc.Codes.eq_zero_iff {a : Nat} (ha : a < F.size) : φ a = 0 ↔ a = 0 := by
  constructor
  · intro h; exact hc.inj a ha 0 hv.zero_lt (by rw [h, hc.zero])
  · rintro rfl; exact hc.zero

theorem FieldDesc.Codes.sub {a b : Nat} (ha : a < F.size) (hb : b < F.size) : φ (F.fsub a b) = φ a - φ b := by
  obtain ⟨h1, h2⟩ := hv.fsub_spec ha hb
  rw [eq_sub_iff_add_eq, add_comm, ← hc.add b hb _ h1, h2]

theorem FieldDesc.Codes.inv {a b : Nat} (ha : a < F.size) (h : F.finv a = some b) : φ b = (φ a)⁻¹ := by
  obtain ⟨h0, h1, h2⟩ := hv.finv_eq_some ha h
  have := hc.mul a ha b h1
  rw [h2, hc.one] at this
  exact eq_inv_of_mul_eq_one_right this.symm

theorem FieldDesc.Codes.pow {a : Nat} (ha : a < F.size) (j : Nat) : φ (F.fpow a j) = φ a ^ j := by
  induction j with
  | zero => exact hc.one.trans (pow_zero _).symm
  | succ j ih => rw [FieldDesc.fpow, hc.mul _ (hv.fpow_lt ha j) _ ha, ih, pow_succ]

theorem FieldDesc.Codes.foldl_add (xs : List Nat) : ∀ a, a < F.size → (∀ v ∈ xs, v < F.size) →
    φ (xs.foldl F.fadd a) = φ a + (xs.map φ).sum := by
  induction xs with
  | nil => simp
  | cons x xs ih =>
    intro a ha h
    have hx := h x (by simp)
    rw [List.foldl_cons, ih _ (hv.fadd_lt ha hx) fun v hm => h v (by simp [hm]), hc.add a ha x hx]
    simp [add_assoc]

theorem FieldDesc.Codes.fsum {xs : List Nat} (h : ∀ v ∈ xs, v < F.size) : φ (F.fsum xs) = (xs.map φ).sum := by
  rw [FieldDesc.fsum, hc.foldl_add hv xs 0 hv.zero_lt h, hc.zero, zero_add]

theorem FieldDesc.Codes.foldl_mul (xs : List Nat) : ∀ a, a < F.size → (∀ v ∈ xs, v < F.size) →
    φ (xs.foldl F.fmul a) = φ a * (xs.map φ).prod := by
  induction xs with
  | nil => simp
  | cons x xs ih =>
    intro a ha h
    have hx := h x (by simp)
    rw [List.foldl_cons, ih _ (hv.fmul_lt ha hx) fun v hm => h v (by simp [hm]), hc.mul a ha x hx]
    simp [mul_assoc]

theorem FieldDesc.Codes.fprod {xs : List Nat} (h : ∀ v ∈ xs, v < F.size) : φ (F.fprod xs) = (xs.map φ).prod := by
  rw [FieldDesc.fprod, hc.foldl_mul hv xs 1 hv.one_lt h, hc.one, one_mul]

/-- A sum over an index range is a sum over a Finset. -/
theorem FieldDesc.Codes.fsum_range {f : Nat → Nat} {n : Nat} (h : ∀ i, i < n → f i < F.size) :
    φ (F.fsum ((List.range n).map f)) = ∑ i ∈ Finset.range n, φ (f i) := by
  rw [hc.fsum hv (by simpa using h), List.map_map]
  clear h
  induction n with
  | zero => simp
  | succ n ih => rw [List.range_succ, List.map_append, List.sum_append, Finset.sum_range_succ, ih]; simp

end Codes

/-! Polynomials read over the field. -/

section Polynomials

/-- The polynomial a list of coefficient codes denotes. -/
noncomputable def polyOf {K : Type} [Field K] (φ : Nat → K) (p : List Nat) : K[X] :=
  p.foldr (fun c q => C (φ c) + X * q) 0

variable {F : FieldDesc} (hv : F.Valid) {K : Type} [Field K] {φ : Nat → K} (hc : F.Codes φ)

include hc in
theorem coeff_polyOf (p : List Nat) : ∀ i, (polyOf φ p).coeff i = φ (p.getD i 0) := by
  induction p with
  | nil => intro i; simp [polyOf, hc.zero]
  | cons c p ih =>
    intro i
    cases i with
    | zero => simp [polyOf]
    | succ i => simpa [polyOf] using ih i

include hc in
theorem polyOf_append_zeros (p : List Nat) (k : Nat) : polyOf φ (p ++ List.replicate k 0) = polyOf φ p := by
  ext i
  rw [coeff_polyOf hc, coeff_polyOf hc]
  congr 1
  simp only [List.getD_eq_getElem?_getD, List.getElem?_append]
  split
  · rfl
  · rename_i h
    rw [List.getElem?_eq_none (l := p) (by omega), List.getElem?_replicate]
    split <;> rfl

include hc in
theorem degree_polyOf_lt (p : List Nat) : (polyOf φ p).degree < p.length := by
  rw [Polynomial.degree_lt_iff_coeff_zero]
  intro i hi
  rw [coeff_polyOf hc, List.getD_eq_default _ _ hi, hc.zero]

include hc in
/-- Two canonical lists of one length that denote one polynomial are equal. -/
theorem eq_of_polyOf_eq {p q : List Nat} (hp : ∀ v ∈ p, v < F.size) (hq : ∀ v ∈ q, v < F.size)
    (hl : p.length = q.length) (h : polyOf φ p = polyOf φ q) : p = q := by
  refine List.ext_getElem hl fun i h1 h2 => ?_
  have := congrArg (fun r => r.coeff i) h
  simp only [coeff_polyOf hc] at this
  rw [List.getD_eq_getElem _ _ h1, List.getD_eq_getElem _ _ h2] at this
  exact hc.inj _ (hp _ (List.getElem_mem h1)) _ (hq _ (List.getElem_mem h2)) this

include hv hc

theorem polyOf_eq_zero_iff {p : List Nat} (hp : ∀ v ∈ p, v < F.size) : polyOf φ p = 0 ↔ ∀ v ∈ p, v = 0 := by
  constructor
  · intro h v hvm
    obtain ⟨i, hi, rfl⟩ := List.getElem_of_mem hvm
    have := congrArg (fun r => r.coeff i) h
    simp only [coeff_polyOf hc, coeff_zero, List.getD_eq_getElem _ _ hi] at this
    exact (hc.eq_zero_iff hv (hp _ hvm)).1 this
  · intro h
    ext i
    rw [coeff_polyOf hc, coeff_zero]
    by_cases hi : i < p.length
    · rw [List.getD_eq_getElem _ _ hi, h _ (List.getElem_mem hi), hc.zero]
    · rw [List.getD_eq_default _ _ (by omega), hc.zero]

/-- Horner's method is evaluation (R128). -/
theorem eval_polyOf {p : List Nat} {x : Nat} (hp : ∀ v ∈ p, v < F.size) (hx : x < F.size) :
    φ (F.peval p x) = (polyOf φ p).eval (φ x) := by
  induction p with
  | nil => simpa [FieldDesc.peval, polyOf] using hc.zero
  | cons c p ih =>
    have hp' : ∀ v ∈ p, v < F.size := fun v hvm => hp v (by simp [hvm])
    have h1 := hv.peval_lt hx hp'
    have : F.peval (c :: p) x = F.fadd (F.fmul (F.peval p x) x) c := rfl
    rw [this, hc.add _ (hv.fmul_lt h1 hx) _ (hp c (by simp)), hc.mul _ h1 _ hx, ih hp']
    simp [polyOf]
    ring

theorem polyOf_padd {p q : List Nat} (hp : ∀ v ∈ p, v < F.size) (hq : ∀ v ∈ q, v < F.size) :
    polyOf φ (F.padd p q) = polyOf φ p + polyOf φ q := by
  ext i
  rw [coeff_add, coeff_polyOf hc, coeff_polyOf hc, coeff_polyOf hc, FieldDesc.padd, getD_map_range,
    ← hc.add _ (hv.getD_lt hp i) _ (hv.getD_lt hq i)]
  split
  · rfl
  · rw [List.getD_eq_default p _ (by omega), List.getD_eq_default q _ (by omega), hv.isField.add_zero 0 hv.zero_lt]

theorem polyOf_psub {p q : List Nat} (hp : ∀ v ∈ p, v < F.size) (hq : ∀ v ∈ q, v < F.size) :
    polyOf φ (F.psub p q) = polyOf φ p - polyOf φ q := by
  ext i
  rw [coeff_sub, coeff_polyOf hc, coeff_polyOf hc, coeff_polyOf hc, FieldDesc.psub, getD_map_range]
  split
  · exact hc.sub hv (hv.getD_lt hp i) (hv.getD_lt hq i)
  · rw [List.getD_eq_default p _ (by omega), List.getD_eq_default q _ (by omega), hc.zero, sub_zero]

omit hv in
theorem polyOf_pscale {p : List Nat} {c : Nat} (hp : ∀ v ∈ p, v < F.size) (hcl : c < F.size) :
    polyOf φ (F.pscale p c) = polyOf φ p * C (φ c) := by
  ext i
  rw [coeff_mul_C, coeff_polyOf hc, coeff_polyOf hc]
  by_cases hi : i < p.length
  · rw [List.getD_eq_getElem _ _ (by simpa using hi), List.getD_eq_getElem _ _ hi]
    simp only [FieldDesc.pscale, List.getElem_map]
    exact hc.mul _ (hp _ (List.getElem_mem hi)) _ hcl
  · rw [List.getD_eq_default _ _ (by simpa using hi), List.getD_eq_default _ _ (by omega), hc.zero, zero_mul]

omit hv in
theorem polyOf_pshift (p : List Nat) (m : Nat) : polyOf φ (pshift p m) = X ^ m * polyOf φ p := by
  ext i
  rw [coeff_X_pow_mul', coeff_polyOf hc, coeff_polyOf hc, getD_pshift]
  by_cases h : i < m
  · rw [if_pos h, if_neg (by omega), hc.zero]
  · rw [if_neg h, if_pos (by omega)]

theorem polyOf_pmul {p q : List Nat} (hp : ∀ v ∈ p, v < F.size) (hq : ∀ v ∈ q, v < F.size) :
    polyOf φ (F.pmul p q) = polyOf φ p * polyOf φ q := by
  ext i
  rw [coeff_mul, Finset.Nat.sum_antidiagonal_eq_sum_range_succ fun a b => (polyOf φ p).coeff a * (polyOf φ q).coeff b]
  simp only [coeff_polyOf hc, FieldDesc.pmul, getD_map_range]
  split
  · rw [hc.fsum_range hv fun a _ => hv.fmul_lt (hv.getD_lt hp a) (hv.getD_lt hq _)]
    exact Finset.sum_congr rfl fun a _ => hc.mul _ (hv.getD_lt hp a) _ (hv.getD_lt hq _)
  · rename_i h
    rw [hc.zero]
    refine (Finset.sum_eq_zero fun a ha => ?_).symm
    have ha := Finset.mem_range.1 ha
    by_cases h1 : a < p.length
    · rw [List.getD_eq_default q _ (by omega), hc.zero, mul_zero]
    · rw [List.getD_eq_default p _ (by omega), hc.zero, zero_mul]

/-- The numerator of a Lagrange term is the product of the other points' linear factors (R133). -/
theorem polyOf_lagrangeNum {xs : List Nat} (hx : ∀ v ∈ xs, v < F.size) (i : Nat) :
    polyOf φ (F.lagrangeNum xs i) =
      ((othersOf xs.length i).map fun j => X - C (φ (xs.getD j 0))).prod := by
  unfold FieldDesc.lagrangeNum
  generalize othersOf xs.length i = js
  have key : ∀ (js p : List Nat), (∀ v ∈ p, v < F.size) →
      polyOf φ (js.foldl (fun num j => F.pmul num [F.fsub 0 (xs.getD j 0), 1]) p) =
        polyOf φ p * (js.map fun j => X - C (φ (xs.getD j 0))).prod := by
    intro js
    induction js with
    | nil => simp
    | cons j js ih =>
      intro p hp
      have h2 : ∀ v ∈ [F.fsub 0 (xs.getD j 0), 1], v < F.size := by
        intro v hvm
        rcases List.mem_cons.1 hvm with rfl | hvm
        · exact hv.fsub_lt hv.zero_lt (hv.getD_lt hx j)
        · rw [List.mem_singleton.1 hvm]; exact hv.one_lt
      rw [List.foldl_cons, ih _ (hv.pmul_lt hp h2), polyOf_pmul hv hc hp h2, List.map_cons, List.prod_cons, mul_assoc]
      congr 2
      simp only [polyOf, List.foldr_cons, List.foldr_nil, mul_zero, add_zero, hc.one, map_one, mul_one,
        hc.sub hv hv.zero_lt (hv.getD_lt hx j), hc.zero, zero_sub, map_neg]
      ring
  rw [key js [1] fun v hvm => by rw [List.mem_singleton.1 hvm]; exact hv.one_lt]
  simp [polyOf, hc.one]

/-- The denominator of a Lagrange term, and the product of a weight, is a product of differences (R133, R161). -/
theorem FieldDesc.Codes.lagrangeDen {xs : List Nat} (hx : ∀ v ∈ xs, v < F.size) (i : Nat) :
    φ (F.lagrangeDen xs i) = ((othersOf xs.length i).map fun j => φ (xs.getD i 0) - φ (xs.getD j 0)).prod := by
  unfold FieldDesc.lagrangeDen
  rw [hc.fprod hv]
  · rw [List.map_map]
    congr 1
    exact List.map_congr_left fun j _ => hc.sub hv (hv.getD_lt hx i) (hv.getD_lt hx j)
  · intro v hvm
    obtain ⟨j, -, rfl⟩ := List.mem_map.1 hvm
    exact hv.fsub_lt (hv.getD_lt hx i) (hv.getD_lt hx j)

end Polynomials

/-! Products of differences, weights, and the form of an interpolation. -/

theorem mem_othersOf {k i j : Nat} : j ∈ othersOf k i ↔ j < k ∧ j ≠ i := by simp [othersOf]

/-- A product of differences is 0 exactly when a point occurs twice (R134, R161). -/
theorem FieldDesc.Valid.lagrangeDen_eq_zero_iff {F : FieldDesc} (hv : F.Valid) {xs : List Nat}
    (hx : ∀ v ∈ xs, v < F.size) {i : Nat} :
    F.lagrangeDen xs i = 0 ↔ ∃ j, j < xs.length ∧ j ≠ i ∧ xs.getD i 0 = xs.getD j 0 := by
  obtain ⟨K, _, φ, hc⟩ := hv.exists_codes
  rw [← hc.eq_zero_iff hv (hv.lagrangeDen_lt hx i), hc.lagrangeDen hv hx, List.prod_eq_zero_iff, List.mem_map]
  constructor
  · rintro ⟨j, hj, h0⟩
    obtain ⟨h1, h2⟩ := mem_othersOf.1 hj
    exact ⟨j, h1, h2, hc.inj _ (hv.getD_lt hx i) _ (hv.getD_lt hx j) (sub_eq_zero.1 h0)⟩
  · rintro ⟨j, h1, h2, h3⟩
    exact ⟨j, mem_othersOf.2 ⟨h1, h2⟩, by rw [h3, sub_self]⟩

/-- Some product of differences is 0 exactly when the points are not distinct. -/
theorem FieldDesc.Valid.nodup_iff_lagrangeDen {F : FieldDesc} (hv : F.Valid) {xs : List Nat}
    (hx : ∀ v ∈ xs, v < F.size) : xs.Nodup ↔ ∀ i, i < xs.length → F.lagrangeDen xs i ≠ 0 := by
  constructor
  · intro hn i hi h0
    obtain ⟨j, hj, hji, he⟩ := (hv.lagrangeDen_eq_zero_iff hx).1 h0
    rw [List.getD_eq_getElem _ _ hi, List.getD_eq_getElem _ _ hj] at he
    exact hji ((List.Nodup.getElem_inj_iff hn).1 he).symm
  · intro h
    rw [List.nodup_iff_injective_getElem]
    intro i j hij
    by_contra hne
    refine h i i.2 ((hv.lagrangeDen_eq_zero_iff hx).2 ⟨j, j.2, fun hc => hne (Fin.ext hc.symm), ?_⟩)
    rw [List.getD_eq_getElem _ _ i.2, List.getD_eq_getElem _ _ j.2]
    exact hij

theorem allSome_eq_some {xs : List (Option Nat)} : ∀ {ys : List Nat}, allSome xs = some ys ↔ xs = ys.map some := by
  induction xs with
  | nil => intro ys; cases ys <;> simp [allSome]
  | cons x xs ih =>
    intro ys
    cases x with
    | none => cases ys <;> simp [allSome]
    | some x =>
      cases ys with
      | nil => simp [allSome]
      | cons y ys => simp [allSome, ← ih, and_comm]

/-- What the weights are, when there are weights (R161). -/
theorem FieldDesc.wfn_eq_some {F : FieldDesc} {points w : List Nat} : F.wfn points = some w ↔
    w.length = points.length ∧ ∀ i, i < points.length → F.finv (F.lagrangeDen points i) = some (w.getD i 0) := by
  rw [FieldDesc.wfn, allSome_eq_some]
  constructor
  · intro h
    have hl : w.length = points.length := by simpa using (congrArg List.length h).symm
    refine ⟨hl, fun i hi => ?_⟩
    have := congrArg (fun l => l[i]?) h
    simp only [List.getElem?_map, List.getElem?_range hi, Option.map_some,
      List.getElem?_eq_getElem (show i < w.length by omega), Option.some.injEq] at this
    rw [List.getD_eq_getElem _ _ (by omega)]
    exact this
  · rintro ⟨hl, h⟩
    refine List.ext_getElem (by simp [hl]) fun i h1 h2 => ?_
    have hi : i < points.length := by simpa using h1
    have := h i hi
    rw [List.getD_eq_getElem _ _ (by omega)] at this
    simp only [List.getElem_map, List.getElem_range]
    exact this

/-- Distinct points have weights, and they are canonical (R161). -/
theorem FieldDesc.Valid.wfn_of_nodup {F : FieldDesc} (hv : F.Valid) {points : List Nat}
    (hx : ∀ v ∈ points, v < F.size) (hn : points.Nodup) : ∃ w, F.wfn points = some w := by
  have h : ∀ i, i < points.length → ∃ b, F.finv (F.lagrangeDen points i) = some b := fun i hi => by
    obtain ⟨b, hb, -⟩ := hv.finv_spec (hv.lagrangeDen_lt hx i) ((hv.nodup_iff_lagrangeDen hx).1 hn i hi)
    exact ⟨b, hb⟩
  choose! b hb using h
  exact ⟨(List.range points.length).map b, FieldDesc.wfn_eq_some.2 ⟨by simp, fun i hi => by
    rw [hb i hi, getD_map_range, if_pos hi]⟩⟩

/-- Points that have weights are distinct, and the weights are canonical (R161). -/
theorem FieldDesc.Valid.wfn_spec {F : FieldDesc} (hv : F.Valid) {points w : List Nat} (hx : ∀ v ∈ points, v < F.size)
    (hw : F.wfn points = some w) : points.Nodup ∧ w.length = points.length ∧ ∀ v ∈ w, v < F.size := by
  obtain ⟨hl, h⟩ := FieldDesc.wfn_eq_some.1 hw
  refine ⟨(hv.nodup_iff_lagrangeDen hx).2 fun i hi => (hv.finv_eq_some (hv.lagrangeDen_lt hx i) (h i hi)).1, hl,
    fun v hvm => ?_⟩
  obtain ⟨i, hi, rfl⟩ := List.getElem_of_mem hvm
  have := (hv.finv_eq_some (hv.lagrangeDen_lt hx i) (h i (by omega))).2.1
  rwa [List.getD_eq_getElem _ _ hi] at this

/-- The loop of R133 keeps the accumulator canonical, and no shorter. -/
theorem FieldDesc.Valid.lagrangeSum_spec {F : FieldDesc} (hv : F.Valid) {xs ys : List Nat}
    (hx : ∀ v ∈ xs, v < F.size) (hy : ∀ v ∈ ys, v < F.size) : ∀ (is acc p : List Nat), (∀ v ∈ acc, v < F.size) →
    F.lagrangeSum xs ys is acc = some p → acc.length ≤ p.length ∧ ∀ v ∈ p, v < F.size := by
  intro is
  induction is with
  | nil => rintro acc p hacc h; cases h; exact ⟨le_rfl, hacc⟩
  | cons i is ih =>
    intro acc p hacc h
    unfold FieldDesc.lagrangeSum at h
    split at h
    · cases h
    · rename_i d hd
      have hdl := (hv.finv_eq_some (hv.lagrangeDen_lt hx i) hd).2.1
      obtain ⟨h1, h2⟩ := ih _ _ (hv.padd_lt hacc (hv.pscale_lt (hv.lagrangeNum_lt hx i)
        (hv.fmul_lt (hv.getD_lt hy i) hdl))) h
      rw [FieldDesc.length_padd] at h1
      exact ⟨by omega, h2⟩

/-- An interpolation has exactly `len xs` coefficients, all canonical (R133). -/
theorem FieldDesc.Valid.interpolate_spec {F : FieldDesc} (hv : F.Valid) {xs ys p : List Nat}
    (hx : ∀ v ∈ xs, v < F.size) (hy : ∀ v ∈ ys, v < F.size) (h : F.interpolate xs ys = some p) :
    p.length = xs.length ∧ ∀ v ∈ p, v < F.size := by
  obtain ⟨acc, h1, rfl⟩ := Option.map_eq_some_iff.1 h
  have h0 : ∀ v ∈ List.replicate xs.length 0, v < F.size := fun v hvm => by
    rw [(List.mem_replicate.1 hvm).2]; exact hv.zero_lt
  obtain ⟨h2, h3⟩ := hv.lagrangeSum_spec hx hy _ _ _ h0 h1
  simp only [List.length_replicate] at h2
  exact ⟨by simp [h2], fun v hvm => h3 v (List.mem_of_mem_take hvm)⟩

end Sys2Proof
end

