-- ==== Sys2Proof/Laws/Step.lean ====
section
/-! SUPPORT. What one step can do: the agent that moves, and what its move is. -/

namespace Sys2Proof.Machine

/-- The host's move on the port. -/
theorem transact_write (s : State) (wa : BitVec 14) (v : Word) :
    s.transact { we := true, waddr := wa, wdata := v } = s.memWrite wa v := rfl

theorem transact_read (s : State) (wa : BitVec 14) (v : Word) :
    s.transact { we := false, waddr := wa, wdata := v } = s.memRead wa := rfl

theorem memWrite_busy {s : State} (h : s.status.busy = true) (wa : BitVec 14) (v : Word) :
    s.memWrite wa v = { s with status := { s.status with wovr := true } } := by
  simp [State.memWrite, h]

theorem memWrite_idle {s : State} (h : s.status.busy = false) (wa : BitVec 14) (v : Word) :
    s.memWrite wa v = s.idleWrite (target s.cfg.nmax wa) v := by
  simp [State.memWrite, h]

/-- Everything an idle write can do (R64). -/
theorem idleWrite_cases (s : State) (t : Target) (v : Word) :
    (t = .reg .cmd ∧ s.idleWrite t v = accept v s) ∨
    (t = .reg .n ∧ s.idleWrite t v = State.clearWValid { s with n := v.setWidth 16 }) ∨
    (t = .reg .k ∧ s.idleWrite t v = { s with k := v.setWidth 16 }) ∨
    (∃ i, t = .elem .alpha i ∧ s.idleWrite t v = (s.setElem .alpha i v.toNat).clearWValid) ∨
    (∃ b i, t = .elem b i ∧ b ≠ .alpha ∧ b.hostWritable = true ∧ s.idleWrite t v = s.setElem b i v.toNat) ∨
    s.idleWrite t v = s := by
  cases t with
  | reg r => cases r <;> simp [State.idleWrite]
  | elem b i => cases b <;> simp [State.idleWrite, Buf.hostWritable]
  | errmapWord w => simp [State.idleWrite]
  | reserved => simp [State.idleWrite]

/-- An element target lies within its window (R62). -/
theorem target_elem_lt {nmax : Nat} {wa : BitVec 14} {b : Buf} {i : Nat} (h : target nmax wa = .elem b i) :
    i < nmax := by
  unfold target at h
  simp only at h
  split at h
  · split at h <;> cases h
  · split at h
    · split at h <;> cases h
    · split at h
      · split at h
        · cases h; assumption
        · cases h
      · cases h

/-- A read leaves the state of the core as it was: only the host's record of reads and the count of draws grow. -/
theorem memRead_eq (s : State) (wa : BitVec 14) :
    s.memRead wa = { s with reads := (s.memRead wa).reads, draws := (s.memRead wa).draws } := by
  unfold State.memRead; split <;> rfl

/-- Everything a move of the host can do to the state: nothing, a read, or a write. -/
theorem hostTurn_cases {s t : State} (h : hostTurn s = .next t) :
    t = s ∨
    (s.rst = false ∧ ∃ wa, t = { s.memRead wa with program := t.program }) ∨
    (s.rst = false ∧ ∃ rest wa v, s.program = .wr (byteOffset wa) v :: rest ∧
      t = State.memWrite { s with program := rest } wa v) := by
  unfold hostTurn at h
  split at h
  · cases h; exact .inl rfl
  · rename_i hr
    have hr : s.rst = false := by simpa using hr
    split at h
    · cases h; exact .inl rfl
    · rename_i op rest hp
      cases op with
      | wait =>
        simp only [hostAct] at h
        cases h
        refine .inr (.inl ⟨hr, 0x0004, ?_⟩)
        unfold State.pollDone
        simp only
        split
        · rfl
        · rw [show (s.memRead 4).program = s.program from memRead_program s 4]
          rw [memRead_eq]
      | wr a v =>
        simp only [hostAct, HostOp.transaction] at h
        cases hw : waddrOf a with
        | none => rw [hw] at h; cases h
        | some wa =>
          rw [hw] at h
          cases h
          exact .inr (.inr ⟨hr, rest, wa, v, by rw [hp, waddrOf_eq_some hw], rfl⟩)
      | rd a =>
        simp only [hostAct, HostOp.transaction] at h
        cases hw : waddrOf a with
        | none => rw [hw] at h; cases h
        | some wa =>
          rw [hw] at h
          cases h
          refine .inr (.inl ⟨hr, wa, ?_⟩)
          simp only [State.transact, Bool.false_eq_true, if_false]
          unfold State.memRead
          have : State.readTarget { s with program := rest } = s.readTarget := rfl
          simp only [this]
          split <;> rfl

/-- A command in progress is completed by the core's turn, and by nothing else (R240). -/
theorem coreTurn_enabled {s : State} (hb : s.status.busy = true) (hr : s.rst = false) : coreTurn s = coreStep s := by
  simp [coreTurn, State.coreEnabled, hb, hr]

theorem coreTurn_disabled {s : State} (h : s.status.busy = false ∨ s.rst = true) : coreTurn s = .next s := by
  rcases h with h | h <;> simp [coreTurn, State.coreEnabled, h]

/-- The core step is one command's completion, or the abort of an illegal word. -/
theorem coreStep_cases (s : State) :
    (∃ i, decode s.cmdlatch = .ok i ∧ coreStep s = exec i s) ∨
    (∃ e, decode s.cmdlatch = .error e ∧ coreStep s = .next (abort .illegalCommand s)) := by
  unfold coreStep
  cases h : decode s.cmdlatch with
  | ok i => exact .inl ⟨i, rfl, rfl⟩
  | error e => exact .inr ⟨e, rfl, rfl⟩

/-- Everything one step can do. -/
theorem step_cases {s t : State} (h : step s = .next t) :
    (s.mover = .host ∧ hostTurn s.popTurn = .next t) ∨
    (s.mover = .core ∧ s.status.busy = true ∧ s.rst = false ∧ coreStep s.popTurn = .next t) ∨
    (s.mover = .core ∧ (s.status.busy = false ∨ s.rst = true) ∧ t = s.popTurn) ∨
    (s.mover = .assertRst ∧ t = s.popTurn.assertReset) ∨
    (s.mover = .releaseRst ∧ t = s.popTurn.releaseReset) := by
  unfold step at h
  cases hm : s.mover with
  | host => rw [hm] at h; exact .inl ⟨rfl, h⟩
  | core =>
    rw [hm] at h
    simp only [coreTurn] at h
    split at h
    · rename_i he
      simp only [State.coreEnabled, Bool.and_eq_true, Bool.not_eq_true', popTurn_status, popTurn_rst] at he
      exact .inr (.inl ⟨rfl, he.1, he.2, h⟩)
    · rename_i he
      cases h
      refine .inr (.inr (.inl ⟨rfl, ?_, rfl⟩))
      simp only [State.coreEnabled, Bool.and_eq_true, Bool.not_eq_true', popTurn_status, popTurn_rst, not_and] at he
      cases hb : s.status.busy
      · exact .inl rfl
      · exact .inr (by simpa using he hb)
  | assertRst => rw [hm] at h; cases h; exact .inr (.inr (.inr (.inl ⟨rfl, rfl⟩)))
  | releaseRst => rw [hm] at h; cases h; exact .inr (.inr (.inr (.inr ⟨rfl, rfl⟩)))

end Sys2Proof.Machine
end

