-- ==== Sys2Proof/Laws/Port.lean ====
section
/-! SUPPORT. The port seen from a byte offset: which target an aligned offset selects, and what the host's transactions at it do
to the state. -/

namespace Sys2Proof.Machine

/-- The word address of an aligned byte offset, as a number. -/
theorem waddr_toNat (a : BitVec 16) : (BitVec.ofNat 14 (a.toNat / 4)).toNat = a.toNat / 4 := by
  have := a.isLt
  simp only [BitVec.toNat_ofNat]
  omega

/-- What `target` answers, by the block and the index of the word address. -/
theorem target_eq (nmax : Nat) (a : BitVec 16) : target nmax (BitVec.ofNat 14 (a.toNat / 4)) =
    if a.toNat / 4 / 1024 = 0 then
      match regAt (a.toNat / 4 % 1024) with
      | some r => .reg r
      | none => .reserved
    else if a.toNat / 4 / 1024 = 9 then
      if a.toNat / 4 % 1024 < errmapWords nmax then .errmapWord (a.toNat / 4 % 1024) else .reserved
    else
      match bufAt (a.toNat / 4 / 1024) with
      | some b => if a.toNat / 4 % 1024 < nmax then .elem b (a.toNat / 4 % 1024) else .reserved
      | none => .reserved := by
  unfold target
  rw [waddr_toNat] <;> rfl

theorem regAt_index (r : RegName) : regAt r.index = some r := by cases r <;> rfl
theorem regAt_eq_some {i : Nat} {r : RegName} (h : regAt i = some r) : i = r.index := by
  unfold regAt at h
  split at h <;> cases h <;> rfl
theorem RegName.index_le (r : RegName) : r.index ≤ 12 := by cases r <;> decide
theorem bufAt_base (b : Buf) : bufAt (b.base / 4096) = some b := by cases b <;> rfl
theorem bufAt_eq_some {k : Nat} {b : Buf} (h : bufAt k = some b) : 4096 * k = b.base ∧ 1 ≤ k ∧ k ≤ 8 := by
  unfold bufAt at h
  split at h <;> cases h <;> exact ⟨rfl, by omega, by omega⟩

/-- The offsets of the registers (R62). -/
theorem target_reg (nmax : Nat) {a : BitVec 16} {r : RegName} (h : a.toNat = 4 * r.index) :
    target nmax (BitVec.ofNat 14 (a.toNat / 4)) = .reg r := by
  have hr := RegName.index_le r
  rw [target_eq, h, Nat.mul_div_cancel_left _ (by omega), if_pos (by omega), Nat.mod_eq_of_lt (by omega), regAt_index]

/-- The offsets of the elements (R62). -/
theorem target_elem {nmax : Nat} (hn : nmax ≤ 1023) {a : BitVec 16} {b : Buf} {i : Nat} (hi : i < nmax)
    (h : a.toNat = elemAddr b i) : target nmax (BitVec.ofNat 14 (a.toNat / 4)) = .elem b i := by
  obtain ⟨k, hk1, hk8, hk⟩ := Buf.base_eq b
  have h1 : a.toNat / 4 = 1024 * k + i := by rw [h, elemAddr, hk]; omega
  have h2 : (1024 * k + i) / 1024 = k := by omega
  have h3 : (1024 * k + i) % 1024 = i := by omega
  have hb : bufAt k = some b := by
    have := bufAt_base b
    rwa [hk, show 4096 * k / 4096 = k by omega] at this
  rw [target_eq, h1, h2, h3, if_neg (by omega), if_neg (by omega), hb]
  simp [hi]

/-- The offsets of the words of ERRMAP (R62). -/
theorem target_errmap {nmax : Nat} (hn : nmax ≤ 1023) {a : BitVec 16} {w : Nat} (hw : w < errmapWords nmax)
    (h : a.toNat = 0x9000 + 4 * w) : target nmax (BitVec.ofNat 14 (a.toNat / 4)) = .errmapWord w := by
  have hw' : w < 1024 := by unfold errmapWords at hw; omega
  have h1 : a.toNat / 4 = 1024 * 9 + w := by rw [h]; omega
  rw [target_eq, h1, show (1024 * 9 + w) / 1024 = 9 by omega, show (1024 * 9 + w) % 1024 = w by omega]
  simp [hw]

/-- Every other offset is reserved (R62, R68). -/
theorem target_reserved {nmax : Nat} {a : BitVec 16} (ha : a.toNat % 4 = 0) (h1 : ∀ r : RegName, a.toNat ≠ 4 * r.index)
    (h2 : ∀ b i, i < nmax → a.toNat ≠ elemAddr b i) (h3 : ∀ w, w < errmapWords nmax → a.toNat ≠ 0x9000 + 4 * w) :
    target nmax (BitVec.ofNat 14 (a.toNat / 4)) = .reserved := by
  rw [target_eq]
  split
  · split
    · rename_i r hr
      exact absurd (by have := regAt_eq_some hr; omega) (h1 r)
    · rfl
  · split
    · split
      · rename_i hw
        exact absurd (by omega) (h3 _ hw)
      · rfl
    · split
      · rename_i b hb
        split
        · rename_i hi
          obtain ⟨h4, -, -⟩ := bufAt_eq_some hb
          exact absurd (by unfold elemAddr; omega) (h2 b _ hi)
        · rfl
      · rfl

/-- A step of the host, when it has the turn and an action left. -/
theorem step_of_hostDoes {s : State} {op : HostOp} {rest : List HostOp} (h : s.HostDoes op rest) :
    step s = hostAct op rest s.popTurn := by
  obtain ⟨h1, h2, h3⟩ := h
  unfold step
  rw [h1]
  simp [hostTurn, h2, h3]

/-- A write of the host at an aligned offset is one MemWrite. -/
theorem step_write {s : State} {a : BitVec 16} {v : Word} {rest : List HostOp} (h : s.HostDoes (.wr a v) rest)
    (ha : a.toNat % 4 = 0) : step s = .next (State.memWrite (s.hostUsed rest) (BitVec.ofNat 14 (a.toNat / 4)) v) := by
  rw [step_of_hostDoes h]
  simp only [hostAct, HostOp.transaction, waddrOf, ha, if_true, Option.map_some]
  rfl

/-- A read of the host at an aligned offset is one MemRead. -/
theorem step_read {s : State} {a : BitVec 16} {rest : List HostOp} (h : s.HostDoes (.rd a) rest)
    (ha : a.toNat % 4 = 0) : step s = .next (State.memRead (s.hostUsed rest) (BitVec.ofNat 14 (a.toNat / 4))) := by
  rw [step_of_hostDoes h]
  simp only [hostAct, HostOp.transaction, waddrOf, ha, if_true, Option.map_some]
  rfl

/-- A read whose value the spec fixes returns it (R65, R67). -/
theorem memRead_some {s : State} {wa : BitVec 14} {v : Word} (h : s.readTarget (target s.cfg.nmax wa) = some v) :
    s.memRead wa = { s with reads := v :: s.reads } := by
  unfold State.memRead; rw [h]

/-- Any other read is a draw (R52, R67). -/
theorem memRead_none {s : State} {wa : BitVec 14} (h : s.readTarget (target s.cfg.nmax wa) = none) :
    s.memRead wa = { s with reads := Config.freeRead s.draws :: s.reads, draws := s.draws + 1 } := by
  unfold State.memRead; rw [h]

/-- Bit 1 of the STATUS word is DONE (R26). -/
theorem toWord_done (st : Status) : st.toWord.getLsbD 1 = st.done := by
  obtain ⟨a, b, c, d, e, f⟩ := st
  cases a <;> cases b <;> cases c <;> cases d <;> cases f <;> revert e <;> decide

/-- A step whose turn is the core's completes the command in progress (R240). -/
theorem step_of_core {s : State} (hm : s.mover = .core) (hb : s.status.busy = true) (hr : s.rst = false) :
    step s = coreStep s.popTurn := by
  unfold step
  rw [hm]
  exact coreTurn_enabled (s := s.popTurn) hb hr

end Sys2Proof.Machine
end

