-- ==== Sys2Proof/Tests/Slice0.lean ====
section
/-! SUPPORT. Tests on small states, with expected values from spec/95_test_vectors.md and the worked examples of the rules; the
smoke test of WellFormed; and, for every statement with hypotheses, a witness that they can be met together. -/

namespace Sys2Proof.Tests

open Sys2Proof Sys2Proof.Machine

-- One theorem at a time: a thread for each of these small kernel evaluations runs into the memory limit.
set_option Elab.async false

/-! Small states. -/

/-- GF(7) with NMAX = 16, the parameters of most vectors. -/
def c7 : Config := { field := .prime 7, nmax := 16 }

/-- GF(4) with the elements 0, 1, x, x+1 coded 0, 1, 2, 3: a field that is not prime, as operation tables. -/
def gf4 : FieldDesc :=
  .table [[0, 1, 2, 3], [1, 0, 3, 2], [2, 3, 0, 1], [3, 2, 1, 0]]
    [[0, 0, 0, 0], [0, 1, 2, 3], [0, 2, 3, 1], [0, 3, 1, 2]]

/-- A core over GF(7) with a geometry and some buffers written. -/
def core7 (n k : Nat) (bufs : List (Buf × List Nat)) : State :=
  bufs.foldl (fun s b => s.setElems b.1 b.2)
    { State.resetOf c7 with n := BitVec.ofNat 16 n, k := BitVec.ofNat 16 k }

/-- The first elements of a buffer, as codes. -/
def codesOf (s : State) (b : Buf) (len : Nat) : List (Option Nat) :=
  (List.range len).map fun i => (s.elem b i).map BitVec.toNat

/-- What one move gives, seen through `f`; `none` when it stops. -/
def seen (o : Host.Outcome State Fault Refusal) (f : State → α) : Option α :=
  match o with
  | .next t => some (f t)
  | .fault _ => none
  | .refused _ => none

/-- Did a move give a next state that meets `p`? -/
def gives (o : Host.Outcome State Fault Refusal) (p : State → Bool) : Bool :=
  match o with
  | .next t => p t
  | .fault _ => false
  | .refused _ => false

theorem exists_next_of_gives {o : Host.Outcome State Fault Refusal} {p : State → Bool} (h : gives o p = true) :
    ∃ t, o = .next t ∧ p t = true := by
  cases o with
  | next t => exact ⟨t, rfl, h⟩
  | fault e => exact absurd h (by simp [gives])
  | refused e => exact absurd h (by simp [gives])

/-- The host about to take one action. -/
def hostAbout (s : State) (op : HostOp) : State := { s with program := [op] }

/-- A command in progress. -/
def inProgress (s : State) : State := { s with status := { s.status with busy := true } }

/-! Decoding: words written out from R90 and R92, OP in [7:0] and RSV in [31:8]. -/

theorem test_decode_nop : decode 0b00000000000000000000000000000000 = .ok .nop := rfl
theorem test_decode_encode : decode 0b00000000000000000000000000000001 = .ok .encode := rfl
theorem test_decode_weights : decode 0b00000000000000000000000000000010 = .ok .weights := rfl
theorem test_decode_syndrome : decode 0b00000000000000000000000000000011 = .ok .syndrome := rfl
theorem test_decode_bmsyn : decode 0b00000000000000000000000000000100 = .ok .bmsyn := rfl
theorem test_decode_roots : decode 0b00000000000000000000000000000101 = .ok .roots := rfl
theorem test_decode_recover : decode 0b00000000000000000000000000000110 = .ok .recover := rfl
theorem test_decode_decode : decode 0b00000000000000000000000000000111 = .ok .decode := rfl
theorem test_decode_reserved : decode 0b00000000000000000000000100000111 = .error .reservedNonzero := rfl
theorem test_decode_unassigned : decode 0b00000000000000000000000000001000 = .error .unassignedOpcode := rfl
theorem test_table_word : decodeTableWord 32 7 = some .decode := rfl

/-! WellFormed: one ill-formed term for each check. -/

theorem test_wf_index : Window.indexWf 16 (.buf .alpha) 16 = false := by decide
theorem test_wf_errmap_index : Window.indexWf 16 .errmap 1 = false := by decide
theorem test_wf_offset : Loc.wf 16 (.offset 0x0002) = false := by decide
theorem test_wf_literal : literalWf (2 ^ 32) = false := by decide
theorem test_wf_value : AsmValue.wf (.lit (2 ^ 32)) = false := by decide
theorem test_wf_write : AsmLine.wf 16 (.wr (.elem (.buf .cw) 16) (.lit 1)) = false := by decide
theorem test_wf_read : AsmLine.wf 16 (.rd (.elem .errmap 1)) = false := by decide
theorem test_wf_expect : AsmLine.wf 16 (.rdExpect (.reg .status) (2 ^ 32)) = false := by decide
theorem test_wf_load_empty : AsmLine.wf 16 (.load (.buf .msg) []) = false := by decide
theorem test_wf_load_long : AsmLine.wf 2 (.load (.buf .msg) [1, 2, 3]) = false := by decide
theorem test_wf_geometry : AsmLine.wf 16 (.geom (2 ^ 32) 1) = false := by decide
theorem test_wf_nmax : Config.nmaxWf { field := .prime 7, nmax := 1024 } = false := by decide
theorem test_wf_accepts : AsmLine.wf 16 (.load (.buf .alpha) [1, 2, 3]) = true := by decide

/-! Field and polynomials: V-F-*, V-P-* (R121-R134); GF(4): x * x = x + 1, 1/x = x + 1. -/

theorem test_field_31 : let F := FieldDesc.prime 31
    (F.fadd 30 5, F.fsub 3 10, F.fmul 7 9, F.fpow 3 30, F.fpow 0 0, F.fpow 0 5) = (4, 24, 1, 1, 1, 0) := by
  decide +kernel
theorem test_finv_31 : let F := FieldDesc.prime 31
    [F.finv 7, F.finv 1, F.finv 30, F.finv 2, F.finv 0] = [some 9, some 1, some 30, some 16, none] := by
  decide +kernel
theorem test_field_2 : ((FieldDesc.prime 2).fadd 1 1, (FieldDesc.prime 2).finv 1) = (0, some 1) := by decide +kernel
theorem test_gf4 : (gf4.fmul 2 2, gf4.fadd 2 1, gf4.finv 2, gf4.fsub 1 3, gf4.ew) = (3, 3, some 3, 2, 2) := by
  decide +kernel
theorem test_poly_7 : let F := FieldDesc.prime 7
    (F.peval [3, 0, 2] 5, F.padd [1, 2] [6, 6, 6], F.psub [1, 2] [3], F.pmul [1, 2, 3] [4], pshift [1, 2] 2)
      = (4, [0, 1, 6], [5, 2], [4, 1, 5], [0, 0, 1, 2]) := by decide +kernel
theorem test_interpolate_7 : let F := FieldDesc.prime 7
    (F.interpolate [1, 2, 3] [2, 3, 4], F.interpolate [0, 1] [4, 5], F.interpolate [2, 2] [1, 1])
      = (some [1, 1, 0], some [4, 1], none) := by decide +kernel

/-! Commands, one step each. -/

/-- V-CTL-1: from STATUS = 0x114, NOP accepted and completed leaves 0x102. -/
theorem test_nop : seen (exec .nop (accept (encode .nop)
    { State.resetOf c7 with status := { Status.reset with wovr := true, err := 1, wValid := true } }))
    (fun t => t.status.toWord) = some 0x102 := by decide +kernel

/-- V-ENC-5: a zero point gives MSG[0]. -/
theorem test_encode : seen (exec .encode (core7 4 2 [(.alpha, [0, 1, 2, 3]), (.msg, [3, 2])]))
    (fun t => (codesOf t .cw 5, t.status.toWord)) = some ([some 3, some 5, some 0, some 2, none], 0x002) := by
  decide +kernel
/-- V-ENC-10: code 7 in GF(7) is stored and non-canonical. -/
theorem test_encode_range : seen (exec .encode (core7 3 2 [(.alpha, [1, 2, 3]), (.msg, [7, 1])]))
    (fun t => (codesOf t .cw 1, t.status.toWord)) = some ([none], 0x032) := by decide +kernel

/-- V-W-2. -/
theorem test_weights : seen (exec .weights (core7 4 2 [(.alpha, [0, 1, 2, 3])]))
    (fun t => (codesOf t .w 4, t.status.toWord)) = some ([some 1, some 4, some 3, some 6], 0x102) := by decide +kernel
/-- V-W-5: two equal points. -/
theorem test_weights_div0 : seen (exec .weights (core7 3 1 [(.alpha, [2, 2, 3])]))
    (fun t => (codesOf t .w 1, t.status.toWord)) = some ([none], 0x042) := by decide +kernel

/-- V-SYN-7: an error at the zero point shows in S[0] alone. -/
theorem test_syndrome : seen (exec .syndrome (core7 4 2 [(.alpha, [0, 1, 2, 3]), (.cw, [4, 5, 0, 2])]))
    (fun t => (codesOf t .s 3, codesOf t .w 4, t.status.toWord))
      = some ([some 1, some 0, none], [some 1, some 4, some 3, some 6], 0x102) := by decide +kernel
/-- V-SYN-6: with K = N the weights are still computed. -/
theorem test_syndrome_div0 : seen (exec .syndrome (core7 3 3 [(.alpha, [2, 2, 3]), (.cw, [1, 1, 1])]))
    (fun t => t.status.toWord) = some 0x042 := by decide +kernel

/-- V-BM-2: a growth after a zero discrepancy. -/
theorem test_bmsyn : seen (exec .bmsyn (core7 3 1 [(.s, [0, 3])]))
    (fun t => (codesOf t .lambda 4, codesOf t .bpoly 3, t.bmL, t.bmM, t.bmB))
      = some ([some 1, some 0, some 4, none], [some 1, some 0, some 0], 2, 1, 3) := by decide +kernel
/-- V-BM-12 and its trace: GF(31), 4 errors, all three cases of a step. -/
theorem test_bm_31 : (FieldDesc.prime 31).bm [13, 5, 18, 16, 11, 1] =
    some { lam := [1, 7, 22, 14, 0, 0, 0], aux := [1, 7, 15, 0, 0, 0, 0], len := 3, shift := 2, last := 21 } := by
  decide +kernel

/-- V-ROOT-4: a zero point is skipped. -/
theorem test_roots : seen (exec .roots (core7 4 2 [(.alpha, [0, 1, 2, 3]), (.lambda, [1, 6, 0])]))
    (fun t => (t.errmapWord 0, t.nerr)) = some (0x2, 1) := by decide +kernel
/-- V-ROOT-5: the roots of 1 - x^2. -/
theorem test_roots_pair : seen (exec .roots (core7 6 4 [(.alpha, [1, 2, 3, 4, 5, 6]), (.lambda, [1, 0, 6])]))
    (fun t => (t.errmapWord 0, t.nerr)) = some (0x21, 2) := by decide +kernel

/-- V-REC-7: the first K valid positions, a zero point among them. -/
theorem test_recover : seen (exec .recover
    ((core7 4 2 [(.alpha, [0, 1, 2, 3]), (.cw, [3, 5, 1, 2])]).setErrors [2]))
    (fun t => (codesOf t .dec 3, t.status.toWord)) = some ([some 3, some 2, none], 0x002) := by decide +kernel
/-- V-REC-4: too few valid positions, and no DIV0 for the equal points. -/
theorem test_recover_insufficient : seen (exec .recover
    ((core7 3 2 [(.alpha, [2, 2, 3]), (.cw, [2, 3, 4])]).setErrors [0, 1]))
    (fun t => (codesOf t .dec 2, t.status.toWord, t.nerr)) = some ([some 0, some 0], 0x00A, 2) := by decide +kernel

/-- V-DEC-1. -/
theorem test_decode_command : seen (exec .decode (core7 3 1 [(.alpha, [1, 2, 3]), (.cw, [5, 6, 5])]))
    (fun t => (codesOf t .dec 2, codesOf t .lambda 3, [t.errmapWord 0, t.nerr.setWidth 32, t.bmB, t.status.toWord]))
      = some ([some 5, none], [some 1, some 5, some 0], [0x2, 1, 6, 0x102]) := by decide +kernel
/-- V-DEC-4: the undetected error at a zero point. -/
theorem test_decode_zero_point : seen (exec .decode (core7 4 2 [(.alpha, [0, 1, 2, 3]), (.cw, [4, 5, 0, 2])]))
    (fun t => (codesOf t .dec 2, t.errmapWord 0, t.bmM)) = some ([some 4, some 1], 0, 2) := by decide +kernel

/-- V-CTL-4: OP = NOP with RSV ≠ 0 is no NOP. -/
theorem test_illegal : seen (step ((State.resetOf c7).withFetchWord 32 0x100)) (fun t => t.status.toWord) = some 0x012 := by
  decide +kernel
/-- The first step after reset runs the placed command; its geometry is 0, 0 (R283). -/
theorem test_fetch_encode : seen (step (State.reset.withFetchWord 32 1)) (fun t => (t.status.toWord, t.cmdlatch))
    = some (0x022, 1) := by decide +kernel

/-- R52: an operand that holds no value. -/
theorem test_unwritten : exec .weights (core7 3 1 [(.alpha, [1, 2])]) = .fault (.unwrittenElement .alpha 2) := rfl

/-! The port: V-MEM-1, V-MEM-2, V-MEM-8, V-CTL-6. -/

theorem test_write_n : seen (step (hostAbout (State.resetOf c7) (.wr 0x0014 0x12345)))
    (fun t => t.readReg .n) = some 0x2345 := by decide +kernel
theorem test_write_alpha : seen (step (hostAbout (State.resetOf c7) (.wr 0x1000 0xFFFFFFF9)))
    (fun t => t.elem .alpha 0) = some (some 1) := by decide +kernel
theorem test_read_cfg : (cfgWord referenceConfig, cfgWord c7) = (0x00450010, 0x00430010) := by decide +kernel
/-- R22: PRIME is 1 for GF(2) written as tables, 0 for GF(4). -/
theorem test_cfg_tables : (cfgWord { field := .table [[0, 1], [1, 0]] [[0, 0], [0, 1]], nmax := 16 },
    cfgWord { field := gf4, nmax := 16 }) = (0x00410010, 0x00020010) := by decide +kernel
/-- R294, R24: what is observed has every register, and CMD reads 0. -/
theorem test_observe_registers : (accept 7 (core7 3 1 [])).observe.regs.map (fun r => (r.1.index, decide (r.1 = .cmd → r.2 = 0)))
    = (List.range 13).map (fun i => (i, true)) := by decide +kernel
theorem test_read_beyond : seen (step (hostAbout (State.resetOf c7) (.rd 0x1040))) (fun t => t.reads) = some [0] := by
  decide +kernel
theorem test_busy_write : seen (step { hostAbout (inProgress (core7 3 2 [])) (.wr 0x0018 5) with schedule := [.host] })
    (fun t => (t.k, t.status.wovr, t.status.busy)) = some (2, true, true) := by decide +kernel
theorem test_misaligned : step (hostAbout State.reset (.rd 0x0002)) = .refused (.misalignedOffset 0x0002) := rfl
theorem test_geom_expand : (AsmLine.geom 10 4).expand.map HostOp.transaction =
    [some ⟨true, 0x0005, 0x0000000A⟩, some ⟨true, 0x0006, 0x00000004⟩] := by decide +kernel

/-! Witnesses. For every statement with hypotheses, values that meet them together. -/

theorem c7_valid : c7.Valid := ⟨⟨by decide, show Nat.Prime 7 by decide⟩, by decide, by decide⟩

theorem gf4_isField : gf4.IsField where
  one_lt := by decide
  add_lt := by decide
  mul_lt := by decide
  add_comm := by decide
  add_assoc := by decide
  add_zero := by decide
  add_neg := by decide
  mul_comm := by decide
  mul_assoc := by decide
  mul_one := by decide
  mul_inv := by decide
  distrib := by decide

/-- A FIELD that is not prime meets `Valid` too. -/
theorem gf4_valid : gf4.Valid := ⟨by decide, by decide, by decide, by decide, gf4_isField⟩

/-- Four points, one of them 0, a message and a received word with one error. -/
def s4 : State := core7 4 2 [(.alpha, [0, 1, 2, 3]), (.msg, [3, 2]), (.cw, [3, 5, 1, 2]), (.s, [3, 6]), (.lambda, [1, 5, 0])]

theorem s4_geometry : s4.GeometryOk := by unfold State.GeometryOk; decide +kernel
theorem s4_valid : s4.cfg.Valid := c7_valid
theorem s4_idle : s4.status.busy = false ∧ s4.mover = .host ∧ s4.rst = false := by decide +kernel
/-- An idle core, not in reset, meets the premises of the statements about what the host does. -/
theorem hostAbout_meets {s : State} (op : HostOp) (h : s.status.busy = false ∧ s.mover = .host ∧ s.rst = false)
    (hv : s.cfg.Valid) : ∃ t : State, t.HostDoes op [] ∧ t.status.busy = false ∧ t.cfg.Valid :=
  ⟨hostAbout s op, ⟨h.2.1, h.2.2, rfl⟩, h.1, hv⟩
theorem s4_alpha : s4.Operand .alpha s4.len [0, 1, 2, 3] := readCanonical_eq_ok (by decide +kernel)
theorem s4_msg : s4.Operand .msg s4.dim [3, 2] := readCanonical_eq_ok (by decide +kernel)
theorem s4_cw : s4.Operand .cw s4.len [3, 5, 1, 2] := readCanonical_eq_ok (by decide +kernel)
theorem s4_s : s4.Operand .s (s4.len - s4.dim) [3, 6] := readCanonical_eq_ok (by decide +kernel)
theorem s4_lambda : s4.Operand .lambda (s4.len - s4.dim + 1) [1, 5, 0] := readCanonical_eq_ok (by decide +kernel)
theorem s4_cache : s4.CacheRight [0, 1, 2, 3] := fun h => absurd h (by decide +kernel)

/-- The same with the weights cached. -/
def s4w : State := s4.commitWeights [1, 4, 3, 6]

theorem s4w_cache : s4w.status.wValid = true ∧ s4w.CacheRight [0, 1, 2, 3] := by
  refine ⟨by decide +kernel, fun _ => ⟨[1, 4, 3, 6], by decide +kernel, ?_⟩⟩
  exact (readElems_eq_ok (s := s4w) (b := .w) (len := 4) (vs := [1, 4, 3, 6]) (by decide +kernel)).2.1

/-- Two equal points. -/
def s3d : State := core7 3 2 [(.alpha, [2, 2, 3]), (.cw, [2, 3, 4])]

theorem s3d_alpha : s3d.Operand .alpha s3d.len [2, 2, 3] := readCanonical_eq_ok (by decide +kernel)
theorem s3d_cw : s3d.Operand .cw s3d.len [2, 3, 4] := readCanonical_eq_ok (by decide +kernel)
theorem s3d_geometry : s3d.GeometryOk := by unfold State.GeometryOk; decide +kernel

/-- Four distinct nonzero points, and a received word with one error. -/
def s4z : State := core7 4 2 [(.alpha, [1, 2, 3, 4]), (.msg, [3, 2]), (.cw, [5, 0, 3, 4])]

theorem witness_StepRunsDecodedCommand : ∃ (s : State) (i : Instr), s.mover = .core ∧ s.status.busy = true ∧
    s.rst = false ∧ decode s.cmdlatch = .ok i := ⟨inProgress s4, .nop, by decide +kernel, rfl, rfl, rfl⟩
theorem witness_withFetchWord : ∃ nbits w i, decodeTableWord nbits w = some i := ⟨32, 7, .decode, rfl⟩
theorem witness_StepRunsDecodedCommand_idle : (∃ s : State, s.mover = .core ∧ s.status.busy = false ∧ s.rst = false) ∧
    ∃ s : State, s.mover = .host ∧ s.program = [] ∧ s.schedule ≠ [] :=
  ⟨⟨{ s4 with schedule := [.core] }, rfl, rfl, rfl⟩, ⟨{ s4 with schedule := [.host] }, rfl, rfl, by decide +kernel⟩⟩
theorem witness_IllegalWordAborts_reserved : ∃ s : State, s.mover = .core ∧ s.status.busy = true ∧ s.rst = false ∧
    s.cmdlatch.toNat / 256 ≠ 0 ∧ s.cmdlatch.toNat % 256 < 8 :=
  ⟨inProgress (accept 0x100 s4), by decide +kernel, rfl, rfl, by decide +kernel, by decide +kernel⟩
theorem witness_IllegalWordAborts_opcode : ∃ s : State, s.mover = .core ∧ s.status.busy = true ∧ s.rst = false ∧
    s.cmdlatch.toNat / 256 = 0 ∧ 8 ≤ s.cmdlatch.toNat % 256 :=
  ⟨inProgress (accept 0x08 s4), by decide +kernel, rfl, rfl, by decide +kernel, by decide +kernel⟩
theorem witness_AcceptanceLatchesAnyWord : ∃ (s : State) (v : Word) (rest : List HostOp),
    s.HostDoes (.wr 0x000C v) rest ∧ s.status.busy = false := ⟨hostAbout s4 (.wr 0x000C 0x107), 0x107, [], ⟨rfl, rfl, rfl⟩, rfl⟩
theorem witness_BusyWritesAreDropped : ∃ (s : State) (a : BitVec 16) (v : Word) (rest : List HostOp),
    s.HostDoes (.wr a v) rest ∧ a.toNat % 4 = 0 ∧ s.status.busy = true :=
  ⟨{ hostAbout (inProgress s4) (.wr 0x000C 1) with schedule := [.host] }, 0x000C, 1, [], ⟨rfl, rfl, rfl⟩, by decide, rfl⟩
/-- IdleWriteEffects, for every aligned offset: CMD, N, K, an element, a read-only element, beyond a window. -/
theorem witness_IdleWriteEffects : ∀ a : BitVec 16, a.toNat % 4 = 0 →
    ∃ (s : State) (v : Word) (rest : List HostOp), s.HostDoes (.wr a v) rest ∧ a.toNat % 4 = 0 ∧
      s.status.busy = false ∧ s.cfg.Valid := by
  intro a ha
  obtain ⟨t, h, hb, hv⟩ := hostAbout_meets (.wr a 1) s4_idle s4_valid
  exact ⟨t, 1, [], h, ha, hb, hv⟩
theorem witness_IdleWriteEffects_element : (0x103C : BitVec 16).toNat = elemAddr .alpha 15 ∧ 15 < s4.cfg.nmax := by
  decide +kernel
theorem witness_IdleWriteEffects_otherwise : ∀ b i, b = .alpha ∨ b = .cw ∨ b = .msg ∨ b = .s ∨ b = .lambda →
    i < s4.cfg.nmax → (0x1040 : BitVec 16).toNat ≠ elemAddr b i := by
  rintro b i (rfl | rfl | rfl | rfl | rfl) (hi : i < 16) <;> simp [elemAddr, Buf.base] <;> omega
/-- IdleReadsReturnCurrentValues, for every aligned offset; then a value under each clause, at the ends of the ranges. -/
theorem witness_IdleReads : ∀ a : BitVec 16, a.toNat % 4 = 0 →
    ∃ (s : State) (rest : List HostOp), s.HostDoes (.rd a) rest ∧ a.toNat % 4 = 0 ∧ s.status.busy = false ∧
      s.cfg.Valid := by
  intro a ha
  obtain ⟨t, h, hb, hv⟩ := hostAbout_meets (.rd a) s4_idle s4_valid
  exact ⟨t, [], h, ha, hb, hv⟩
theorem witness_IdleReads_clauses : (0x0030 : BitVec 16).toNat = 4 * RegName.nerr.index ∧
    (0x100C : BitVec 16).toNat = elemAddr .alpha 3 ∧ s4.elem .alpha 3 = some 3 ∧
    (0x103C : BitVec 16).toNat = elemAddr .alpha 15 ∧ s4.elem .alpha 15 = none ∧
    (0x9000 : BitVec 16).toNat = 0x9000 + 4 * 0 ∧ 0 < errmapWords s4.cfg.nmax := by decide +kernel
theorem witness_IdleReads_reserved : (∀ r : RegName, (0x9004 : BitVec 16).toNat ≠ 4 * r.index) ∧
    (∀ b i, i < s4.cfg.nmax → (0x9004 : BitVec 16).toNat ≠ elemAddr b i) ∧
    (∀ w, w < errmapWords s4.cfg.nmax → (0x9004 : BitVec 16).toNat ≠ 0x9000 + 4 * w) := by
  refine ⟨fun r => by cases r <;> decide, fun b i (hi : i < 16) => ?_, by decide +kernel⟩
  cases b <;> simp [elemAddr, Buf.base] <;> omega
/-- BusyReads, for every aligned offset. -/
theorem witness_BusyReads : ∀ a : BitVec 16, a.toNat % 4 = 0 →
    ∃ (s : State) (rest : List HostOp), s.HostDoes (.rd a) rest ∧ a.toNat % 4 = 0 ∧ s.status.busy = true ∧
      s.cfg.Valid := by
  intro a ha
  exact ⟨{ hostAbout (inProgress s4) (.rd a) with schedule := [.host] }, [], ⟨rfl, rfl, rfl⟩, ha, rfl, s4_valid⟩
theorem witness_RegisterWords : ∃ s : State, s.cfg.Valid := ⟨s4, s4_valid⟩
theorem witness_ElementWidth : ∃ F : FieldDesc, F.Valid := ⟨gf4, gf4_valid⟩
theorem witness_WaitPollsDone_done : ∃ (s : State) (rest : List HostOp), s.HostDoes .wait rest ∧ s.status.done = true :=
  ⟨hostAbout { s4 with status := { s4.status with done := true } } .wait, [], ⟨rfl, rfl, rfl⟩, rfl⟩
theorem witness_WaitPollsDone_busy : ∃ (s : State) (rest : List HostOp), s.HostDoes .wait rest ∧ s.status.done = false ∧
    s.status.busy = true :=
  ⟨{ hostAbout (inProgress s4) .wait with schedule := [.host] }, [], ⟨rfl, rfl, rfl⟩, rfl, rfl⟩
theorem witness_ResetAbandonsEverything : (∃ s : State, s.mover = .assertRst) ∧
    (∃ s : State, s.rst = true ∧ s.mover = .core ∧ s.status.busy = true) ∧ (∃ s : State, s.rst = true ∧ s.mover = .host) ∧
    (∃ s : State, s.rst = true ∧ s.mover = .releaseRst ∧ s.status.busy = true) :=
  ⟨⟨{ s4 with schedule := [.assertRst] }, rfl⟩, ⟨{ inProgress s4 with rst := true }, rfl, rfl, rfl⟩,
    ⟨{ s4 with rst := true }, rfl, rfl⟩, ⟨{ inProgress s4 with rst := true, schedule := [.releaseRst] }, rfl, rfl, rfl⟩⟩
theorem witness_EncodeCompletes : ∃ (s : State) (msg points : List Nat), s.cfg.Valid ∧ s.GeometryOk ∧
    s.Operand .msg s.dim msg ∧ s.Operand .alpha s.len points :=
  ⟨s4, _, _, s4_valid, s4_geometry, s4_msg, s4_alpha⟩
theorem witness_EncodeGivesPolynomialValues : ∃ t, exec .encode s4 = .next t := ⟨_, rfl⟩
theorem witness_EncodeIsLinear : ∃ (F : FieldDesc) (a b x : Nat) (m1 m2 : List Nat), F.Valid ∧ a < F.size ∧ b < F.size ∧
    x < F.size ∧ m1.length = m2.length ∧ (∀ v ∈ m1, v < F.size) ∧ (∀ v ∈ m2, v < F.size) :=
  ⟨gf4, 2, 3, 1, [1, 3], [2, 0], gf4_valid, by decide, by decide, by decide, rfl, by decide, by decide⟩
theorem witness_WeightsCompletes : ∃ (s : State) (points : List Nat), s.cfg.Valid ∧ s.GeometryOk ∧
    s.Operand .alpha s.len points ∧ points.Nodup := ⟨s4, _, s4_valid, s4_geometry, s4_alpha, by decide⟩
theorem witness_DuplicatePointsAbortWeights : ∃ (s : State) (points r : List Nat), s.cfg.Valid ∧ s.GeometryOk ∧
    s.Operand .alpha s.len points ∧ ¬ points.Nodup ∧ s.status.wValid = false ∧ s.Operand .cw s.len r :=
  ⟨s3d, _, _, c7_valid, s3d_geometry, s3d_alpha, by decide, by decide +kernel, s3d_cw⟩
/-- SyndromeCompletes, DecodeCompletes and DecodeIsTheStagesInTurn, with W_VALID = 0 and W_VALID = 1. -/
theorem witness_DecodeCompletes_fresh : ∃ (s : State) (r points : List Nat), s.cfg.Valid ∧ s.GeometryOk ∧
    s.Operand .cw s.len r ∧ s.Operand .alpha s.len points ∧ points.Nodup ∧ s.CacheRight points ∧
    s.status.wValid = false :=
  ⟨s4, _, _, s4_valid, s4_geometry, s4_cw, s4_alpha, by decide, s4_cache, by decide +kernel⟩
theorem witness_DecodeCompletes_cached : ∃ (s : State) (r points : List Nat), s.cfg.Valid ∧ s.GeometryOk ∧
    s.Operand .cw s.len r ∧ s.Operand .alpha s.len points ∧ points.Nodup ∧ s.CacheRight points ∧
    s.status.wValid = true :=
  ⟨s4w, [3, 5, 1, 2], [0, 1, 2, 3], c7_valid, by unfold State.GeometryOk; decide +kernel, readCanonical_eq_ok (by decide +kernel),
    readCanonical_eq_ok (by decide +kernel), by decide, s4w_cache.2, s4w_cache.1⟩
theorem witness_BmsynCompletes : ∃ (s : State) (syn : List Nat), s.cfg.Valid ∧ s.GeometryOk ∧
    s.Operand .s (s.len - s.dim) syn := ⟨s4, _, s4_valid, s4_geometry, s4_s⟩
/-- SynthesizerSteps: a zero discrepancy, a growth, and a kept length, on canonical lists. -/
theorem witness_SynthesizerSteps : let F := FieldDesc.prime 7
    F.Valid ∧ F.discrepancy [0, 3] (synthInit 2).lam 0 = 0 ∧
    (F.discrepancy [6, 5] (synthInit 2).lam 0 ≠ 0 ∧ 2 * (synthInit 2).len ≤ 0) ∧
    (let st : SynthState := { lam := [1, 1, 0], aux := [1, 0, 0], len := 1, shift := 1, last := 6 }
     (∀ v ∈ [6, 5], v < F.size) ∧ (∀ v ∈ st.lam, v < F.size) ∧
     st.lam.length = 2 + 1 ∧ st.aux.length = 2 + 1 ∧ st.last ≠ 0 ∧ st.last < F.size ∧ F.discrepancy [6, 5] st.lam 1 ≠ 0 ∧ 1 < 2 * st.len) := by
  refine ⟨c7_valid.1, ?_⟩
  decide +kernel
theorem witness_RootsCompletes : ∃ (s : State) (points lam : List Nat), s.cfg.Valid ∧ s.GeometryOk ∧
    s.Operand .alpha s.len points ∧ s.Operand .lambda (s.len - s.dim + 1) lam :=
  ⟨s4, _, _, s4_valid, s4_geometry, s4_alpha, s4_lambda⟩
/-- RecoverCompletes and the first case of RecoverRaisesExactlyOnSelectedDuplicates. -/
theorem witness_RecoverCompletes : ∃ (s : State) (points r : List Nat), s.cfg.Valid ∧ s.GeometryOk ∧
    s.Operand .alpha s.len points ∧ s.Operand .cw s.len r ∧
    s.dim ≤ ((List.range s.len).filter fun i => !s.errBit i).length ∧
    ((((List.range s.len).filter fun i => !s.errBit i).take s.dim).map fun p => points.getD p 0).Nodup :=
  ⟨s4, _, _, s4_valid, s4_geometry, s4_alpha, s4_cw, by decide +kernel, by decide +kernel⟩
theorem witness_RecoverInsufficientPoints : ∃ (s : State) (points r : List Nat), s.cfg.Valid ∧ s.GeometryOk ∧
    s.Operand .alpha s.len points ∧ s.Operand .cw s.len r ∧
    ((List.range s.len).filter fun i => !s.errBit i).length < s.dim :=
  ⟨s3d.setErrors [0, 1], [2, 2, 3], [2, 3, 4], c7_valid, by unfold State.GeometryOk; decide +kernel, readCanonical_eq_ok (by decide +kernel),
    readCanonical_eq_ok (by decide +kernel), by decide +kernel⟩
theorem witness_RecoverRaises_duplicates : ∃ (s : State) (points r : List Nat), s.cfg.Valid ∧ s.GeometryOk ∧
    s.Operand .alpha s.len points ∧ s.Operand .cw s.len r ∧
    s.dim ≤ ((List.range s.len).filter fun i => !s.errBit i).length ∧
    ¬ ((((List.range s.len).filter fun i => !s.errBit i).take s.dim).map fun p => points.getD p 0).Nodup :=
  ⟨s3d, _, _, c7_valid, s3d_geometry, s3d_alpha, s3d_cw, by decide +kernel, by decide +kernel⟩
/-- GeometryErrorExactly: K = 0, K > N, N > NMAX, and the boundary K = N = NMAX. -/
theorem witness_GeometryErrorExactly : ¬ (core7 3 0 []).GeometryOk ∧ ¬ (core7 3 4 []).GeometryOk ∧
    ¬ (core7 17 1 []).GeometryOk ∧ (core7 16 16 []).GeometryOk := by
  unfold State.GeometryOk; decide +kernel
theorem witness_NonCanonicalOperandAborts : ∃ (s : State) (i : Instr), s.GeometryOk ∧
    s.AllHeld (operandRanges s i) ∧ s.SomeNonCanonical (operandRanges s i) := by
  refine ⟨core7 2 1 [(.alpha, [1, 7])], .weights, by unfold State.GeometryOk; decide +kernel, ?_, ?_⟩
  · intro bl hbl j hj
    obtain rfl : bl = (.alpha, 2) := by simpa using (show bl ∈ [(Buf.alpha, 2)] from hbl)
    have : j = 0 ∨ j = 1 := by simp at hj; omega
    rcases this with rfl | rfl
    exacts [⟨1, by decide +kernel⟩, ⟨7, by decide +kernel⟩]
  · exact ⟨(.alpha, 2), by decide +kernel, 1, by decide, 7, by decide +kernel, by decide +kernel⟩
theorem witness_FaultsExactlyOnUnwrittenOperands : ∃ (s : State) (i : Instr), s.GeometryOk ∧
    ¬ s.AllHeld (operandRanges s i) ∧ ¬ s.SomeNonCanonical (operandRanges s i) := by
  refine ⟨core7 2 1 [], .weights, by unfold State.GeometryOk; decide +kernel, ?_, ?_⟩
  · intro h
    obtain ⟨w, hw⟩ := h (.alpha, 2) (by decide +kernel) 0 (by decide)
    cases (show (none : Option Word) = some w from hw)
  · rintro ⟨bl, hbl, j, hj, w, hw, -⟩
    cases hw
/-- AbortChangesStatusOnly and ErrorPriority: a command that ends with each code. -/
theorem witness_AbortChangesStatusOnly : (∃ t, exec .encode (core7 3 0 []) = .next t ∧ t.status.err = 2) ∧
    (∃ t, exec .weights (core7 2 1 [(.alpha, [1, 7])]) = .next t ∧ t.status.err = 3) ∧
    (∃ t, exec .weights s3d = .next t ∧ t.status.err = 4) ∧ (∃ t, exec .nop s4 = .next t ∧ t.status.err = 0) :=
  ⟨⟨_, rfl, rfl⟩, ⟨_, rfl, rfl⟩, ⟨_, rfl, rfl⟩, ⟨_, rfl, rfl⟩⟩
theorem witness_FieldPrimitives : ∃ (F : FieldDesc) (a b : Nat), F.Valid ∧ a < F.size ∧ b < F.size :=
  ⟨gf4, 2, 3, gf4_valid, by decide, by decide⟩
theorem witness_HornerIsPowerSum : ∃ (F : FieldDesc) (p : List Nat) (x : Nat), F.Valid ∧ (∀ v ∈ p, v < F.size) ∧
    x < F.size := ⟨gf4, [1, 2, 3], 2, gf4_valid, by decide, by decide⟩
theorem witness_InterpolationRaises : ∃ (F : FieldDesc) (xs ys : List Nat), F.Valid ∧ xs.length = ys.length ∧
    (∀ v ∈ xs, v < F.size) ∧ (∀ v ∈ ys, v < F.size) ∧ ¬ xs.Nodup :=
  ⟨gf4, [2, 2], [1, 3], gf4_valid, rfl, by decide, by decide, by decide⟩
theorem witness_InterpolationIdempotent : ∃ (F : FieldDesc) (xs p : List Nat), F.Valid ∧ xs.Nodup ∧
    (∀ v ∈ xs, v < F.size) ∧ p.length ≤ xs.length ∧ (∀ v ∈ p, v < F.size) :=
  ⟨gf4, [0, 1, 3], [2, 1], gf4_valid, by decide, by decide, by decide, by decide⟩
theorem witness_WeightIdentity : ∃ (F : FieldDesc) (points w : List Nat), F.Valid ∧ points.Nodup ∧
    (∀ v ∈ points, v < F.size) ∧ F.wfn points = some w ∧ 0 + 2 ≤ points.length ∧ 2 + 1 = points.length :=
  ⟨gf4, [1, 2, 3], _, gf4_valid, by decide, by decide, rfl, by decide, by decide⟩
theorem witness_SyndromesSeeOnlyTheErrors : ∃ (F : FieldDesc) (points w f e : List Nat), F.Valid ∧ points.Nodup ∧
    (∀ v ∈ points, v < F.size) ∧ F.wfn points = some w ∧ f.length ≤ points.length ∧ (∀ v ∈ f, v < F.size) ∧
    e.length = points.length ∧ (∀ v ∈ e, v < F.size) :=
  ⟨gf4, [1, 2, 3], _, [2], [0, 3, 0], gf4_valid, by decide, by decide, rfl, by decide, by decide, rfl, by decide⟩
theorem witness_SynthesizerBounds : ∃ (F : FieldDesc) (syn : List Nat) (r : Nat), F.Valid ∧ (∀ v ∈ syn, v < F.size) ∧
    r ≤ syn.length := ⟨gf4, [1, 3], 2, gf4_valid, by decide, by decide⟩
/-- An error vector that is zero but at position 1, as in V-DEC-5a, is nonzero only where the point is. -/
theorem single_error_nonzero {points : List Nat} {n v : Nat} (h : points.getD 1 0 ≠ 0) :
    ∀ i, (0 :: v :: List.replicate n 0).getD i 0 ≠ 0 → points.getD i 0 ≠ 0
  | 0, hi => absurd rfl hi
  | 1, _ => h
  | i + 2, hi => absurd (by simp [List.getD_eq_getElem?_getD, List.getElem?_replicate]; split <;> rfl) hi
/-- The points of V-DEC-5a over GF(7), the zero point not in error; and GF(4), with a zero point too. -/
theorem witness_SynthesizerFindsTheLocator : ∀ F ∈ [FieldDesc.prime 7, gf4], ∃ (points w e : List Nat) (count : Nat),
    F.Valid ∧ points.Nodup ∧ (∀ v ∈ points, v < F.size) ∧ F.wfn points = some w ∧ e.length = points.length ∧
    (∀ v ∈ e, v < F.size) ∧ (∀ i, e.getD i 0 ≠ 0 → points.getD i 0 ≠ 0) ∧ 0 ∈ points ∧ (∃ v ∈ e, v ≠ 0) ∧
    2 * ((List.range e.length).filter fun i => decide (e.getD i 0 ≠ 0)).length ≤ count := by
  intro F hF
  have hpoints : ([0, 1, 2, 3] : List Nat).getD 1 0 ≠ 0 := by decide
  rcases (by simpa using hF : F = .prime 7 ∨ F = gf4) with rfl | rfl
  · exact ⟨[0, 1, 2, 3], [1, 4, 3, 6], [0, 1, 0, 0], 2, c7_valid.1, by decide, by decide, by decide +kernel, rfl, by decide,
      single_error_nonzero (n := 2) hpoints, by decide, by decide, by decide⟩
  · exact ⟨[0, 1, 2, 3], _, [0, 3, 0, 0], 2, gf4_valid, by decide, by decide, rfl, rfl, by decide,
      single_error_nonzero (n := 2) hpoints, by decide, by decide, by decide⟩
theorem witness_RootCountBound : ∃ (F : FieldDesc) (points lam : List Nat) (d : Nat), F.Valid ∧ points.Nodup ∧
    (∀ v ∈ points, v < F.size) ∧ (∀ v ∈ lam, v < F.size) ∧ lam.getD d 0 ≠ 0 ∧ (∀ i, d < i → lam.getD i 0 = 0) := by
  refine ⟨gf4, [0, 1, 2, 3], [1, 2], 1, gf4_valid, by decide, by decide, by decide, by decide, fun i hi => ?_⟩
  rw [List.getD_eq_default _ _ (by simp; omega)]
theorem witness_RootCountBound_bm : ∃ (syn : List Nat) (st : SynthState), (∀ v ∈ syn, v < gf4.size) ∧
    gf4.bm syn = some st := ⟨[1, 3], _, by decide, rfl⟩
theorem witness_AllZeroSyndromesDecode : ∃ (s : State) (r points w : List Nat), s.cfg.Valid ∧ s.GeometryOk ∧
    s.Operand .cw s.len r ∧ s.Operand .alpha s.len points ∧ points.Nodup ∧ s.CacheRight points ∧
    s.cfg.field.wfn points = some w ∧ ∀ j, j < s.len - s.dim → s.cfg.field.syndromeAt r points w j = 0 :=
  ⟨core7 4 2 [(.alpha, [0, 1, 2, 3]), (.cw, [3, 5, 0, 2])], [3, 5, 0, 2], [0, 1, 2, 3], [1, 4, 3, 6], c7_valid,
    by unfold State.GeometryOk; decide +kernel, readCanonical_eq_ok (by decide +kernel),
    readCanonical_eq_ok (by decide +kernel), by decide, fun h => absurd h (by decide +kernel), by decide +kernel,
    by decide +kernel⟩
theorem witness_InsufficientNeverWithDistinctPoints : ∃ t, exec .decode s4 = .next t ∧ (t.status.err == 0) = true :=
  exists_next_of_gives (p := fun t => t.status.err == 0) (by decide +kernel)
theorem witness_InsufficientNever_roots :
    (s4.Operand .lambda (s4.len - s4.dim + 1) [1, 5, 0] ∧ ∃ v ∈ [1, 5, 0], v ≠ 0) ∧
    ∃ u, exec .roots s4 = .next u ∧
      (u.status.err == 0 && gives (exec .recover (accept (encode .recover) u)) fun _ => true) = true :=
  ⟨⟨s4_lambda, 1, by decide, by decide⟩,
    exists_next_of_gives (p := fun u => u.status.err == 0 &&
      gives (exec .recover (accept (encode .recover) u)) fun _ => true) (by decide +kernel)⟩
theorem witness_DecodeCorrectsUpToT : ∃ (s : State) (msg points r : List Nat), s.cfg.Valid ∧ s.GeometryOk ∧
    s.Operand .alpha s.len points ∧ points.Nodup ∧ (∀ v ∈ points, v ≠ 0) ∧ s.Operand .cw s.len r ∧
    s.CacheRight points ∧ s.Operand .msg s.dim msg ∧ (errorSet s.cfg.field msg points r).length = s.radius ∧ 1 ≤ s.radius :=
  ⟨s4z, [3, 2], [1, 2, 3, 4], [5, 0, 3, 4], c7_valid, by unfold State.GeometryOk; decide +kernel, readCanonical_eq_ok (by decide +kernel),
    by decide, by decide, readCanonical_eq_ok (by decide +kernel), fun h => absurd h (by decide +kernel),
    readCanonical_eq_ok (by decide +kernel), by decide +kernel, by decide +kernel⟩
theorem witness_EncodeThenDecodeIsTheMessage : ∃ (s : State) (msg points : List Nat), s.cfg.Valid ∧ s.GeometryOk ∧
    s.Operand .msg s.dim msg ∧ s.Operand .alpha s.len points ∧ points.Nodup ∧ (∀ v ∈ points, v ≠ 0) ∧ s.CacheRight points :=
  ⟨s4z, [3, 2], [1, 2, 3, 4], c7_valid, by unfold State.GeometryOk; decide +kernel, readCanonical_eq_ok (by decide +kernel),
    readCanonical_eq_ok (by decide +kernel), by decide, by decide, fun h => absurd h (by decide +kernel)⟩
theorem witness_CommandCompletesOnTheAcceptedState : ∃ s : State, s.status.busy = true ∧ s.NoReset ∧ s.ProgramAligned ∧
    s.schedule ≠ [] :=
  ⟨{ hostAbout (inProgress s4) (.wr 0x3000 6) with schedule := [.host] }, rfl, ⟨rfl, by decide +kernel⟩,
    fun op h => by obtain rfl : op = .wr 0x3000 6 := by simpa [hostAbout] using h
                   decide +kernel, by decide +kernel⟩
theorem witness_steps : (∃ t, step (hostAbout s4 (.wr 0x1000 6)) = .next t ∧ true = true) ∧
    (∃ t, step (s4.acceptForCore 7) = .next t ∧ true = true) ∧ s4.status.Coherent :=
  ⟨exists_next_of_gives (p := fun _ => true) (by decide +kernel),
    exists_next_of_gives (p := fun _ => true) (by decide +kernel), by unfold Status.Coherent; decide +kernel⟩

end Sys2Proof.Tests
end

section
/-! The element width EW: what R7 says of it, for every field. -/

namespace Sys2Proof.Proofs

open Sys2Proof Sys2Proof.Machine

theorem one_le_ew (F : FieldDesc) : 1 ≤ F.ew := le_max_left _ _

/-- No narrower width holds every code (R7): the search for EW stops at the first width that does. -/
theorem pow_lt_size_of_lt_ew (F : FieldDesc) {e : Nat} (h1 : 1 ≤ e) (he : e < F.ew) : 2 ^ e < F.size := by
  have h33 : e < 33 := he.trans_le ((ew_le F).trans (by decide))
  unfold FieldDesc.ew at he
  cases hf : (List.range 33).find? (fun e => decide (F.size ≤ 2 ^ e)) with
  | none => simpa using List.find?_eq_none.mp hf e (List.mem_range.mpr h33)
  | some w =>
    have hw : e < w := by simp [hf] at he; omega
    obtain ⟨-, -, hmin⟩ := List.find?_range_eq_some.mp hf
    simpa using hmin e hw

/-- An element's word is the data's low EW bits, which fit a word (R7, R40). -/
theorem elemWord_toNat (F : FieldDesc) (v : Nat) : (elemWord F v).toNat = v % 2 ^ F.ew := by
  have hbits : v % 2 ^ F.ew < 2 ^ F.ew := Nat.mod_lt _ (by positivity)
  have hword : 2 ^ F.ew ≤ 2 ^ 32 := Nat.pow_le_pow_right (by decide) (ew_le F)
  rw [elemWord, BitVec.toNat_ofNat, Nat.mod_eq_of_lt (hbits.trans_le hword)]

/-- Settles O14: EW bits hold every code, the code `2 ^ e` needs more than `e` bits when `e` is below EW, and the two
examples compute. -/
theorem elementWidth : Obligations.ElementWidth := by
  refine ⟨fun F hF => ⟨one_le_ew F, ew_le F, fun a ha => ?_, fun e h1 he => ?_, elemWord_toNat F⟩, by decide, by decide⟩
  · obtain ⟨hsize, -⟩ := hF
    exact ha.trans_le (size_le_pow_ew F (hsize.trans (by decide)))
  · exact ⟨2 ^ e, pow_lt_size_of_lt_ew F h1 he, le_rfl⟩

end Sys2Proof.Proofs
end

section
/-! The reset state of R54: what STATUS, COUNT and T, ERRMAP and the buffers hold in it, for every core. Its other fields
hold their reset value by definition. -/

namespace Sys2Proof.Proofs

open Sys2Proof Sys2Proof.Machine

@[simp] theorem toWord_reset : Status.reset.toWord = 0 := by decide

/-- With K = 0 the geometry is outside R33's range, so COUNT is 0. -/
@[simp] theorem count_resetOf (c : Config) : (State.resetOf c).count = 0 :=
  if_neg fun ⟨hk, _⟩ => Nat.not_succ_le_zero 0 hk

@[simp] theorem radius_resetOf (c : Config) : (State.resetOf c).radius = 0 := by
  rw [State.radius, count_resetOf]

@[simp] theorem errBit_resetOf (c : Config) (i : Nat) : (State.resetOf c).errBit i = false :=
  BitVec.getLsbD_zero

/-- No element holds a value after reset (R52): the memory has no cell. -/
@[simp] theorem elem_resetOf (c : Config) (b : Buf) (i : Nat) : (State.resetOf c).elem b i = none := rfl

/-- Settles O17: the stored registers by definition, the derived and read-out values by the lemmas above. -/
theorem resetValues : Obligations.ResetValues := by
  intro c
  have hconstants : (State.resetOf c).readReg .id = idWord ∧ (State.resetOf c).readReg .cfg = cfgWord c ∧
      (State.resetOf c).readReg .fsize = fsizeWord c := ⟨rfl, rfl, rfl⟩
  exact ⟨rfl, rfl, toWord_reset, rfl, rfl, count_resetOf c, radius_resetOf c, rfl, rfl, rfl, rfl,
    errBit_resetOf c, elem_resetOf c, hconstants⟩

end Sys2Proof.Proofs
end

section
/-! A host write at an aligned byte offset (R64, R66): the turn is used up, and the rest is MemWrite's effect on the target
the offset selects. -/

namespace Sys2Proof.Proofs

open Sys2Proof Sys2Proof.Machine

theorem hostWritable_iff (b : Buf) :
    b.hostWritable = true ↔ b = .alpha ∨ b = .cw ∨ b = .msg ∨ b = .s ∨ b = .lambda := by
  cases b <;> decide

/-- Every aligned offset is a register's, an element's, a word of ERRMAP's, or reserved (R62, R68). -/
theorem target_cases {nmax : Nat} (hn : nmax ≤ 1023) {a : BitVec 16} (ha : a.toNat % 4 = 0) :
    (∃ r : RegName, a.toNat = 4 * r.index ∧ target nmax (BitVec.ofNat 14 (a.toNat / 4)) = .reg r) ∨
    (∃ b i, i < nmax ∧ a.toNat = elemAddr b i ∧ target nmax (BitVec.ofNat 14 (a.toNat / 4)) = .elem b i) ∨
    (∃ w, target nmax (BitVec.ofNat 14 (a.toNat / 4)) = .errmapWord w) ∨
    target nmax (BitVec.ofNat 14 (a.toNat / 4)) = .reserved := by
  by_cases hreg : ∃ r : RegName, a.toNat = 4 * r.index
  · obtain ⟨r, hr⟩ := hreg
    exact .inl ⟨r, hr, target_reg nmax hr⟩
  by_cases helem : ∃ b i, i < nmax ∧ a.toNat = elemAddr b i
  · obtain ⟨b, i, hi, hbi⟩ := helem
    exact .inr (.inl ⟨b, i, hi, hbi, target_elem hn hi hbi⟩)
  by_cases herr : ∃ w, w < errmapWords nmax ∧ a.toNat = 0x9000 + 4 * w
  · obtain ⟨w, hw, haw⟩ := herr
    exact .inr (.inr (.inl ⟨w, target_errmap hn hw haw⟩))
  · push Not at hreg helem herr
    exact .inr (.inr (.inr (target_reserved ha hreg helem herr)))

theorem step_write_busy {s : State} {a : BitVec 16} {v : Word} {rest : List HostOp} (h : s.HostDoes (.wr a v) rest)
    (ha : a.toNat % 4 = 0) (hb : s.status.busy = true) :
    step s = .next { s.hostUsed rest with status := { s.status with wovr := true } } := by
  have hused : (s.hostUsed rest).status.busy = true := hb
  rw [step_write h ha, memWrite_busy hused]
  rfl

theorem step_write_idle {s : State} {a : BitVec 16} {v : Word} {rest : List HostOp} (h : s.HostDoes (.wr a v) rest)
    (ha : a.toNat % 4 = 0) (hb : s.status.busy = false) :
    step s = .next ((s.hostUsed rest).idleWrite (target s.cfg.nmax (BitVec.ofNat 14 (a.toNat / 4))) v) := by
  have hused : (s.hostUsed rest).status.busy = false := hb
  rw [step_write h ha, memWrite_idle hused]
  rfl

theorem idleWrite_readOnlyReg (s : State) {r : RegName} (v : Word) (hcmd : r ≠ .cmd) (hn : r ≠ .n) (hk : r ≠ .k) :
    s.idleWrite (.reg r) v = s := by
  cases r
  case cmd => exact absurd rfl hcmd
  case n => exact absurd rfl hn
  case k => exact absurd rfl hk
  all_goals rfl

theorem idleWrite_readOnlyElem (s : State) {b : Buf} (i : Nat) (v : Word) (hb : ¬ b.hostWritable = true) :
    s.idleWrite (.elem b i) v = s := by
  cases b
  case dec | w | bpoly => rfl
  all_goals exact absurd rfl hb

/-- A writable element takes the data; only one of ALPHA clears W_VALID (R64). -/
theorem idleWrite_elem (s : State) {b : Buf} (i : Nat) (v : Word) (hb : b.hostWritable = true) :
    s.idleWrite (.elem b i) v =
      { s.setElem b i v.toNat with
        status := { s.status with wValid := if b = .alpha then false else s.status.wValid } } := by
  cases b
  case dec | w | bpoly => cases hb
  all_goals rfl

theorem setElem_sameBytesOutside (s : State) (b : Buf) (i v : Nat) :
    SameBytesOutside s (s.setElem b i v) fun x => elemAddr b i ≤ x ∧ x < elemAddr b i + 4 :=
  fun _ hx => readByte_writeWord_outside _ _ (by omega)

/-- Settles O9: a MemWrite while BUSY = 1 does not look at its offset. -/
theorem busyWritesAreDropped : Obligations.BusyWritesAreDropped :=
  fun _ _ _ _ h ha hb => step_write_busy h ha hb

/-- Settles O10: the target of the offset decides, and an offset that none of the listed clauses names selects a target that
ignores the write. -/
theorem idleWriteEffects : Obligations.IdleWriteEffects := by
  intro s a v rest h ha hb hv
  obtain ⟨-, -, hnmax⟩ := hv
  have hstep := step_write_idle h ha hb
  refine ⟨?_, ?_, ?_, ?_, ?_⟩
  · rintro rfl
    rw [hstep, target_reg _ (r := .cmd) rfl]
    rfl
  · rintro rfl
    rw [hstep, target_reg _ (r := .n) rfl, BitVec.ofNat_toNat]
    rfl
  · rintro rfl
    rw [hstep, target_reg _ (r := .k) rfl, BitVec.ofNat_toNat]
    rfl
  · intro b i hw hi hai
    rw [target_elem hnmax hi hai, idleWrite_elem _ _ _ ((hostWritable_iff b).mpr hw)] at hstep
    exact ⟨_, hstep, elem_setElem_same s b i v.toNat, setElem_sameBytesOutside s b i v.toNat, rfl⟩
  · intro hcmd hn hk helem
    rw [hstep]
    rcases target_cases hnmax ha with ⟨r, har, ht⟩ | ⟨b, i, hi, hbi, ht⟩ | ⟨w, ht⟩ | ht <;> rw [ht]
    · have hne {q : RegName} {x : BitVec 16} (hx : x.toNat = 4 * q.index) (hax : a ≠ x) : r ≠ q := by
        rintro rfl
        exact hax (BitVec.eq_of_toNat_eq (har.trans hx.symm))
      rw [idleWrite_readOnlyReg _ _ (hne rfl hcmd) (hne rfl hn) (hne rfl hk)]
    · have hro : ¬ b.hostWritable = true := fun hw => helem b i ((hostWritable_iff b).mp hw) hi hbi
      rw [idleWrite_readOnlyElem _ _ _ hro]
    · rfl
    · rfl

end Sys2Proof.Proofs
end

section
/-! The decoder over all words: a word decodes to a command exactly when it is the command's own encoding, and to one of
the two ILLEGAL reasons otherwise (R93); and the rows of the opcode table say the same. -/

namespace Sys2Proof.Proofs

/-! The decoder's answers, one lemma each. -/

/-- RSV, as a number, is the word without its low byte (R90). -/
theorem rsvField_toNat (word : Word) : (rsvField word).toNat = word.toNat / 256 := by
  have hlt : word.toNat / 256 < 2 ^ 24 := by omega
  rw [rsvField, BitVec.extractLsb'_toNat, Nat.shiftRight_eq_div_pow, Nat.mod_eq_of_lt hlt]

theorem rsvField_eq_zero_iff (word : Word) : rsvField word = 0 ↔ word.toNat / 256 = 0 := by
  rw [← rsvField_toNat, ← BitVec.toNat_inj, BitVec.ofNat_eq_ofNat, BitVec.toNat_zero]

/-- OP, as a number, is the low byte of the word (R90). -/
theorem opField_toNat (word : Word) : (opField word).toNat = word.toNat % 256 := by
  rw [opField, BitVec.extractLsb'_toNat, Nat.shiftRight_zero]

theorem decode_of_rsvField_ne_zero {word : Word} (h : rsvField word ≠ 0) : decode word = .error .reservedNonzero :=
  if_pos h

theorem decode_of_opcode_unassigned {word : Word} (hrsv : rsvField word = 0) (hop : 8 ≤ (opField word).toNat) :
    decode word = .error .unassignedOpcode := by
  have hnone : opcodeInstr (opField word) = none := by
    rw [← Option.not_isSome_iff_eq_none, opcodeInstr_isSome, decide_eq_true_iff]
    exact Nat.not_lt.mpr hop
  simp [decode, hrsv, hnone]

@[simp] theorem decode_encode (i : Instr) : decode (encode i) = .ok i := by simp [decode]

/-! What decodes is the command's encoding, because the opcode map is injective and the two fields are the whole word. -/

theorem opcode_of_opcodeInstr {op : BitVec 8} {i : Instr} (h : opcodeInstr op = some i) : i.opcode = op := by
  unfold opcodeInstr at h
  split at h
  case h_9 => cases h
  all_goals
    rename_i hop
    cases h
    exact BitVec.eq_of_toNat_eq hop.symm

/-- A word that decodes has RSV = 0, and its OP selects the command. -/
theorem fields_of_decode {word : Word} {i : Instr} (h : decode word = .ok i) :
    rsvField word = 0 ∧ opcodeInstr (opField word) = some i := by
  unfold decode at h
  split at h
  · cases h
  · next hrsv =>
    split at h
    · next hop =>
      cases h
      exact ⟨not_not.mp hrsv, hop⟩
    · cases h

theorem decode_eq_ok_iff {word : Word} {i : Instr} : decode word = .ok i ↔ word = encode i := by
  constructor
  · intro h
    obtain ⟨hrsv, hop⟩ := fields_of_decode h
    rw [← word_eq_fields word, hrsv, ← opcode_of_opcodeInstr hop, encode]
  · rintro rfl
    exact decode_encode i

/-- A word is the command's encoding when it is the number of the command's word. -/
theorem decode_of_toNat {word : Word} (i : Instr) (h : word.toNat = (encode i).toNat) : decode word = .ok i :=
  decode_eq_ok_iff.mpr (BitVec.eq_of_toNat_eq h)

/-! The opcode table has one row per command: the command's encoding under the full mask (R93). -/

theorem mem_opcodeTable_iff {row : OpcodeRow} :
    row ∈ opcodeTable ↔ row.mask = 0xFFFFFFFF ∧ row.value = encode row.instr := by
  constructor
  · have hrows : ∀ r ∈ opcodeTable, r.mask = 0xFFFFFFFF ∧ r.value = encode r.instr := by decide
    exact hrows row
  · obtain ⟨i, value, mask⟩ := row
    rintro ⟨hmask, hvalue⟩
    obtain rfl : mask = 0xFFFFFFFF := hmask
    obtain rfl : value = encode i := hvalue
    cases i <;> decide

/-- Under the full mask a row selects its own value, and no other word. -/
theorem selects_iff {row : OpcodeRow} (hmask : row.mask = 0xFFFFFFFF) (word : Word) :
    row.selects word = true ↔ word = row.value := by
  have hand : word &&& 0xFFFFFFFF = word := BitVec.and_allOnes
  rw [OpcodeRow.selects, hmask, hand, beq_iff_eq]

theorem decode_eq_ok_iff_row {word : Word} {i : Instr} :
    decode word = .ok i ↔ ∃ row ∈ opcodeTable, row.selects word = true ∧ row.instr = i := by
  rw [decode_eq_ok_iff]
  constructor
  · rintro rfl
    exact ⟨⟨i, encode i, 0xFFFFFFFF⟩, mem_opcodeTable_iff.mpr ⟨rfl, rfl⟩, (selects_iff rfl _).mpr rfl, rfl⟩
  · rintro ⟨row, hrow, hsel, rfl⟩
    obtain ⟨hmask, hvalue⟩ := mem_opcodeTable_iff.mp hrow
    rw [← hvalue]
    exact (selects_iff hmask word).mp hsel

/-- Settles O2: each listed number is a command's encoding, a nonzero RSV or an OP of at least 8 is rejected by its reason,
and a row of the table selects the encoding of its command and nothing else. -/
theorem decodeIsTotalAsListed : Obligations.DecodeIsTotalAsListed := by
  intro word
  refine ⟨fun h => ?_, decode_of_toNat .nop, decode_of_toNat .encode, decode_of_toNat .weights,
    decode_of_toNat .syndrome, decode_of_toNat .bmsyn, decode_of_toNat .roots, decode_of_toNat .recover,
    decode_of_toNat .decode, fun hrsv hop => ?_, fun _ => decode_eq_ok_iff_row,
    fun _ => mem_opcodeTable_iff.mp⟩
  · exact decode_of_rsvField_ne_zero (mt (rsvField_eq_zero_iff word).mp h)
  · refine decode_of_opcode_unassigned ((rsvField_eq_zero_iff word).mpr hrsv) ?_
    rw [opField_toNat]
    omega

end Sys2Proof.Proofs
end

section
/-! Horner's method (R128), and the interpolation of R133 as Lagrange's interpolation over the field that FIELD codes. -/

namespace Sys2Proof.Proofs

open Sys2Proof Polynomial

section Evaluation

variable {F : FieldDesc} {K : Type} [Field K] {φ : Nat → K} (hc : F.Codes φ)

include hc in
/-- The value of a coefficient list's polynomial is the sum of the powers, one term a coefficient. -/
theorem eval_polyOf_eq_sum (p : List Nat) (x : K) :
    (polyOf φ p).eval x = ∑ i ∈ Finset.range p.length, φ (p.getD i 0) * x ^ i := by
  rw [eval_eq_sum, ← sum_fin (fun i a => a * x ^ i) (fun i => zero_mul _) (degree_polyOf_lt hc p)]
  simp only [coeff_polyOf hc]
  exact Fin.sum_univ_eq_sum_range (fun i => φ (p.getD i 0) * x ^ i) p.length

/-- At 1 every power is 1, and the value is the sum of the coefficients. -/
theorem eval_one_polyOf (φ : Nat → K) (p : List Nat) : (polyOf φ p).eval 1 = (p.map φ).sum := by
  induction p with
  | nil => simp [polyOf]
  | cons c p ih => simpa [polyOf] using ih

include hc in
/-- Coefficients from the n-th on may be dropped when the degree is below `n`. -/
theorem polyOf_take {p : List Nat} {n : Nat} (h : (polyOf φ p).degree < n) : polyOf φ (p.take n) = polyOf φ p := by
  ext i
  by_cases hi : i < n
  · rw [coeff_polyOf hc, coeff_polyOf hc, List.getD_eq_getElem?_getD, List.getElem?_take_of_lt hi,
      ← List.getD_eq_getElem?_getD]
  · have hlen : (p.take n).length ≤ i := (List.length_take_le n p).trans (Nat.le_of_not_lt hi)
    rw [degree_lt_iff_coeff_zero] at h
    rw [h i (Nat.le_of_not_lt hi), coeff_polyOf hc, List.getD_eq_default _ _ hlen, hc.zero]

end Evaluation

theorem zeros_lt {F : FieldDesc} (hv : F.Valid) (k : Nat) : ∀ v ∈ List.replicate k 0, v < F.size :=
  List.forall_mem_replicate.mpr (.inr hv.zero_lt)

section Horner

variable {F : FieldDesc} (hv : F.Valid) {p : List Nat} (hp : ∀ v ∈ p, v < F.size)
include hv hp

/-- Horner's method gives the sum of the powers (R128). -/
theorem peval_eq_fsum {x : Nat} (hx : x < F.size) :
    F.peval p x = F.fsum ((List.range p.length).map fun i => F.fmul (p.getD i 0) (F.fpow x i)) := by
  obtain ⟨K, _, φ, hc⟩ := hv.exists_codes
  have hterm : ∀ i, F.fmul (p.getD i 0) (F.fpow x i) < F.size := fun i =>
    hv.fmul_lt (hv.getD_lt hp i) (hv.fpow_lt hx i)
  refine hc.inj _ (hv.peval_lt hx hp) _ (hv.fsum_lt (by simpa using fun i _ => hterm i)) ?_
  rw [eval_polyOf hv hc hp hx, eval_polyOf_eq_sum hc, hc.fsum_range hv fun i _ => hterm i]
  refine Finset.sum_congr rfl fun i _ => ?_
  rw [hc.mul _ (hv.getD_lt hp i) _ (hv.fpow_lt hx i), hc.pow hv hx]

/-- Padding with zeros keeps a list canonical. -/
theorem append_zeros_lt (k : Nat) : ∀ v ∈ p ++ List.replicate k 0, v < F.size :=
  List.forall_mem_append.mpr ⟨hp, zeros_lt hv k⟩

/-- Trailing zero coefficients do not change the value (R128). -/
theorem peval_append_zeros (k : Nat) {x : Nat} (hx : x < F.size) :
    F.peval (p ++ List.replicate k 0) x = F.peval p x := by
  obtain ⟨K, _, φ, hc⟩ := hv.exists_codes
  have hpk := append_zeros_lt hv hp k
  refine hc.inj _ (hv.peval_lt hx hpk) _ (hv.peval_lt hx hp) ?_
  rw [eval_polyOf hv hc hpk hx, eval_polyOf hv hc hp hx, polyOf_append_zeros hc]

/-- The value at 0 is the constant term. -/
theorem peval_zero : F.peval p 0 = p.getD 0 0 := by
  obtain ⟨K, _, φ, hc⟩ := hv.exists_codes
  refine hc.inj _ (hv.peval_lt hv.zero_lt hp) _ (hv.getD_lt hp 0) ?_
  rw [eval_polyOf hv hc hp hv.zero_lt, hc.zero, ← coeff_zero_eq_eval_zero, coeff_polyOf hc]

/-- The value at 1 is the sum of the coefficients. -/
theorem peval_one : F.peval p 1 = F.fsum p := by
  obtain ⟨K, _, φ, hc⟩ := hv.exists_codes
  refine hc.inj _ (hv.peval_lt hv.one_lt hp) _ (hv.fsum_lt hp) ?_
  rw [eval_polyOf hv hc hp hv.one_lt, hc.one, eval_one_polyOf, hc.fsum hv hp]

end Horner

/-- Settles O38: each clause is read in the field that FIELD codes, where Horner's method is evaluation of a polynomial. -/
theorem hornerIsPowerSum : Obligations.HornerIsPowerSum := by
  intro F p x hv hp hx
  exact ⟨peval_eq_fsum hv hp hx, fun k => peval_append_zeros hv hp k hx, rfl, peval_zero hv hp, peval_one hv hp⟩

/-! When interpolation raises DivisionByZero (R134). -/

/-- The loop of R133 raises DivisionByZero exactly when one of its denominators has no inverse. -/
theorem lagrangeSum_eq_none_iff (F : FieldDesc) (xs ys : List Nat) : ∀ (is acc : List Nat),
    F.lagrangeSum xs ys is acc = none ↔ ∃ i ∈ is, F.finv (F.lagrangeDen xs i) = none := by
  intro is
  induction is with
  | nil => simp [FieldDesc.lagrangeSum]
  | cons i is ih =>
    intro acc
    cases hd : F.finv (F.lagrangeDen xs i) with
    | none => simp [FieldDesc.lagrangeSum, hd]
    | some d => simp [FieldDesc.lagrangeSum, hd, ih]

/-- Interpolation raises DivisionByZero exactly on repeated abscissae, whatever the values are. -/
theorem interpolate_eq_none_iff {F : FieldDesc} (hv : F.Valid) {xs : List Nat} (hx : ∀ v ∈ xs, v < F.size)
    (ys : List Nat) : F.interpolate xs ys = none ↔ ¬ xs.Nodup := by
  rw [FieldDesc.interpolate, Option.map_eq_none_iff, lagrangeSum_eq_none_iff, hv.nodup_iff_lagrangeDen hx]
  simp [hv.finv_eq_none (hv.lagrangeDen_lt hx _)]

/-! What interpolation computes (R133). -/

/-- The indices but `i`, in order, are the range without `i`. -/
theorem prod_othersOf {M : Type} [CommMonoid M] (f : Nat → M) (k i : Nat) :
    ((othersOf k i).map f).prod = ∏ j ∈ (Finset.range k).erase i, f j := by
  have hnodup : (othersOf k i).Nodup := List.nodup_range.filter _
  rw [← List.prod_toFinset f hnodup]
  refine Finset.prod_congr (Finset.ext fun j => ?_) fun _ _ => rfl
  rw [List.mem_toFinset, mem_othersOf, Finset.mem_erase, Finset.mem_range, and_comm]

/-- The field elements that a list of codes denotes, by index. -/
def nodesOf {K : Type} (φ : Nat → K) (xs : List Nat) (i : Nat) : K := φ (xs.getD i 0)

section Interpolation

variable {F : FieldDesc} (hv : F.Valid) {K : Type} [Field K] {φ : Nat → K} (hc : F.Codes φ)
  {xs ys : List Nat} (hx : ∀ v ∈ xs, v < F.size) (hy : ∀ v ∈ ys, v < F.size)
include hv hc hx

/-- Distinct codes are distinct elements. -/
theorem injOn_nodesOf (hn : xs.Nodup) : Set.InjOn (nodesOf φ xs) (Finset.range xs.length) := by
  intro i hi j hj hij
  have hi := Finset.mem_range.mp hi
  have hj := Finset.mem_range.mp hj
  have heq : xs.getD i 0 = xs.getD j 0 := hc.inj _ (hv.getD_lt hx i) _ (hv.getD_lt hx j) hij
  rw [List.getD_eq_getElem _ _ hi, List.getD_eq_getElem _ _ hj] at heq
  exact hn.getElem_inj_iff.mp heq

/-- A numerator over its denominator is Lagrange's basis polynomial. -/
theorem polyOf_lagrangeNum_div (i : Nat) :
    polyOf φ (F.lagrangeNum xs i) * C (φ (F.lagrangeDen xs i))⁻¹ =
      Lagrange.basis (Finset.range xs.length) (nodesOf φ xs) i := by
  rw [polyOf_lagrangeNum hv hc hx, hc.lagrangeDen hv hx, prod_othersOf, prod_othersOf, ← Finset.prod_inv_distrib,
    map_prod, ← Finset.prod_mul_distrib]
  exact Finset.prod_congr rfl fun j _ => mul_comm _ _

include hy

/-- The loop of R133 adds one scaled basis polynomial per index. -/
theorem polyOf_lagrangeSum : ∀ (is acc q : List Nat), (∀ v ∈ acc, v < F.size) →
    F.lagrangeSum xs ys is acc = some q →
    polyOf φ q = polyOf φ acc + (is.map fun i =>
      C (nodesOf φ ys i) * Lagrange.basis (Finset.range xs.length) (nodesOf φ xs) i).sum := by
  intro is
  induction is with
  | nil => rintro acc q - ⟨⟩; simp
  | cons i is ih =>
    intro acc q hacc h
    unfold FieldDesc.lagrangeSum at h
    split at h
    · cases h
    · next d hd =>
      have hden := hv.lagrangeDen_lt hx i
      have hdl : d < F.size := (hv.finv_eq_some hden hd).2.1
      have hyi := hv.getD_lt hy i
      have hscale := hv.fmul_lt hyi hdl
      have hnum := hv.lagrangeNum_lt hx i
      have hterm := hv.pscale_lt hnum hscale
      have hvalue : polyOf φ (F.pscale (F.lagrangeNum xs i) (F.fmul (ys.getD i 0) d)) =
          C (nodesOf φ ys i) * Lagrange.basis (Finset.range xs.length) (nodesOf φ xs) i := by
        rw [polyOf_pscale hc hnum hscale, hc.mul _ hyi _ hdl, hc.inv hv hden hd, map_mul,
          ← polyOf_lagrangeNum_div hv hc hx, nodesOf, mul_left_comm]
      rw [ih _ _ (hv.padd_lt hacc hterm) h, polyOf_padd hv hc hacc hterm, hvalue, List.map_cons, List.sum_cons,
        add_assoc]

/-- Interpolation computes Lagrange's interpolation polynomial (R133). -/
theorem polyOf_interpolate {q : List Nat} (hn : xs.Nodup) (h : F.interpolate xs ys = some q) :
    polyOf φ q = Lagrange.interpolate (Finset.range xs.length) (nodesOf φ xs) (nodesOf φ ys) := by
  obtain ⟨acc, hacc, rfl⟩ := Option.map_eq_some_iff.mp h
  have hzeros : polyOf φ (List.replicate xs.length 0) = 0 := polyOf_append_zeros hc [] xs.length
  have hsum : polyOf φ acc = Lagrange.interpolate (Finset.range xs.length) (nodesOf φ xs) (nodesOf φ ys) := by
    rw [polyOf_lagrangeSum hv hc hx hy _ _ _ (zeros_lt hv xs.length) hacc, hzeros, zero_add,
      Lagrange.interpolate_apply]
    -- a sum over `Finset.range` is by definition the sum of the list
    rfl
  rw [polyOf_take hc, hsum]
  rw [hsum]
  simpa using Lagrange.degree_interpolate_lt (nodesOf φ ys) (injOn_nodesOf hv hc hx hn)

end Interpolation

/-- Settles O40: the interpolation and `p` denote the one polynomial of degree below `k` that has these values, and both
lists have `k` canonical coefficients. -/
theorem interpolationIdempotent : Obligations.InterpolationIdempotent := by
  intro F xs p hv hn hx hlen hp
  obtain ⟨K, _, φ, hc⟩ := hv.exists_codes
  have hy : ∀ v ∈ xs.map fun x => F.peval p x, v < F.size := by
    simpa using fun x hxm => hv.peval_lt (hx x hxm) hp
  obtain ⟨q, hq⟩ := Option.ne_none_iff_exists'.mp fun hnone =>
    (interpolate_eq_none_iff hv hx (xs.map fun x => F.peval p x)).mp hnone hn
  obtain ⟨hql, hqc⟩ := hv.interpolate_spec hx hy hq
  have hdeg : (polyOf φ p).degree < (Finset.range xs.length).card := by
    rw [Finset.card_range]
    exact (degree_polyOf_lt hc p).trans_le (by exact_mod_cast hlen)
  have hvalues : ∀ i ∈ Finset.range xs.length,
      (polyOf φ p).eval (nodesOf φ xs i) = nodesOf φ (xs.map fun x => F.peval p x) i := by
    intro i hi
    have hi := Finset.mem_range.mp hi
    rw [nodesOf, nodesOf, ← eval_polyOf hv hc hp (hv.getD_lt hx i), List.getD_eq_getElem _ _ hi,
      List.getD_eq_getElem _ _ (by simpa using hi), List.getElem_map]
  have hpoly : polyOf φ q = polyOf φ (p ++ List.replicate (xs.length - p.length) 0) := by
    rw [polyOf_append_zeros hc, polyOf_interpolate hv hc hx hy hn hq]
    exact (Lagrange.eq_interpolate_of_eval_eq _ (injOn_nodesOf hv hc hx hn) hdeg hvalues).symm
  rw [hq, eq_of_polyOf_eq hc hqc (append_zeros_lt hv hp _) (by simp; omega) hpoly]

end Sys2Proof.Proofs
end

section
/-! RECOVER on readable operands (R214): how it ends is decided by `rfn`, whose two cases are R216 (fewer than K valid
positions) and R217 (the first K valid positions are interpolated). -/

namespace Sys2Proof.Proofs

open Sys2Proof Sys2Proof.Machine

/-! The two cases of `rfn`. -/

/-- Too few valid positions: the zero message and INSUF, whatever the points are (R216). -/
theorem rfn_of_insufficient (F : FieldDesc) {marked : Nat → Bool} {points : List Nat} (r : List Nat) {k : Nat}
    (h : (validPositions marked points.length).length < k) :
    F.rfn marked points r k = some (List.replicate k 0, true) := if_pos h

/-- Enough valid positions: `rfn` raises exactly when two of the first `k` of them carry equal points (R217). -/
theorem rfn_eq_none_iff {F : FieldDesc} (hv : F.Valid) {marked : Nat → Bool} {points : List Nat}
    (hp : ∀ v ∈ points, v < F.size) (r : List Nat) {k : Nat}
    (h : k ≤ (validPositions marked points.length).length) :
    F.rfn marked points r k = none ↔
      ¬ (((validPositions marked points.length).take k).map fun p => points.getD p 0).Nodup := by
  have hchosen : ∀ v ∈ ((validPositions marked points.length).take k).map fun p => points.getD p 0, v < F.size :=
    List.forall_mem_map.mpr fun p _ => hv.getD_lt hp p
  rw [FieldDesc.rfn, if_neg (Nat.not_lt.mpr h), Option.map_eq_none_iff, interpolate_eq_none_iff hv hchosen]

/-! The command's two ends. -/

section Recover

variable {s : State} {points r : List Nat} (hv : s.cfg.Valid) (hg : s.GeometryOk)
  (ha : s.Operand .alpha s.len points) (hr : s.Operand .cw s.len r)
include hv hg ha hr

/-- A recovery with a result commits it to `DEC[0..K-1]` and INSUF, and leaves the rest of the state (R214). -/
theorem recover_commits {res : List Nat × Bool} (h : s.cfg.field.rfn s.errBit points r s.dim = some res)
    (hlen : res.1.length = s.dim) (hcanon : ∀ v ∈ res.1, v < s.cfg.field.size) :
    ∃ t, exec .recover s = .next t ∧ t.Operand .dec s.dim res.1 ∧ SameBytesOutside s t (lanesOf .dec s.dim) ∧
      t = { s with mem := t.mem, status := s.status.committed s.status.wValid res.2 } := by
  refine ⟨finish (s.commitRecovery res), ?_, ⟨hlen, ?_, hcanon⟩, ?_, rfl⟩
  · rw [exec_eq_complete, runOf, runRecover_ok hv.size_le hg ha hr h, complete_ok]
  · exact codes_setElems s .dec res.1 hv.size_le hcanon
  · rw [← hlen]
    exact fun _ => readByte_setElems_outside s .dec res.1

/-- RECOVER ends with DivisionByZero exactly when `rfn` raises; a commit ends with ERR = NONE. -/
theorem recover_eq_withError_iff :
    exec .recover s = .next (s.withError 4) ↔ s.cfg.field.rfn s.errBit points r s.dim = none := by
  rw [exec_eq_complete]
  cases h : s.cfg.field.rfn s.errBit points r s.dim with
  | none =>
    have hrun : runOf .recover s = .raised .divisionByZero := by
      simp [runOf, runRecover, checkGeometry_ok hg, readCanonical_ok hv.size_le ha, readCanonical_ok hv.size_le hr, h]
    simp [hrun, abort_eq_withError, Exception.code]
  | some res =>
    rw [runOf, runRecover_ok hv.size_le hg ha hr h, complete_ok]
    refine iff_of_false (fun hend => ?_) (Option.some_ne_none res)
    have herr : (finish (s.commitRecovery res)).status.err = (s.withError 4).status.err := by
      rw [Host.Outcome.next.inj hend]
    exact absurd herr (show ¬ (0 : BitVec 4) = 4 by decide)

end Recover

/-- Settles O29: `rfn` answers the zero message before it looks at a point, and zeros are canonical codes. -/
theorem recoverInsufficientPoints : Obligations.RecoverInsufficientPoints := by
  intro s points r hv hg ha hr hfew
  have ⟨hlen, _, _⟩ := ha
  refine recover_commits hv hg ha hr (rfn_of_insufficient _ r ?_) List.length_replicate (zeros_lt hv.1 s.dim)
  rwa [hlen]

/-- Settles O30: RECOVER raises exactly when `rfn` does, and with K valid positions `rfn` raises exactly on a repeated
abscissa among the K it interpolates. -/
theorem recoverRaisesExactlyOnSelectedDuplicates : Obligations.RecoverRaisesExactlyOnSelectedDuplicates := by
  intro s points r hv hg ha hr henough
  have ⟨hlen, _, hcanon⟩ := ha
  rw [recover_eq_withError_iff hv hg ha hr, rfn_eq_none_iff hv.1 hcanon r (by rwa [hlen]), hlen]
  rfl

end Sys2Proof.Proofs
end

section
/-! Acceptance of a command word (R239), and the completion of one that is ILLEGAL (R237, R258). -/

namespace Sys2Proof.Proofs

open Sys2Proof Sys2Proof.Machine

/-- A write to CMD while BUSY = 0 accepts its data, whatever word it is (R64, R239). -/
theorem step_write_cmd_idle {s : State} {v : Word} {rest : List HostOp} (h : s.HostDoes (.wr 0x000C v) rest)
    (hb : s.status.busy = false) : step s = .next (accept v (s.hostUsed rest)) := by
  rw [step_write_idle h rfl hb, target_reg _ (r := .cmd) rfl]
  rfl

/-- A word with a nonzero RSV or an unassigned OP decodes to no command (R93). -/
theorem exists_decode_eq_error {word : Word} (h : word.toNat / 256 ≠ 0 ∨ 8 ≤ word.toNat % 256) :
    ∃ e, decode word = .error e := by
  by_cases hrsv : rsvField word = 0
  · have hop : 8 ≤ (opField word).toNat := by
      rw [opField_toNat]
      exact h.resolve_left (not_not.mpr ((rsvField_eq_zero_iff word).mp hrsv))
    exact ⟨_, decode_of_opcode_unassigned hrsv hop⟩
  · exact ⟨_, decode_of_rsvField_ne_zero hrsv⟩

/-- The core step on a word that decodes to no command is the end with code 1 (ILLEGAL). -/
theorem coreStep_of_decode_error {s : State} {e : IllegalWord} (h : decode s.cmdlatch = .error e) :
    coreStep s = .next (s.withError 1) := by
  obtain ⟨i, hi, -⟩ | ⟨_, -, habort⟩ := coreStep_cases s
  · rw [h] at hi
    cases hi
  · exact habort

/-- Settles O8: the offset 0x00C selects CMD, and a write to CMD while BUSY = 0 is acceptance, which does not decode. -/
theorem acceptanceLatchesAnyWord : Obligations.AcceptanceLatchesAnyWord :=
  fun _ _ _ h hb => step_write_cmd_idle h hb

/-- Settles O7: the word decodes to no command, and then the core step looks at nothing else. -/
theorem illegalWordAborts : Obligations.IllegalWordAborts := by
  intro s hm hb hr hillegal
  obtain ⟨e, he⟩ := exists_decode_eq_error hillegal
  have hlatched : decode s.popTurn.cmdlatch = .error e := he
  rw [step_of_core hm hb hr, coreStep_of_decode_error hlatched]

end Sys2Proof.Proofs
end

section
/-! The geometry check is the only source of LengthMismatch (R250, R255): past it a command raises RangeError, by an operand
check, or DivisionByZero, by a missing inverse. -/

namespace Sys2Proof.Proofs

open Sys2Proof Sys2Proof.Machine

/-- A sequence raises nothing that neither of its parts raises (R11). -/
theorem andThen_ne_raised {α β : Type} {x : Attempt α} {f : α → Attempt β} {e : Exception} (hx : x ≠ .raised e)
    (hf : ∀ a, f a ≠ .raised e) : x.andThen f ≠ .raised e := by
  intro h
  rcases andThen_eq_raised h with h | ⟨a, -, h⟩
  · exact hx h
  · exact hf a h

section RaisesNothingElse

variable {e : Exception} (hr : e ≠ .rangeError) (hd : e ≠ .divisionByZero)

include hr in
theorem readCanonical_ne_raised {s : State} {b : Buf} {len : Nat} : s.readCanonical b len ≠ .raised e := by
  intro h
  obtain ⟨hrange, -⟩ := readCanonical_eq_raised h
  exact hr hrange

include hd in
theorem orDivisionByZero_ne_raised {α : Type} {x : Option α} : orDivisionByZero x ≠ .raised e := by
  intro h
  obtain ⟨-, hdiv⟩ := orDivisionByZero_eq_raised h
  exact hd hdiv

include hd in
/-- Cached weights are read without a check; fresh ones can only lack an inverse (R168). -/
theorem weightsForUse_ne_raised {s : State} {points : List Nat} : s.weightsForUse points ≠ .raised e := by
  unfold State.weightsForUse
  split
  · exact andThen_ne_raised readElems_ne_raised fun _ => nofun
  · exact andThen_ne_raised (orDivisionByZero_ne_raised hd) fun _ => nofun

include hd in
theorem decodeStages_ne_raised {c : Config} {k : Nat} {r points w : List Nat} :
    decodeStages c k r points w ≠ .raised e :=
  andThen_ne_raised (orDivisionByZero_ne_raised hd) fun _ =>
    andThen_ne_raised (orDivisionByZero_ne_raised hd) fun _ => nofun

include hr hd in
/-- With a valid geometry a command raises RangeError or DivisionByZero, or nothing: the parts of each rule, in order. -/
theorem runOf_ne_raised {i : Instr} {s : State} (hg : s.GeometryOk) : runOf i s ≠ .raised e := by
  have hgeometry : s.checkGeometry ≠ .raised e := by
    rw [checkGeometry_ok hg]
    nofun
  have hcanonical {b : Buf} {len : Nat} : s.readCanonical b len ≠ .raised e := readCanonical_ne_raised hr
  have hinverse {α : Type} {x : Option α} : orDivisionByZero x ≠ .raised e := orDivisionByZero_ne_raised hd
  cases i with
  | nop => exact nofun
  | encode | roots =>
    exact andThen_ne_raised hgeometry fun _ => andThen_ne_raised hcanonical fun _ =>
      andThen_ne_raised hcanonical fun _ => nofun
  | weights | bmsyn =>
    exact andThen_ne_raised hgeometry fun _ => andThen_ne_raised hcanonical fun _ =>
      andThen_ne_raised hinverse fun _ => nofun
  | syndrome =>
    exact andThen_ne_raised hgeometry fun _ => andThen_ne_raised hcanonical fun _ =>
      andThen_ne_raised hcanonical fun _ => andThen_ne_raised (weightsForUse_ne_raised hd) fun _ => nofun
  | recover =>
    exact andThen_ne_raised hgeometry fun _ => andThen_ne_raised hcanonical fun _ =>
      andThen_ne_raised hcanonical fun _ => andThen_ne_raised hinverse fun _ => nofun
  | decode =>
    exact andThen_ne_raised hgeometry fun _ => andThen_ne_raised hcanonical fun _ =>
      andThen_ne_raised hcanonical fun _ => andThen_ne_raised (weightsForUse_ne_raised hd) fun _ =>
      andThen_ne_raised (decodeStages_ne_raised hd) fun _ => nofun

end RaisesNothingElse

/-- Code 2 is LengthMismatch's alone (R250). -/
theorem code_eq_two_iff (e : Exception) : e.code = 2 ↔ e = .lengthMismatch := by
  cases e <;> decide

/-- A failed geometry check ends every command but NOP with ERR = LENGTH, and changes nothing else (R252, R255). -/
theorem exec_of_not_geometry {i : Instr} {s : State} (hi : i ≠ .nop) (h : ¬ s.GeometryOk) :
    exec i s = .next (s.withError 2) := by
  rw [exec_eq_complete, runOf_of_not_geometry hi h, complete_raised, abort_eq_withError, Exception.code]

/-- With a valid geometry no command ends with ERR = LENGTH: a commit clears ERR, and an abort has another code. -/
theorem err_ne_two_of_geometry {i : Instr} {s t : State} (hg : s.GeometryOk) (h : exec i s = .next t) :
    t.status.err ≠ 2 := by
  rcases exec_eq_next h with ⟨u, -, rfl⟩ | ⟨e, hraised, rfl⟩
  · exact show ¬ (0 : BitVec 4) = 2 by decide
  · intro hcode
    obtain rfl : e = .lengthMismatch := (code_eq_two_iff e).mp hcode
    exact runOf_ne_raised (by decide) (by decide) hg hraised

/-- Settles O32: the geometry check comes first in every rule but NOP's, and nothing after it raises LengthMismatch. -/
theorem geometryErrorExactly : Obligations.GeometryErrorExactly :=
  fun _ _ hi => ⟨exec_of_not_geometry hi, fun hg _ => err_ne_two_of_geometry hg⟩

end Sys2Proof.Proofs
end

section
/-! The encodings: command words (R90-R94), transaction triples (R96, R99) and the pseudo-instructions (R98). -/

namespace Sys2Proof.Proofs

open Sys2Proof

/-- Settles O3: a word decodes to a command exactly when it is the command's encoding. -/
theorem decodeEncodeAgree : Obligations.DecodeEncodeAgree :=
  ⟨fun i _ => decode_encode i, fun _ _ h => (decode_eq_ok_iff.mp h).symm⟩

/-- Settles O1: the eight command words are the encodings of the commands, and each illegal one breaks its rule of R93. -/
theorem commandWordsDecode : Obligations.CommandWordsDecode := by
  have hunassigned {word : Word} (h : rsvField word = 0 ∧ 8 ≤ (opField word).toNat) :
      decode word = .error .unassignedOpcode := decode_of_opcode_unassigned h.1 h.2
  exact ⟨decode_encode .nop, decode_encode .encode, decode_encode .weights, decode_encode .syndrome,
    decode_encode .bmsyn, decode_encode .roots, decode_encode .recover, decode_encode .decode,
    hunassigned (by decide), hunassigned (by decide),
    decode_of_rsvField_ne_zero (by decide), decode_of_rsvField_ne_zero (by decide)⟩

/-! Transactions. -/

/-- An aligned byte offset has the word address `addr >> 2` (R96). -/
theorem waddrOf_aligned {a : BitVec 16} (ha : a.toNat % 4 = 0) : waddrOf a = some (BitVec.ofNat 14 (a.toNat / 4)) :=
  if_pos ha

theorem transaction_wr_aligned {a : BitVec 16} (v : Word) (ha : a.toNat % 4 = 0) :
    HostOp.transaction (.wr a v) = some { we := true, waddr := BitVec.ofNat 14 (a.toNat / 4), wdata := v } := by
  rw [HostOp.transaction, waddrOf_aligned ha, Option.map_some]

theorem transaction_rd_aligned {a : BitVec 16} (ha : a.toNat % 4 = 0) :
    HostOp.transaction (.rd a) = some { we := false, waddr := BitVec.ofNat 14 (a.toNat / 4), wdata := 0 } := by
  rw [HostOp.transaction, waddrOf_aligned ha, Option.map_some]

/-- A triple's line has that triple; the data of a read are 0 (R96). -/
theorem transaction_hostOp (t : Transaction) (h : t.we = false → t.wdata = 0) : t.hostOp.transaction = some t := by
  obtain ⟨we, waddr, wdata⟩ := t
  cases we with
  | true => simp [Transaction.hostOp, HostOp.transaction]
  | false =>
    obtain rfl : wdata = 0 := h rfl
    simp [Transaction.hostOp, HostOp.transaction]

/-- A line's triple spells that line; WAIT, which stands for many reads, is no line of R96. -/
theorem hostOp_of_transaction {op : HostOp} {t : Transaction} (hop : op ≠ .wait) (h : op.transaction = some t) :
    t.hostOp = op := by
  cases op with
  | wait => exact absurd rfl hop
  | wr a v =>
    obtain ⟨wa, hwa, rfl⟩ := Option.map_eq_some_iff.mp h
    rw [waddrOf_eq_some hwa]
    rfl
  | rd a =>
    obtain ⟨wa, hwa, rfl⟩ := Option.map_eq_some_iff.mp h
    rw [waddrOf_eq_some hwa]
    rfl

/-- Settles O4: the word address and the byte offset determine each other, and the examples of R99 compute. -/
theorem transactionTriples : Obligations.TransactionTriples :=
  ⟨fun _ v ha => ⟨transaction_wr_aligned v ha, transaction_rd_aligned ha⟩, transaction_hostOp,
    fun _ _ => hostOp_of_transaction, by decide, by decide, by decide, by decide, by decide⟩

/-! Pseudo-instructions. -/

/-- A LOAD writes value `j` of its list to element `i + j` (R98). -/
theorem loadFrom_eq_flatMap (w : Window) (vs : List Nat) : ∀ i, loadFrom w i vs =
    (List.range vs.length).flatMap fun j => (AsmLine.wr (.elem w (i + j)) (.lit (vs.getD j 0))).expand := by
  induction vs with
  | nil => exact fun _ => rfl
  | cons v vs ih =>
    intro i
    rw [loadFrom, ih, List.length_cons, List.range_succ_eq_map, List.flatMap_cons, List.flatMap_map]
    simp [AsmLine.expand, AsmValue.word, Nat.add_assoc, Nat.add_comm 1]

/-- Settles O5: every pseudo-instruction but LOAD expands to the listed lines by definition. -/
theorem pseudoInstructionsExpand : Obligations.PseudoInstructionsExpand := by
  refine ⟨fun _ => rfl, fun _ => rfl, fun _ _ => rfl, rfl, fun w vs => ?_⟩
  simpa [AsmLine.expand] using loadFrom_eq_flatMap w vs 0

end Sys2Proof.Proofs
end

section
/-! The read side of the port (R65-R68), the words of the registers (R21-R39), and a step seen from its mover (R73, R240,
R280). -/

namespace Sys2Proof.Proofs

open Sys2Proof Sys2Proof.Machine

/-! Reads. -/

section Reads

variable {s : State} {a : BitVec 16} {rest : List HostOp} (h : s.HostDoes (.rd a) rest) (ha : a.toNat % 4 = 0)
include h ha

/-- A read of a target whose value the spec fixes gives the host that value, and changes nothing else (R65, R67). -/
theorem step_read_fixed {t : Target} {v : Word} (ht : target s.cfg.nmax (BitVec.ofNat 14 (a.toNat / 4)) = t)
    (hv : s.readTarget t = some v) : step s = .next { s.hostUsed rest with reads := v :: s.reads } := by
  subst ht
  have hused : (s.hostUsed rest).readTarget (target s.cfg.nmax (BitVec.ofNat 14 (a.toNat / 4))) = some v := hv
  rw [step_read h ha, memRead_some hused]
  rfl

/-- A read of any other target gives the host the next free value (R52, R67). -/
theorem step_read_draw {t : Target} (ht : target s.cfg.nmax (BitVec.ofNat 14 (a.toNat / 4)) = t)
    (hv : s.readTarget t = none) :
    step s = .next { s.hostUsed rest with reads := Config.freeRead s.draws :: s.reads, draws := s.draws + 1 } := by
  subst ht
  have hused : (s.hostUsed rest).readTarget (target s.cfg.nmax (BitVec.ofNat 14 (a.toNat / 4))) = none := hv
  rw [step_read h ha, memRead_none hused]
  rfl

end Reads

theorem readTarget_idle {s : State} (hb : s.status.busy = false) (t : Target) : s.readTarget t = s.idleRead t := by
  rw [State.readTarget, hb]
  rfl

theorem readTarget_busy {s : State} (hb : s.status.busy = true) (t : Target) : s.readTarget t = s.busyRead t := by
  rw [State.readTarget, hb]
  rfl

/-- Only the four registers that a command computes are not readable while BUSY (R67). -/
theorem readableWhileBusy_iff (r : RegName) :
    r.readableWhileBusy = true ↔ r ≠ .bmL ∧ r ≠ .bmM ∧ r ≠ .bmB ∧ r ≠ .nerr := by
  cases r <;> decide

theorem getLsbD_errmapWord (s : State) (w : Nat) {j : Nat} (hj : j < 32) :
    (s.errmapWord w).getLsbD j = s.errBit (32 * w + j) := by
  simp [State.errmapWord, State.errBit, hj]

/-- Settles O11: the target of the offset decides, and an idle read of it gives its current value, if it holds one. -/
theorem idleReadsReturnCurrentValues : Obligations.IdleReadsReturnCurrentValues := by
  intro s a rest h ha hb hv
  obtain ⟨-, -, hnmax⟩ := hv
  have hidle := readTarget_idle hb
  refine ⟨fun r hr => ?_, fun b i w hi hbi hw => ?_, fun b i hi hbi hw => ?_, fun w hw haw => ?_, fun h1 h2 h3 => ?_⟩
  · exact step_read_fixed h ha (target_reg _ hr) (hidle _)
  · exact step_read_fixed h ha (target_elem hnmax hi hbi) ((hidle _).trans hw)
  · exact step_read_draw h ha (target_elem hnmax hi hbi) ((hidle _).trans hw)
  · exact ⟨s.errmapWord w, step_read_fixed h ha (target_errmap hnmax hw haw) (hidle _),
      fun _ => getLsbD_errmapWord s w⟩
  · exact step_read_fixed h ha (target_reserved ha h1 h2 h3) (hidle _)

/-- Settles O12: the target of the offset decides, and a busy read of it is a draw unless it is reserved or one of the
registers no command computes. -/
theorem busyReads : Obligations.BusyReads := by
  intro s a rest h ha hb hv
  obtain ⟨-, -, hnmax⟩ := hv
  have hbusy := readTarget_busy hb
  have hdraw {r : RegName} (hr : r.readableWhileBusy = false) : s.readTarget (.reg r) = none := by
    rw [hbusy, State.busyRead, hr]
    rfl
  refine ⟨fun r hL hM hB hN hr => ?_, fun h1 h2 h3 => ?_, ?_⟩
  · refine step_read_fixed h ha (target_reg _ hr) ((hbusy _).trans ?_)
    rw [State.busyRead, (readableWhileBusy_iff r).mpr ⟨hL, hM, hB, hN⟩]
    rfl
  · exact step_read_fixed h ha (target_reserved ha h1 h2 h3) (hbusy _)
  · rintro (rfl | rfl | rfl | rfl | ⟨b, i, hi, hbi⟩ | ⟨w, hw, haw⟩)
    · exact step_read_draw h ha (target_reg _ (r := .bmL) rfl) (hdraw rfl)
    · exact step_read_draw h ha (target_reg _ (r := .bmM) rfl) (hdraw rfl)
    · exact step_read_draw h ha (target_reg _ (r := .bmB) rfl) (hdraw rfl)
    · exact step_read_draw h ha (target_reg _ (r := .nerr) rfl) (hdraw rfl)
    · exact step_read_draw h ha (target_elem hnmax hi hbi) (hbusy _)
    · exact step_read_draw h ha (target_errmap hnmax hw haw) (hbusy _)

/-- A poll reads STATUS, busy or idle, and goes on when DONE is set (R98). -/
theorem pollDone_eq (s : State) (rest : List HostOp) : s.pollDone rest =
    { s with program := if s.status.done then rest else s.program, reads := s.readReg .status :: s.reads } := by
  have hvalue : s.readTarget (target s.cfg.nmax 0x0004) = some (s.readReg .status) := by
    cases hb : s.status.busy with
    | false => exact readTarget_idle hb _
    | true => exact readTarget_busy hb _
  rw [State.pollDone, memRead_some hvalue, toWord_done]
  cases s.status.done <;> rfl

/-- Settles O16: a WAIT is one poll of STATUS. -/
theorem waitPollsDone : Obligations.WaitPollsDone := by
  intro s rest h
  have hstep : step s = .next (s.popTurn.pollDone rest) := step_of_hostDoes h
  rw [hstep, pollDone_eq, popTurn_status]
  constructor
  · intro hd
    rw [hd]
    rfl
  · intro hd
    rw [hd]
    rfl

/-! Register words. -/

theorem toNat_toWord (st : Status) : st.toWord.toNat =
    (if st.busy then 1 else 0) + (if st.done then 2 else 0) + (if st.wovr then 4 else 0) +
      (if st.insuf then 8 else 0) + 16 * st.err.toNat + (if st.wValid then 256 else 0) := by
  obtain ⟨busy, done, wovr, insuf, err, wValid⟩ := st
  cases busy <;> cases done <;> cases wovr <;> cases insuf <;> cases wValid <;> revert err <;> decide

/-- The fields of CFG, each within its bits (R22). -/
theorem toNat_cfgWord {c : Config} (hv : c.Valid) : (cfgWord c).toNat =
    c.nmax + 2 ^ 16 * c.field.ew + 2 ^ 22 * (if c.field.isPrime then 1 else 0) := by
  obtain ⟨-, -, hn⟩ := hv
  have hew := ew_le c.field
  have hprime : (BitVec.ofBool c.field.isPrime).toNat = if c.field.isPrime then 1 else 0 := by
    cases c.field.isPrime <;> rfl
  rw [cfgWord]
  simp only [BitVec.toNat_append, BitVec.toNat_ofNat, hprime]
  rw [← Nat.shiftLeft_add_eq_or_of_lt (by omega), ← Nat.shiftLeft_add_eq_or_of_lt (by omega)]
  simp only [Nat.shiftLeft_eq]
  split <;> simp <;> omega

theorem count_le (s : State) : s.count ≤ s.len := by
  unfold State.count
  split <;> omega

/-- Settles O13: each register's word holds its fields, none of which is cut off. -/
theorem registerWords : Obligations.RegisterWords := by
  intro s hv
  have hsize := hv.size_le
  have hcount : (s.readReg .count).toNat = s.count := by
    have hlen : s.len < 2 ^ 16 := s.n.isLt
    have hle := count_le s
    rw [State.readReg, BitVec.toNat_ofNat, Nat.mod_eq_of_lt (by omega)]
  have hradius : (s.readReg .t).toNat = (s.readReg .count).toNat / 2 := by
    have hlt := (s.readReg .count).isLt
    rw [hcount] at hlt ⊢
    rw [State.readReg, State.radius, BitVec.toNat_ofNat, Nat.mod_eq_of_lt (by omega)]
  have hwide (x : BitVec 16) : (x.setWidth 32).toNat = x.toNat := by
    have hx := x.isLt
    rw [BitVec.toNat_setWidth, Nat.mod_eq_of_lt (by omega)]
  refine ⟨rfl, toNat_cfgWord hv, hv.1.isPrime_iff, ?_, rfl, toNat_toWord s.status, hwide s.n, hwide s.k,
    hcount, hradius, hwide s.bmL, hwide s.bmM, rfl, hwide s.nerr⟩
  rw [State.readReg, fsizeWord, BitVec.toNat_ofNat, Nat.mod_eq_of_lt (by omega)]

/-! A step, by who moves. -/

theorem step_of_mover_host {s : State} (h : s.mover = .host) : step s = hostTurn s.popTurn := by rw [step, h]
theorem step_of_mover_core {s : State} (h : s.mover = .core) : step s = coreTurn s.popTurn := by rw [step, h]
theorem step_of_mover_assertRst {s : State} (h : s.mover = .assertRst) : step s = .next s.popTurn.assertReset := by
  rw [step, h]
theorem step_of_mover_releaseRst {s : State} (h : s.mover = .releaseRst) :
    step s = .next s.popTurn.releaseReset := by rw [step, h]

theorem hostTurn_of_rst {s : State} (h : s.rst = true) : hostTurn s = .next s := if_pos h

theorem hostTurn_of_program_nil {s : State} (h : s.program = []) : hostTurn s = .next s := by simp [hostTurn, h]

theorem coreStep_of_decode_ok {s : State} {i : Instr} (h : decode s.cmdlatch = .ok i) : coreStep s = exec i s := by
  rw [coreStep, h]

/-- The host's fixed decoder answers a command exactly when the word decodes to it. -/
theorem decodeTableWord_eq_some {nbits w : Nat} {i : Instr} (h : decodeTableWord nbits w = some i) :
    decode (tableWord nbits w) = .ok i := by
  unfold decodeTableWord at h
  split at h
  · next hok =>
    cases h
    exact hok
  · cases h

/-- Settles O6: the mover decides, and a turn with nothing to do only uses itself up. -/
theorem stepRunsDecodedCommand : Obligations.StepRunsDecodedCommand := by
  refine ⟨fun s i hm hb hr hdec => ?_, fun s nbits w i hdec => ?_, fun s hm hb => ?_, fun s hm hp => ?_⟩
  · exact (step_of_core hm hb hr).trans (coreStep_of_decode_ok hdec)
  · have hlatched : decode (s.withFetchWord nbits w).popTurn.cmdlatch = .ok i := decodeTableWord_eq_some hdec
    rw [step_of_core (s := s.withFetchWord nbits w) rfl rfl rfl, coreStep_of_decode_ok hlatched]
    rfl
  · exact (step_of_mover_core hm).trans (coreTurn_disabled (.inl hb))
  · exact (step_of_mover_host hm).trans (hostTurn_of_program_nil hp)

/-- Settles O18: neither agent's turn does anything while `rst` is asserted, and the release writes the reset state. -/
theorem resetAbandonsEverything : Obligations.ResetAbandonsEverything := by
  refine fun s => ⟨step_of_mover_assertRst, fun hr hm => ?_, fun hr hm => ?_⟩
  · rcases hm with hm | hm
    · exact (step_of_mover_host hm).trans (hostTurn_of_rst hr)
    · exact (step_of_mover_core hm).trans (coreTurn_disabled (.inr hr))
  · have hrst : s.popTurn.rst = true := hr
    rw [step_of_mover_releaseRst hm, releaseReset_of_rst _ hrst]
    rfl

/-- Settles O19: NOP's rule commits the state it ran in. -/
theorem nopCompletes : Obligations.NopCompletes := by
  have hnop (s : State) : exec .nop s = .next (finish s) := by rw [exec_eq_complete, runOf, complete_ok]
  exact fun s => ⟨hnop s, hnop _⟩

/-! Refusals. -/

/-- An action of the host is refused exactly at an offset that spells no transaction (R63). -/
theorem hostAct_eq_refused_iff {op : HostOp} {rest : List HostOp} {s : State} {x : Refusal} :
    hostAct op rest s = .refused x ↔
      ∃ a, a.toNat % 4 ≠ 0 ∧ x = .misalignedOffset a ∧ (op = .rd a ∨ ∃ v, op = .wr a v) := by
  cases op with
  | wait => simp [hostAct]
  | wr a v =>
    cases hwa : waddrOf a with
    | none =>
      have ha := waddrOf_eq_none.mp hwa
      simp [hostAct, HostOp.transaction, hwa, ha, eq_comm (a := x)]
    | some wa =>
      have ha : a.toNat % 4 = 0 := not_not.mp (mt waddrOf_eq_none.mpr (by simp [hwa]))
      simp [hostAct, HostOp.transaction, hwa, ha]
  | rd a =>
    cases hwa : waddrOf a with
    | none =>
      have ha := waddrOf_eq_none.mp hwa
      simp [hostAct, HostOp.transaction, hwa, ha, eq_comm (a := x)]
    | some wa =>
      have ha : a.toNat % 4 = 0 := not_not.mp (mt waddrOf_eq_none.mpr (by simp [hwa]))
      simp [hostAct, HostOp.transaction, hwa, ha]

theorem exec_ne_refused {i : Instr} {s : State} {x : Refusal} : exec i s ≠ .refused x := by
  rw [exec_eq_complete]
  exact complete_ne_refused

/-- No move of the core is refused (R261). -/
theorem coreTurn_ne_refused {s : State} {x : Refusal} : coreTurn s ≠ .refused x := by
  unfold coreTurn
  split
  · rcases coreStep_cases s with ⟨i, -, hi⟩ | ⟨_, -, he⟩
    · rw [hi]
      exact exec_ne_refused
    · rw [he]
      nofun
  · nofun

/-- A refused step is an action of the host that is refused. -/
theorem step_eq_refused {s : State} {x : Refusal} (h : step s = .refused x) :
    ∃ op rest, s.HostDoes op rest ∧ hostAct op rest s.popTurn = .refused x := by
  cases hm : s.mover with
  | host =>
    rw [step_of_mover_host hm] at h
    unfold hostTurn at h
    split at h
    · cases h
    · next hr =>
      split at h
      · cases h
      · next op rest hp => exact ⟨op, rest, ⟨hm, by simpa using hr, hp⟩, h⟩
  | core =>
    rw [step_of_mover_core hm] at h
    exact absurd h coreTurn_ne_refused
  | assertRst =>
    rw [step_of_mover_assertRst hm] at h
    cases h
  | releaseRst =>
    rw [step_of_mover_releaseRst hm] at h
    cases h

/-- Settles O15: only the host's turn can be refused, and it is refused as the action it takes is. -/
theorem onlyMisalignedOffsetsAreRefused : Obligations.OnlyMisalignedOffsetsAreRefused := by
  intro s x
  constructor
  · intro h
    obtain ⟨op, rest, hdoes, hact⟩ := step_eq_refused h
    obtain ⟨a, ha, hx, rfl | ⟨v, rfl⟩⟩ := hostAct_eq_refused_iff.mp hact
    · exact ⟨a, rest, ha, hx, .inl hdoes⟩
    · exact ⟨a, rest, ha, hx, .inr ⟨v, hdoes⟩⟩
  · rintro ⟨a, rest, ha, hx, hdoes | ⟨v, hdoes⟩⟩
    · rw [step_of_hostDoes hdoes]
      exact hostAct_eq_refused_iff.mpr ⟨a, ha, hx, .inl rfl⟩
    · rw [step_of_hostDoes hdoes]
      exact hostAct_eq_refused_iff.mpr ⟨a, ha, hx, .inr ⟨v, rfl⟩⟩

end Sys2Proof.Proofs
end

section
/-! The field primitives (R120-R125), linearity of encoding (R151), and the weights and syndromes (R160-R164), each read in
the field that FIELD codes. -/

namespace Sys2Proof.Proofs

open Sys2Proof Polynomial

/-! The field primitives. -/

section Primitives

variable {F : FieldDesc} (hv : F.Valid)
include hv

/-- The difference is the only solution (R122). -/
theorem fadd_eq_iff {a b c : Nat} (ha : a < F.size) (hb : b < F.size) (hcl : c < F.size) :
    F.fadd b c = a ↔ c = F.fsub a b := by
  obtain ⟨hlt, hadd⟩ := hv.fsub_spec ha hb
  constructor
  · intro h
    obtain ⟨K, _, φ, hc⟩ := hv.exists_codes
    refine hc.inj _ hcl _ hlt ?_
    rw [hc.sub hv ha hb, ← h, hc.add _ hb _ hcl, add_sub_cancel_left]
  · rintro rfl
    exact hadd

theorem fsub_self {a : Nat} (ha : a < F.size) : F.fsub a a = 0 :=
  ((fadd_eq_iff hv ha ha hv.zero_lt).mp (hv.isField.add_zero a ha)).symm

theorem fsub_zero {a : Nat} (ha : a < F.size) : F.fsub a 0 = a := by
  have hzero : F.fadd 0 a = a := by rw [hv.isField.add_comm 0 hv.zero_lt a ha, hv.isField.add_zero a ha]
  exact ((fadd_eq_iff hv ha hv.zero_lt ha).mp hzero).symm

theorem fmul_zero {a : Nat} (ha : a < F.size) : F.fmul a 0 = 0 := by
  obtain ⟨K, _, φ, hc⟩ := hv.exists_codes
  refine hc.inj _ (hv.fmul_lt ha hv.zero_lt) _ hv.zero_lt ?_
  rw [hc.mul _ ha _ hv.zero_lt, hc.zero, mul_zero]

theorem zero_fmul {a : Nat} (ha : a < F.size) : F.fmul 0 a = 0 := by
  rw [hv.isField.mul_comm 0 hv.zero_lt a ha, fmul_zero hv ha]

/-- The inverse is the only solution (R124). -/
theorem finv_eq_some_iff {a c : Nat} (ha : a < F.size) : F.finv a = some c ↔ c < F.size ∧ F.fmul a c = 1 := by
  constructor
  · intro h
    obtain ⟨-, hlt, hmul⟩ := hv.finv_eq_some ha h
    exact ⟨hlt, hmul⟩
  · rintro ⟨hlt, hmul⟩
    have h0 : a ≠ 0 := by
      rintro rfl
      rw [zero_fmul hv hlt] at hmul
      exact Nat.zero_ne_one hmul
    obtain ⟨b, hb, -, -⟩ := hv.finv_spec ha h0
    obtain ⟨K, _, φ, hc⟩ := hv.exists_codes
    have hprod : φ a * φ c = 1 := by rw [← hc.mul _ ha _ hlt, hmul, hc.one]
    have hbc : b = c := by
      refine hc.inj _ (hv.finv_eq_some ha hb).2.1 _ hlt ?_
      rw [hc.inv hv ha hb, eq_inv_of_mul_eq_one_right hprod]
    rw [hb, hbc]

end Primitives

/-- Settles O37: canonical results are the model's own lemmas, `fsub` and `finv` are the unique solutions, and the residues
of GF(Q) stand in the definitions, the inverse by Fermat. -/
theorem fieldPrimitives : Obligations.FieldPrimitives := by
  refine ⟨fun F a b hv ha hb => ?_, fun q a b hv ha hb => ?_⟩
  · exact ⟨hv.fadd_lt ha hb, hv.fsub_lt ha hb, hv.fmul_lt ha hb, fun c hcl => fadd_eq_iff hv ha hb hcl,
      hv.isField.add_zero a ha, fsub_self hv ha, fmul_zero hv ha, hv.isField.mul_one a ha, hv.finv_eq_none ha,
      fun c => finv_eq_some_iff hv ha, rfl, fun _ => rfl⟩
  · obtain ⟨hsize, hprime⟩ := hv
    exact ⟨rfl, rfl, rfl, fun h0 => (FieldDesc.prime_finv hprime hsize ha h0).1⟩

/-- Settles O39: a denominator without an inverse is one that vanishes, at a repeated abscissa. -/
theorem interpolationRaisesExactlyOnDuplicates : Obligations.InterpolationRaisesExactlyOnDuplicates :=
  fun _ _ ys hv _ hx _ => interpolate_eq_none_iff hv hx ys

/-! Linear combinations, coefficient by coefficient and as values. -/

section Linear

variable {F : FieldDesc} (hv : F.Valid) {K : Type} [Field K] {φ : Nat → K} (hc : F.Codes φ)
include hc

include hv in
theorem codes_getD_padd {p q : List Nat} (hp : ∀ v ∈ p, v < F.size) (hq : ∀ v ∈ q, v < F.size) (i : Nat) :
    φ ((F.padd p q).getD i 0) = φ (p.getD i 0) + φ (q.getD i 0) := by
  simp only [← coeff_polyOf hc, polyOf_padd hv hc hp hq, coeff_add]

theorem codes_getD_pscale {p : List Nat} {a : Nat} (hp : ∀ v ∈ p, v < F.size) (ha : a < F.size) (i : Nat) :
    φ ((F.pscale p a).getD i 0) = φ (p.getD i 0) * φ a := by
  simp only [← coeff_polyOf hc, polyOf_pscale hc hp ha, coeff_mul_C]

end Linear

/-- The value of a linear combination is the linear combination of the values (R151). -/
theorem peval_padd_pscale {F : FieldDesc} (hv : F.Valid) {a b x : Nat} {m1 m2 : List Nat} (ha : a < F.size)
    (hb : b < F.size) (hx : x < F.size) (h1 : ∀ v ∈ m1, v < F.size) (h2 : ∀ v ∈ m2, v < F.size) :
    F.peval (F.padd (F.pscale m1 a) (F.pscale m2 b)) x =
      F.fadd (F.fmul a (F.peval m1 x)) (F.fmul b (F.peval m2 x)) := by
  obtain ⟨K, _, φ, hc⟩ := hv.exists_codes
  have hs1 := hv.pscale_lt h1 ha
  have hs2 := hv.pscale_lt h2 hb
  have he1 := hv.peval_lt hx h1
  have he2 := hv.peval_lt hx h2
  have hm1 := hv.fmul_lt ha he1
  have hm2 := hv.fmul_lt hb he2
  refine hc.inj _ (hv.peval_lt hx (hv.padd_lt hs1 hs2)) _ (hv.fadd_lt hm1 hm2) ?_
  rw [eval_polyOf hv hc (hv.padd_lt hs1 hs2) hx, polyOf_padd hv hc hs1 hs2, polyOf_pscale hc h1 ha,
    polyOf_pscale hc h2 hb, hc.add _ hm1 _ hm2, hc.mul _ ha _ he1, hc.mul _ hb _ he2, eval_polyOf hv hc h1 hx,
    eval_polyOf hv hc h2 hx]
  simp only [eval_add, eval_mul, eval_C]
  ring

/-! Weights: the functional `P ↦ ∑ w[i] * P(points[i])` reads off a coefficient. -/

/-- The weights of distinct points are canonical and nonzero (R161). -/
theorem weight_spec {F : FieldDesc} (hv : F.Valid) {points w : List Nat} (hp : ∀ v ∈ points, v < F.size)
    (hw : F.wfn points = some w) {i : Nat} (hi : i < points.length) : w.getD i 0 < F.size ∧ w.getD i 0 ≠ 0 := by
  obtain ⟨-, hinv⟩ := FieldDesc.wfn_eq_some.mp hw
  obtain ⟨-, hlt, hmul⟩ := hv.finv_eq_some (hv.lagrangeDen_lt hp i) (hinv i hi)
  refine ⟨hlt, fun h0 => ?_⟩
  rw [h0, fmul_zero hv (hv.lagrangeDen_lt hp i)] at hmul
  exact Nat.zero_ne_one hmul

section Weights

variable {F : FieldDesc} (hv : F.Valid) {K : Type} [Field K] {φ : Nat → K} (hc : F.Codes φ)
  {points w : List Nat} (hp : ∀ v ∈ points, v < F.size) (hw : F.wfn points = some w)
include hv hc hp hw

/-- A polynomial of degree below `n`, summed over the points with the weights, gives its coefficient `n - 1`: it is its own
Lagrange interpolation. -/
theorem sum_weights_eval {P : K[X]} (hP : P.degree < points.length) :
    ∑ i ∈ Finset.range points.length, φ (w.getD i 0) * P.eval (φ (points.getD i 0)) =
      P.coeff (points.length - 1) := by
  obtain ⟨hn, -, -⟩ := hv.wfn_spec hp hw
  obtain ⟨-, hinv⟩ := FieldDesc.wfn_eq_some.mp hw
  have hcoeff := Lagrange.coeff_eq_sum (injOn_nodesOf hv hc hp hn) (P := P) (by rwa [Finset.card_range])
  rw [Finset.card_range] at hcoeff
  rw [hcoeff]
  refine Finset.sum_congr rfl fun i hi => ?_
  rw [hc.inv hv (hv.lagrangeDen_lt hp i) (hinv i (Finset.mem_range.mp hi)), hc.lagrangeDen hv hp, prod_othersOf,
    mul_comm, ← div_eq_mul_inv]
  rfl

/-- Every coefficient from `n - 1` on vanishing makes the weighted sum vanish. -/
theorem sum_weights_eval_eq_zero {P : K[X]} (hP : ∀ m, points.length ≤ m + 1 → P.coeff m = 0) :
    ∑ i ∈ Finset.range points.length, φ (w.getD i 0) * P.eval (φ (points.getD i 0)) = 0 := by
  have hdeg : P.degree < points.length :=
    (degree_lt_iff_coeff_zero P points.length).mpr fun m hm => hP m (hm.trans (Nat.le_succ m))
  rw [sum_weights_eval hv hc hp hw hdeg, hP _ (by omega)]

end Weights

/-- A power sum over the points with the weights is the weighted sum of a monomial. -/
theorem codes_weighted_powers {F : FieldDesc} (hv : F.Valid) {K : Type} [Field K] {φ : Nat → K} (hc : F.Codes φ)
    {points w : List Nat} (hp : ∀ v ∈ points, v < F.size) (hw : ∀ v ∈ w, v < F.size) (j : Nat) :
    φ (F.fsum ((List.range points.length).map fun i => F.fmul (w.getD i 0) (F.fpow (points.getD i 0) j))) =
      ∑ i ∈ Finset.range points.length, φ (w.getD i 0) * (X ^ j : K[X]).eval (φ (points.getD i 0)) := by
  rw [hc.fsum_range hv fun i _ => hv.fmul_lt (hv.getD_lt hw i) (hv.fpow_lt (hv.getD_lt hp i) j)]
  refine Finset.sum_congr rfl fun i _ => ?_
  rw [hc.mul _ (hv.getD_lt hw i) _ (hv.fpow_lt (hv.getD_lt hp i) j), hc.pow hv (hv.getD_lt hp i), eval_pow, eval_X]

/-- Settles O41: the power sum is coefficient `n - 1` of the monomial `x^j`. -/
theorem weightIdentity : Obligations.WeightIdentity := by
  intro F points w j hv _ hp hw
  obtain ⟨-, -, hwlt⟩ := hv.wfn_spec hp hw
  obtain ⟨K, _, φ, hc⟩ := hv.exists_codes
  have hsumlt : F.fsum ((List.range points.length).map fun i => F.fmul (w.getD i 0) (F.fpow (points.getD i 0) j))
      < F.size := hv.fsum_lt (List.forall_mem_map.mpr fun i _ =>
        hv.fmul_lt (hv.getD_lt hwlt i) (hv.fpow_lt (hv.getD_lt hp i) j))
  have hsum (hj : j < points.length) := sum_weights_eval hv hc hp hw (P := X ^ j) (by
    rw [degree_X_pow]
    exact_mod_cast hj)
  constructor
  · intro hj
    refine hc.inj _ hsumlt _ hv.zero_lt ?_
    rw [codes_weighted_powers hv hc hp hwlt, hsum (by omega), coeff_X_pow, if_neg (by omega), hc.zero]
  · intro hj
    refine hc.inj _ hsumlt _ hv.one_lt ?_
    rw [codes_weighted_powers hv hc hp hwlt, hsum (by omega), coeff_X_pow, if_pos (by omega), hc.one]

/-! Syndromes (R162, R164). -/

/-- The values of a message polynomial at the points are canonical. -/
theorem map_peval_lt {F : FieldDesc} (hv : F.Valid) {f points : List Nat} (hf : ∀ v ∈ f, v < F.size)
    (hp : ∀ v ∈ points, v < F.size) : ∀ v ∈ points.map fun a => F.peval f a, v < F.size :=
  List.forall_mem_map.mpr fun a ha => hv.peval_lt (hp a ha) hf

@[simp] theorem length_sfn (F : FieldDesc) (r points w : List Nat) (count : Nat) :
    (F.sfn r points w count).length = count := by
  rw [FieldDesc.sfn, List.length_map, List.length_range]

theorem getD_sfn (F : FieldDesc) (r points w : List Nat) {count j : Nat} (hj : j < count) :
    (F.sfn r points w count).getD j 0 = F.syndromeAt r points w j := by
  rw [FieldDesc.sfn, getD_map_range, if_pos hj]

section Syndromes

variable {F : FieldDesc} (hv : F.Valid) {r points w : List Nat} (hr : ∀ v ∈ r, v < F.size)
  (hp : ∀ v ∈ points, v < F.size) (hw : ∀ v ∈ w, v < F.size)
include hv hr hp hw

theorem syndrome_term_lt (i j : Nat) :
    F.fmul (F.fmul (r.getD i 0) (w.getD i 0)) (F.fpow (points.getD i 0) j) < F.size :=
  hv.fmul_lt (hv.fmul_lt (hv.getD_lt hr i) (hv.getD_lt hw i)) (hv.fpow_lt (hv.getD_lt hp i) j)

theorem syndromeAt_lt (j : Nat) : F.syndromeAt r points w j < F.size :=
  hv.fsum_lt (List.forall_mem_map.mpr fun i _ => syndrome_term_lt hv hr hp hw i j)

theorem sfn_lt (count : Nat) : ∀ v ∈ F.sfn r points w count, v < F.size :=
  List.forall_mem_map.mpr fun j _ => syndromeAt_lt hv hr hp hw j

variable {K : Type} [Field K] {φ : Nat → K} (hc : F.Codes φ)
include hc

theorem codes_syndrome_term (i j : Nat) :
    φ (F.fmul (F.fmul (r.getD i 0) (w.getD i 0)) (F.fpow (points.getD i 0) j)) =
      φ (r.getD i 0) * φ (w.getD i 0) * φ (points.getD i 0) ^ j := by
  have hri := hv.getD_lt hr i
  have hwi := hv.getD_lt hw i
  have hpi := hv.getD_lt hp i
  rw [hc.mul _ (hv.fmul_lt hri hwi) _ (hv.fpow_lt hpi j), hc.mul _ hri _ hwi, hc.pow hv hpi]

theorem codes_syndromeAt (j : Nat) : φ (F.syndromeAt r points w j) =
    ∑ i ∈ Finset.range points.length, φ (r.getD i 0) * φ (w.getD i 0) * φ (points.getD i 0) ^ j := by
  rw [FieldDesc.syndromeAt, hc.fsum_range hv fun i _ => syndrome_term_lt hv hr hp hw i j]
  exact Finset.sum_congr rfl fun i _ => codes_syndrome_term hv hr hp hw hc i j

/-- A syndrome is a sum over the positions that hold a nonzero value. -/
theorem codes_syndromeAt_support (j : Nat) : φ (F.syndromeAt r points w j) =
    ∑ i ∈ (Finset.range points.length).filter fun i => r.getD i 0 ≠ 0,
      φ (r.getD i 0) * φ (w.getD i 0) * φ (points.getD i 0) ^ j := by
  rw [codes_syndromeAt hv hr hp hw hc, Finset.sum_filter_of_ne]
  intro i _ hne h0
  rw [h0, hc.zero, zero_mul, zero_mul] at hne
  exact hne rfl

end Syndromes

section Contract

variable {F : FieldDesc} (hv : F.Valid) {points w f : List Nat} (hp : ∀ v ∈ points, v < F.size)
  (hw : F.wfn points = some w) (hf : ∀ v ∈ f, v < F.size)
include hv hp hw hf

/-- The syndromes of a codeword vanish: each is the weighted sum of a polynomial of degree below `n - 1` (R164). -/
theorem syndromeAt_codeword {j : Nat} (hj : j < points.length - f.length) :
    F.syndromeAt (points.map fun a => F.peval f a) points w j = 0 := by
  obtain ⟨-, -, hwlt⟩ := hv.wfn_spec hp hw
  obtain ⟨K, _, φ, hc⟩ := hv.exists_codes
  have hcw := map_peval_lt hv hf hp
  have hhigh : ∀ m, points.length ≤ m + 1 → (polyOf φ f * X ^ j).coeff m = 0 := fun m hm => by
    rw [coeff_mul_X_pow', if_pos (by omega), coeff_polyOf hc, List.getD_eq_default _ _ (by omega), hc.zero]
  refine hc.inj _ (syndromeAt_lt hv hcw hp hwlt j) _ hv.zero_lt ?_
  rw [codes_syndromeAt hv hcw hp hwlt hc, hc.zero, ← sum_weights_eval_eq_zero hv hc hp hw hhigh]
  refine Finset.sum_congr rfl fun i hi => ?_
  have hi := Finset.mem_range.mp hi
  have hval : (points.map fun a => F.peval f a).getD i 0 = F.peval f (points.getD i 0) := by
    rw [List.getD_eq_getElem _ _ (by simpa using hi), List.getElem_map, List.getD_eq_getElem _ _ hi]
  rw [hval, eval_polyOf hv hc hf (hv.getD_lt hp i), eval_mul, eval_pow, eval_X]
  ring

theorem sfn_codeword : F.sfn (points.map fun a => F.peval f a) points w (points.length - f.length) =
    List.replicate (points.length - f.length) 0 := by
  refine List.eq_replicate_iff.mpr ⟨length_sfn .., List.forall_mem_map.mpr fun j hj => ?_⟩
  exact syndromeAt_codeword hv hp hw hf (List.mem_range.mp hj)

/-- The syndromes see only the errors (R164). -/
theorem syndromeAt_codeword_padd {e : List Nat} (he : ∀ v ∈ e, v < F.size) {j : Nat}
    (hj : j < points.length - f.length) :
    F.syndromeAt (F.padd (points.map fun a => F.peval f a) e) points w j = F.syndromeAt e points w j := by
  obtain ⟨-, -, hwlt⟩ := hv.wfn_spec hp hw
  obtain ⟨K, _, φ, hc⟩ := hv.exists_codes
  have hcw := map_peval_lt hv hf hp
  have hzero := congrArg φ (syndromeAt_codeword hv hp hw hf hj)
  rw [codes_syndromeAt hv hcw hp hwlt hc, hc.zero] at hzero
  have hsum := hv.padd_lt hcw he
  refine hc.inj _ (syndromeAt_lt hv hsum hp hwlt j) _ (syndromeAt_lt hv he hp hwlt j) ?_
  rw [codes_syndromeAt hv hsum hp hwlt hc, codes_syndromeAt hv he hp hwlt hc]
  simp only [codes_getD_padd hv hc hcw he, add_mul, Finset.sum_add_distrib, hzero, zero_add]

theorem sfn_codeword_padd {e : List Nat} (he : ∀ v ∈ e, v < F.size) :
    F.sfn (F.padd (points.map fun a => F.peval f a) e) points w (points.length - f.length) =
      F.sfn e points w (points.length - f.length) :=
  List.map_congr_left fun _ hj => syndromeAt_codeword_padd hv hp hw hf he (List.mem_range.mp hj)

end Contract

/-- The model's sum over the positions that hold a nonzero value is the syndrome: the other terms are 0. -/
theorem fsum_support_eq_syndromeAt {F : FieldDesc} (hv : F.Valid) {e points w : List Nat} (he : ∀ v ∈ e, v < F.size)
    (hp : ∀ v ∈ points, v < F.size) (hw : ∀ v ∈ w, v < F.size) (j : Nat) :
    F.fsum (((List.range points.length).filter fun i => decide (e.getD i 0 ≠ 0)).map fun i =>
      F.fmul (F.fmul (e.getD i 0) (w.getD i 0)) (F.fpow (points.getD i 0) j)) = F.syndromeAt e points w j := by
  obtain ⟨K, _, φ, hc⟩ := hv.exists_codes
  have hterms : ∀ v ∈ ((List.range points.length).filter fun i => decide (e.getD i 0 ≠ 0)).map fun i =>
      F.fmul (F.fmul (e.getD i 0) (w.getD i 0)) (F.fpow (points.getD i 0) j), v < F.size :=
    List.forall_mem_map.mpr fun i _ => syndrome_term_lt hv he hp hw i j
  refine hc.inj _ (hv.fsum_lt hterms) _ (syndromeAt_lt hv he hp hw j) ?_
  rw [codes_syndromeAt_support hv he hp hw hc, hc.fsum hv hterms, List.map_map]
  have hmap : (φ ∘ fun i => F.fmul (F.fmul (e.getD i 0) (w.getD i 0)) (F.fpow (points.getD i 0) j)) =
      fun i => φ (e.getD i 0) * φ (w.getD i 0) * φ (points.getD i 0) ^ j :=
    funext fun i => codes_syndrome_term hv he hp hw hc i j
  rw [hmap]
  -- a sum over a filtered `Finset.range` is by definition the sum of the filtered list
  rfl

theorem getD_pscale_of_lt (F : FieldDesc) {p : List Nat} (a : Nat) {i : Nat} (hi : i < p.length) :
    (F.pscale p a).getD i 0 = F.fmul (p.getD i 0) a := by
  simp [FieldDesc.pscale, List.getD_eq_getElem?_getD, hi]

theorem padd_eq_map (F : FieldDesc) {p q : List Nat} {n : Nat} (hp : p.length = n) (hq : q.length = n) :
    F.padd p q = (List.range n).map fun i => F.fadd (p.getD i 0) (q.getD i 0) := by
  rw [FieldDesc.padd, hp, hq, Nat.max_self]

/-- A syndrome is linear in the received word (R164). -/
theorem syndromeAt_linear {F : FieldDesc} (hv : F.Valid) {a b : Nat} {r1 r2 points w : List Nat} (ha : a < F.size)
    (hb : b < F.size) (h1 : ∀ v ∈ r1, v < F.size) (h2 : ∀ v ∈ r2, v < F.size) (hp : ∀ v ∈ points, v < F.size)
    (hw : ∀ v ∈ w, v < F.size) (j : Nat) :
    F.syndromeAt (F.padd (F.pscale r1 a) (F.pscale r2 b)) points w j =
      F.fadd (F.fmul (F.syndromeAt r1 points w j) a) (F.fmul (F.syndromeAt r2 points w j) b) := by
  obtain ⟨K, _, φ, hc⟩ := hv.exists_codes
  have hs1 := hv.pscale_lt h1 ha
  have hs2 := hv.pscale_lt h2 hb
  have hy1 := syndromeAt_lt hv h1 hp hw j
  have hy2 := syndromeAt_lt hv h2 hp hw j
  have hm1 := hv.fmul_lt hy1 ha
  have hm2 := hv.fmul_lt hy2 hb
  refine hc.inj _ (syndromeAt_lt hv (hv.padd_lt hs1 hs2) hp hw j) _ (hv.fadd_lt hm1 hm2) ?_
  rw [hc.add _ hm1 _ hm2, hc.mul _ hy1 _ ha, hc.mul _ hy2 _ hb, codes_syndromeAt hv (hv.padd_lt hs1 hs2) hp hw hc,
    codes_syndromeAt hv h1 hp hw hc, codes_syndromeAt hv h2 hp hw hc, Finset.sum_mul, Finset.sum_mul,
    ← Finset.sum_add_distrib]
  refine Finset.sum_congr rfl fun i _ => ?_
  rw [codes_getD_padd hv hc hs1 hs2, codes_getD_pscale hc h1 ha, codes_getD_pscale hc h2 hb]
  ring

theorem sfn_linear {F : FieldDesc} (hv : F.Valid) {a b : Nat} {r1 r2 points w : List Nat} (ha : a < F.size)
    (hb : b < F.size) (h1 : ∀ v ∈ r1, v < F.size) (h2 : ∀ v ∈ r2, v < F.size) (hp : ∀ v ∈ points, v < F.size)
    (hw : ∀ v ∈ w, v < F.size) (count : Nat) :
    F.sfn (F.padd (F.pscale r1 a) (F.pscale r2 b)) points w count =
      F.padd (F.pscale (F.sfn r1 points w count) a) (F.pscale (F.sfn r2 points w count) b) := by
  rw [padd_eq_map F (p := F.pscale (F.sfn r1 points w count) a) (n := count) (by simp) (by simp), FieldDesc.sfn]
  refine List.map_congr_left fun j hj => ?_
  have hj := List.mem_range.mp hj
  rw [syndromeAt_linear hv ha hb h1 h2 hp hw, getD_pscale_of_lt _ _ (by simpa using hj),
    getD_pscale_of_lt _ _ (by simpa using hj), getD_sfn _ _ _ _ hj, getD_sfn _ _ _ _ hj]

/-- Settles O42: the three parts of R164, the second by linearity from the first. -/
theorem syndromesSeeOnlyTheErrors : Obligations.SyndromesSeeOnlyTheErrors := by
  intro F points w f e hv _ hp hw _ hf _ he
  obtain ⟨-, -, hwlt⟩ := hv.wfn_spec hp hw
  refine ⟨sfn_codeword hv hp hw hf, ?_, fun a b r1 r2 count ha hb _ _ h1 h2 =>
    sfn_linear hv ha hb h1 h2 hp hwlt count⟩
  rw [sfn_codeword_padd hv hp hw hf he]
  exact List.map_congr_left fun j _ => (fsum_support_eq_syndromeAt hv he hp hwlt j).symm

end Sys2Proof.Proofs
end

section
/-! The Berlekamp-Massey iteration (R180-R188): the cases of a step, and the bounds that hold at the start of every step. -/

namespace Sys2Proof.Proofs

open Sys2Proof

/-! The candidate locator (R183). -/

section Candidate

variable (F : FieldDesc) {count : Nat} {st : SynthState}

theorem length_candidate (hl : st.lam.length = count + 1) (scale : Nat) :
    (F.candidate count st scale).length = count + 1 := by
  simp [FieldDesc.candidate, hl]

/-- The coefficients of the candidate, one by one: those of the shifted auxiliary polynomial start at the shift. -/
theorem getD_candidate (hl : st.lam.length = count + 1) (ha : st.aux.length = count + 1) (scale : Nat) {i : Nat}
    (hi : i ≤ count) : (F.candidate count st scale).getD i 0 = F.fsub (st.lam.getD i 0)
      (if i < st.shift then F.fmul 0 scale else F.fmul (st.aux.getD (i - st.shift) 0) scale) := by
  have htake : (F.candidate count st scale).getD i 0 =
      (F.psub st.lam (F.pscale (pshift st.aux st.shift) scale)).getD i 0 := by
    rw [FieldDesc.candidate, List.getD_eq_getElem?_getD, List.getElem?_take_of_lt (Nat.lt_succ_of_le hi),
      ← List.getD_eq_getElem?_getD]
  rw [htake, FieldDesc.psub, getD_map_range, if_pos (by simp; omega),
    getD_pscale_of_lt F scale (by simp; omega), getD_pshift]
  split <;> rfl

end Candidate

/-! A step. -/

section Step

variable (F : FieldDesc) {syn : List Nat} {count r : Nat} {st : SynthState}

/-- R184: a zero discrepancy only advances the shift. -/
theorem synthStep_of_zero (hd : F.discrepancy syn st.lam r = 0) :
    F.synthStep syn count st r = some { st with shift := st.shift + 1 } := if_pos hd

section Nonzero

variable {bInv : Nat} (hd : F.discrepancy syn st.lam r ≠ 0) (hb : F.finv st.last = some bInv)
include hd hb

/-- R185: a nonzero discrepancy, and `L` grows. -/
theorem synthStep_of_grow (hl : 2 * st.len ≤ r) : F.synthStep syn count st r =
    some { lam := F.candidate count st (F.fmul (F.discrepancy syn st.lam r) bInv), aux := st.lam
           len := r + 1 - st.len, shift := 1, last := F.discrepancy syn st.lam r } := by
  simp only [FieldDesc.synthStep, if_neg hd, hb, if_pos hl]

/-- R186: a nonzero discrepancy, and `L` stays. -/
theorem synthStep_of_stay (hl : r < 2 * st.len) : F.synthStep syn count st r =
    some { st with lam := F.candidate count st (F.fmul (F.discrepancy syn st.lam r) bInv)
                   shift := st.shift + 1 } := by
  simp only [FieldDesc.synthStep, if_neg hd, hb, if_neg (Nat.not_le.mpr hl)]

end Nonzero

/-- The discrepancy is `S[r]` plus the sum of R183. -/
theorem discrepancy_eq {F : FieldDesc} (hv : F.Valid) (hs : ∀ v ∈ syn, v < F.size) {lam : List Nat}
    (hl : ∀ v ∈ lam, v < F.size) : F.discrepancy syn lam r = F.fadd (syn.getD r 0)
      (F.fsum ((List.range r).map fun j => F.fmul (lam.getD (j + 1) 0) (syn.getD (r - (j + 1)) 0))) := by
  rw [FieldDesc.discrepancy, ← List.foldl_map (f := fun j => F.fmul (lam.getD (j + 1) 0) (syn.getD (r - (j + 1)) 0)),
    hv.foldl_fadd_eq _ _ (hv.getD_lt hs r)]
  exact List.forall_mem_map.mpr fun j _ => hv.fmul_lt (hv.getD_lt hl _) (hv.getD_lt hs _)

theorem discrepancy_lt {F : FieldDesc} (hv : F.Valid) (hs : ∀ v ∈ syn, v < F.size) {lam : List Nat}
    (hl : ∀ v ∈ lam, v < F.size) : F.discrepancy syn lam r < F.size := by
  rw [discrepancy_eq hv hs hl]
  exact hv.fadd_lt (hv.getD_lt hs r) (hv.fsum_lt (List.forall_mem_map.mpr fun j _ =>
    hv.fmul_lt (hv.getD_lt hl _) (hv.getD_lt hs _)))

end Step

/-- Settles O26: the equations of the run and of the three cases, with `b` invertible because it is not 0. -/
theorem synthesizerSteps : Obligations.SynthesizerSteps := by
  intro F syn count r st hv _ hlam haux hlast hne
  obtain ⟨bInv, hb, -, -⟩ := hv.finv_spec hlast hne
  refine ⟨rfl, rfl, rfl, fun hs hl => ?_, synthStep_of_zero F, fun hd => ?_⟩
  · rw [discrepancy_eq hv hs hl, List.range'_eq_map_range, List.map_map]
    simp only [Function.comp_def, Nat.add_comm 1]
  · exact ⟨bInv, _, hb, length_candidate F hlam _, fun i hi => getD_candidate F hlam haux _ hi,
      synthStep_of_grow F hd hb, synthStep_of_stay F hd hb⟩

/-! The polynomials hold `count + 1` coefficients whatever the sequence, canonical or not (R181, R183). -/

theorem length_synthStep (F : FieldDesc) {syn : List Nat} {count r : Nat} {st st' : SynthState}
    (h : F.synthStep syn count st r = some st') (hl : st.lam.length = count + 1 ∧ st.aux.length = count + 1) :
    st'.lam.length = count + 1 ∧ st'.aux.length = count + 1 := by
  obtain ⟨hlam, haux⟩ := hl
  by_cases hd : F.discrepancy syn st.lam r = 0
  · rw [synthStep_of_zero F hd] at h
    cases h
    exact ⟨hlam, haux⟩
  · cases hb : F.finv st.last with
    | none => simp [FieldDesc.synthStep, hd, hb] at h
    | some bInv =>
      by_cases hgrow : 2 * st.len ≤ r
      · rw [synthStep_of_grow F hd hb hgrow] at h
        cases h
        exact ⟨length_candidate F hlam _, hlam⟩
      · rw [synthStep_of_stay F hd hb (Nat.not_le.mp hgrow)] at h
        cases h
        exact ⟨length_candidate F hlam _, haux⟩

theorem length_synthRun (F : FieldDesc) {syn : List Nat} {count : Nat} (r : Nat) {st : SynthState}
    (h : F.synthRun syn count r = some st) : st.lam.length = count + 1 ∧ st.aux.length = count + 1 := by
  induction r generalizing st with
  | zero =>
    cases h
    simp [synthInit]
  | succ r ih =>
    obtain ⟨st₀, hrun, hstep⟩ := Option.bind_eq_some_iff.mp h
    exact length_synthStep F hstep (ih hrun)

theorem length_bm {F : FieldDesc} {syn : List Nat} {st : SynthState} (h : F.bm syn = some st) :
    st.lam.length = syn.length + 1 ∧ st.aux.length = syn.length + 1 := length_synthRun F _ h

/-! The bounds of R188. -/

/-- The bounds at the start of step `r`. The auxiliary polynomial, shifted, has degree at most `r + 1 - L`. -/
structure SynthBounds (F : FieldDesc) (count r : Nat) (st : SynthState) : Prop where
  lam_length : st.lam.length = count + 1
  aux_length : st.aux.length = count + 1
  lam_lt : ∀ v ∈ st.lam, v < F.size
  aux_lt : ∀ v ∈ st.aux, v < F.size
  lam_head : st.lam.getD 0 0 = 1
  aux_head : st.aux.getD 0 0 = 1
  len_le : st.len ≤ r
  lam_zero : ∀ i, st.len < i → st.lam.getD i 0 = 0
  aux_degree : ∀ i, st.aux.getD i 0 ≠ 0 → st.shift + i ≤ r + 1 - st.len
  shift_pos : 1 ≤ st.shift
  last_ne : st.last ≠ 0
  last_lt : st.last < F.size

/-- The constant polynomial 1, as the start of a run holds it. -/
theorem getD_one_zeros (count : Nat) {i : Nat} (hi : i ≠ 0) : (1 :: List.replicate count 0).getD i 0 = 0 := by
  obtain ⟨i, rfl⟩ := Nat.exists_eq_succ_of_ne_zero hi
  rw [List.getD_cons_succ, List.getD_eq_getElem?_getD, List.getElem?_getD_replicate_default_eq]

theorem one_zeros_lt {F : FieldDesc} (hv : F.Valid) (count : Nat) : ∀ v ∈ 1 :: List.replicate count 0, v < F.size :=
  List.forall_mem_cons.mpr ⟨hv.one_lt, zeros_lt hv count⟩

theorem synthInit_bounds {F : FieldDesc} (hv : F.Valid) (count : Nat) : SynthBounds F count 0 (synthInit count) where
  lam_length := by simp [synthInit]
  aux_length := by simp [synthInit]
  lam_lt := one_zeros_lt hv count
  aux_lt := one_zeros_lt hv count
  lam_head := rfl
  aux_head := rfl
  len_le := le_rfl
  lam_zero _ hi := getD_one_zeros count (Nat.ne_of_gt hi)
  aux_degree i hi := by
    have h0 : i = 0 := not_not.mp (mt (getD_one_zeros count) hi)
    simp [synthInit, h0]
  shift_pos := le_rfl
  last_ne := one_ne_zero
  last_lt := hv.one_lt

section Bounds

variable {F : FieldDesc} {count r : Nat} {st : SynthState} (hv : F.Valid) (h : SynthBounds F count r st)
include h

/-- The shift stays within the coefficients: the auxiliary polynomial has constant term 1. -/
theorem SynthBounds.shift_le : st.shift ≤ r + 1 - st.len := by
  have hhead := h.aux_degree 0 (by rw [h.aux_head]; exact one_ne_zero)
  omega

theorem SynthBounds.aux_zero {i : Nat} (hi : r + 1 - st.len < st.shift + i) : st.aux.getD i 0 = 0 :=
  not_not.mp (mt (h.aux_degree i) (Nat.not_le.mpr hi))

include hv

theorem SynthBounds.candidate_lt {scale : Nat} (hs : scale < F.size) : ∀ v ∈ F.candidate count st scale, v < F.size :=
  fun v hvm => hv.psub_lt h.lam_lt (hv.pscale_lt (hv.pshift_lt h.aux_lt st.shift) hs) v (List.mem_of_mem_take hvm)

/-- The shift is positive, so the candidate keeps the constant term. -/
theorem SynthBounds.candidate_head {scale : Nat} (hs : scale < F.size) :
    (F.candidate count st scale).getD 0 0 = 1 := by
  have hshift : 0 < st.shift := h.shift_pos
  rw [getD_candidate F h.lam_length h.aux_length scale (Nat.zero_le count), if_pos hshift, zero_fmul hv hs,
    h.lam_head, fsub_zero hv hv.one_lt]

/-- The candidate has no coefficient beyond both `L` and the degree of the shifted auxiliary polynomial. -/
theorem SynthBounds.candidate_zero {scale : Nat} (hs : scale < F.size) {i : Nat} (hlen : st.len < i)
    (hdeg : r + 1 - st.len < i) : (F.candidate count st scale).getD i 0 = 0 := by
  by_cases hi : i ≤ count
  · have hsecond : (if i < st.shift then F.fmul 0 scale else F.fmul (st.aux.getD (i - st.shift) 0) scale) = 0 := by
      split
      · exact zero_fmul hv hs
      · rw [h.aux_zero (by omega), zero_fmul hv hs]
    rw [getD_candidate F h.lam_length h.aux_length scale hi, hsecond, h.lam_zero i hlen, fsub_zero hv hv.zero_lt]
  · rw [List.getD_eq_default _ _ (by rw [length_candidate F h.lam_length]; omega)]

omit hv in
/-- A zero discrepancy keeps the bounds. -/
theorem SynthBounds.advance : SynthBounds F count (r + 1) { st with shift := st.shift + 1 } :=
  { h with
    len_le := h.len_le.trans (Nat.le_succ r)
    aux_degree := fun i hi => by
      have hdeg := h.aux_degree i hi
      have hlen := h.len_le
      simp only
      omega
    shift_pos := Nat.succ_pos _ }

/-- A step in which `L` grows keeps the bounds: the old locator, of degree at most the old `L`, is the new auxiliary
polynomial. -/
theorem SynthBounds.grow {scale d : Nat} (hs : scale < F.size) (hd0 : d ≠ 0) (hd : d < F.size)
    (hl : 2 * st.len ≤ r) : SynthBounds F count (r + 1)
      { lam := F.candidate count st scale, aux := st.lam, len := r + 1 - st.len, shift := 1, last := d } where
  lam_length := length_candidate F h.lam_length scale
  aux_length := h.lam_length
  lam_lt := h.candidate_lt hv hs
  aux_lt := h.lam_lt
  lam_head := h.candidate_head hv hs
  aux_head := h.lam_head
  len_le := Nat.sub_le _ _
  lam_zero i hi := h.candidate_zero hv hs (by simp only at hi; omega) hi
  aux_degree i hi := by
    have hdeg : i ≤ st.len := Nat.not_lt.mp (mt (h.lam_zero i) hi)
    simp only
    omega
  shift_pos := le_rfl
  last_ne := hd0
  last_lt := hd

/-- A step in which `L` stays keeps the bounds. -/
theorem SynthBounds.stay {scale : Nat} (hs : scale < F.size) (hl : r < 2 * st.len) : SynthBounds F count (r + 1)
    { st with lam := F.candidate count st scale, shift := st.shift + 1 } :=
  { h.advance with
    lam_length := length_candidate F h.lam_length scale
    lam_lt := h.candidate_lt hv hs
    lam_head := h.candidate_head hv hs
    lam_zero := fun i hi => h.candidate_zero hv hs hi (by simp only at hi; omega) }

end Bounds

/-! The induction over the steps of a run, packaged once. -/

/-- What holds of the starting state and is kept by every step, which then has a result, holds at the start of every step. -/
theorem synthRun_induction {F : FieldDesc} {syn : List Nat} {count : Nat} {P : Nat → SynthState → Prop}
    (hinit : P 0 (synthInit count))
    (hstep : ∀ r st, r < count → P r st → ∃ st', F.synthStep syn count st r = some st' ∧ P (r + 1) st') :
    ∀ r, r ≤ count → ∃ st, F.synthRun syn count r = some st ∧ P r st := by
  intro r
  induction r with
  | zero => exact fun _ => ⟨_, rfl, hinit⟩
  | succ r ih =>
    intro hr
    obtain ⟨st, hst, hp⟩ := ih (Nat.le_of_succ_le hr)
    obtain ⟨st', hst', hp'⟩ := hstep r st hr hp
    exact ⟨st', by rw [FieldDesc.synthRun, hst, Option.bind_some, hst'], hp'⟩

/-- A step within the bounds has a result, because `b` is not 0, and keeps them (R188). -/
theorem synthStep_bounds {F : FieldDesc} (hv : F.Valid) {syn : List Nat} (hs : ∀ v ∈ syn, v < F.size) {count r : Nat}
    {st : SynthState} (h : SynthBounds F count r st) :
    ∃ st', F.synthStep syn count st r = some st' ∧ SynthBounds F count (r + 1) st' := by
  by_cases hd : F.discrepancy syn st.lam r = 0
  · exact ⟨_, synthStep_of_zero F hd, h.advance⟩
  · obtain ⟨bInv, hb, hbInv, -⟩ := hv.finv_spec h.last_lt h.last_ne
    have hdlt := discrepancy_lt hv hs h.lam_lt (r := r)
    have hscale := hv.fmul_lt hdlt hbInv
    by_cases hl : 2 * st.len ≤ r
    · exact ⟨_, synthStep_of_grow F hd hb hl, h.grow hv hscale hd hdlt hl⟩
    · exact ⟨_, synthStep_of_stay F hd hb (Nat.not_le.mp hl), h.stay hv hscale (Nat.not_le.mp hl)⟩

theorem synthRun_bounds {F : FieldDesc} (hv : F.Valid) {syn : List Nat} (hs : ∀ v ∈ syn, v < F.size) {count r : Nat}
    (hr : r ≤ count) : ∃ st, F.synthRun syn count r = some st ∧ SynthBounds F count r st :=
  synthRun_induction (synthInit_bounds hv count) (fun _ _ _ h => synthStep_bounds hv hs h) r hr

/-- Berlekamp-Massey has a result on every canonical sequence, within the bounds (R187, R188). -/
theorem bm_bounds {F : FieldDesc} (hv : F.Valid) {syn : List Nat} (hs : ∀ v ∈ syn, v < F.size) :
    ∃ st, F.bm syn = some st ∧ SynthBounds F syn.length syn.length st := synthRun_bounds hv hs le_rfl

theorem bounds_of_bm_eq_some {F : FieldDesc} (hv : F.Valid) {syn : List Nat} (hs : ∀ v ∈ syn, v < F.size)
    {st : SynthState} (h : F.bm syn = some st) : SynthBounds F syn.length syn.length st := by
  obtain ⟨st', hst', hbounds⟩ := bm_bounds hv hs
  rw [h] at hst'
  cases hst'
  exact hbounds

/-- Settles O43: the bounds hold at the start and every step keeps them. -/
theorem synthesizerBounds : Obligations.SynthesizerBounds := by
  intro F syn r hv hs hr
  obtain ⟨st, hst, h⟩ := synthRun_bounds hv hs hr
  have hshift : st.shift ≤ syn.length + 1 := by
    have hle := h.shift_le
    omega
  exact ⟨st, hst, h.lam_length, h.aux_length, h.lam_lt, h.aux_lt, h.lam_head, h.aux_head, h.len_le, h.lam_zero,
    h.aux_degree, h.shift_pos, hshift, h.last_ne, h.last_lt⟩

end Sys2Proof.Proofs
end

section
/-! What Berlekamp-Massey computes (R189, R207). Over the field that FIELD codes, a locator is a polynomial `p`, and the
syndromes `S[0], S[1], …` are the coefficients of `T = 1 + S[0] x + S[1] x² + …`. The constant term 1 stands for a value
before `S[0]`; with it the start of a run is no special case. When `p` has degree at most `j`, coefficient `j + 1` of `p *
T` is the sum `∑ p[i] * S[j-i]` of R183. -/

namespace Sys2Proof.Proofs

open Sys2Proof Polynomial

/-! Coefficients of products. -/

section Products

variable {K : Type} [Field K]

/-- When `u` has no coefficient in the window of length `ν` below `n`, and `q` none beyond `ν`, coefficient `n` of `q * u`
has the one term `q[0] * u[n]`. -/
theorem coeff_mul_eq_of_gap {q u : K[X]} {ν n : Nat} (hq : ∀ i, ν < i → q.coeff i = 0)
    (hu : ∀ j, n ≤ j + ν → j < n → u.coeff j = 0) : (q * u).coeff n = q.coeff 0 * u.coeff n := by
  rw [coeff_mul, Finset.sum_eq_single (0, n)]
  · rintro ⟨i, j⟩ hij hne
    have hij : i + j = n := Finset.HasAntidiagonal.mem_antidiagonal.mp hij
    by_cases hi : ν < i
    · rw [hq i hi, zero_mul]
    · have hj : j < n := by
        rcases Nat.eq_zero_or_pos i with rfl | hpos
        · exact absurd (by rw [← hij, Nat.zero_add]) hne
        · omega
      rw [hu j (by omega) hj, mul_zero]
  · intro h
    exact absurd (Finset.HasAntidiagonal.mem_antidiagonal.mpr (Nat.zero_add n)) h

/-- `p`, of degree at most `len` and with constant term 1, has zero discrepancies from `len` on, up to index `r`. -/
structure Generates (T p : K[X]) (len r : Nat) : Prop where
  head : p.coeff 0 = 1
  degree : ∀ i, len < i → p.coeff i = 0
  vanish : ∀ j, len < j → j ≤ r → (p * T).coeff j = 0

/-- Massey's bound: a locator that fails at index `r + 1`, and one that does not, have lengths that add up to more than
`r`. -/
theorem Generates.lt_add {T p q : K[X]} {len ν r : Nat} (hp : Generates T p len r) (hq : Generates T q ν (r + 1))
    (hne : (p * T).coeff (r + 1) ≠ 0) : r < len + ν := by
  by_contra hle
  have h1 : (q * (p * T)).coeff (r + 1) = q.coeff 0 * (p * T).coeff (r + 1) :=
    coeff_mul_eq_of_gap hq.degree fun j hj hlt => hp.vanish j (by omega) (by omega)
  have h2 : (p * (q * T)).coeff (r + 1) = p.coeff 0 * (q * T).coeff (r + 1) :=
    coeff_mul_eq_of_gap hp.degree fun j hj hlt => hq.vanish j (by omega) (by omega)
  rw [hq.vanish (r + 1) (by omega) le_rfl, mul_zero, mul_left_comm, h1, hq.head, one_mul] at h2
  exact hne h2

end Products

/-! The iteration read over the field. -/

section Iteration

variable {F : FieldDesc} (hv : F.Valid) {K : Type} [Field K] {φ : Nat → K} (hc : F.Codes φ)

/-- The syndromes as coefficients, after a constant term 1. -/
noncomputable def synPoly (φ : Nat → K) (syn : List Nat) : K[X] := polyOf φ (1 :: syn)

include hc in
theorem coeff_synPoly_succ (syn : List Nat) (j : Nat) : (synPoly φ syn).coeff (j + 1) = φ (syn.getD j 0) := by
  rw [synPoly, coeff_polyOf hc, List.getD_cons_succ]

include hc in
theorem coeff_synPoly_zero (syn : List Nat) : (synPoly φ syn).coeff 0 = 1 := by
  rw [synPoly, coeff_polyOf hc, List.getD_cons_zero, hc.one]

include hc in
/-- Below its degree a locator's product with `T` has the sums of R183 as coefficients. -/
theorem coeff_mul_synPoly {p : K[X]} (syn : List Nat) {j : Nat} (hp : p.coeff (j + 1) = 0) :
    (p * synPoly φ syn).coeff (j + 1) = ∑ i ∈ Finset.range (j + 1), p.coeff i * φ (syn.getD (j - i) 0) := by
  rw [coeff_mul, Finset.Nat.sum_antidiagonal_eq_sum_range_succ fun a b => p.coeff a * (synPoly φ syn).coeff b,
    Finset.sum_range_succ, hp, zero_mul, add_zero]
  refine Finset.sum_congr rfl fun i hi => ?_
  have hi := Finset.mem_range.mp hi
  rw [show j + 1 - i = j - i + 1 by omega, coeff_synPoly_succ hc]

variable {syn : List Nat} {count r : Nat} {st : SynthState}

include hv hc in
/-- The discrepancy of step `r` is coefficient `r + 1` of the locator's product with `T`. -/
theorem codes_discrepancy (hs : ∀ v ∈ syn, v < F.size) (h : SynthBounds F count r st) :
    φ (F.discrepancy syn st.lam r) = (polyOf φ st.lam * synPoly φ syn).coeff (r + 1) := by
  have hlen := h.len_le
  have htop : (polyOf φ st.lam).coeff (r + 1) = 0 := by rw [coeff_polyOf hc, h.lam_zero _ (by omega), hc.zero]
  have hterm (j : Nat) : F.fmul (st.lam.getD (j + 1) 0) (syn.getD (r - (j + 1)) 0) < F.size :=
    hv.fmul_lt (hv.getD_lt h.lam_lt _) (hv.getD_lt hs _)
  rw [discrepancy_eq hv hs h.lam_lt, coeff_mul_synPoly hc syn htop, Finset.sum_range_succ',
    hc.add _ (hv.getD_lt hs r) _ (hv.fsum_lt (List.forall_mem_map.mpr fun j _ => hterm j)),
    hc.fsum_range hv fun j _ => hterm j, add_comm]
  congr 1
  · refine Finset.sum_congr rfl fun j _ => ?_
    rw [coeff_polyOf hc, hc.mul _ (hv.getD_lt h.lam_lt _) _ (hv.getD_lt hs _)]
  · rw [coeff_polyOf hc, h.lam_head, hc.one, one_mul, Nat.sub_zero]

include hv hc in
/-- The candidate is `lam - scale * x^m * aux`: nothing is cut off (R183). -/
theorem polyOf_candidate (h : SynthBounds F count r st) (hr : r < count) {scale : Nat} (hs : scale < F.size) :
    polyOf φ (F.candidate count st scale) =
      polyOf φ st.lam - X ^ st.shift * polyOf φ st.aux * C (φ scale) := by
  have hshifted := hv.pshift_lt h.aux_lt st.shift
  have hwhole : polyOf φ (F.psub st.lam (F.pscale (pshift st.aux st.shift) scale)) =
      polyOf φ st.lam - X ^ st.shift * polyOf φ st.aux * C (φ scale) := by
    rw [polyOf_psub hv hc h.lam_lt (hv.pscale_lt hshifted hs), polyOf_pscale hc hshifted hs, polyOf_pshift hc]
  have hdeg : (polyOf φ (F.psub st.lam (F.pscale (pshift st.aux st.shift) scale))).degree < ((count + 1 : Nat)) := by
    rw [hwhole, degree_lt_iff_coeff_zero]
    intro m hm
    have haux : (X ^ st.shift * polyOf φ st.aux).coeff m = 0 := by
      rw [coeff_X_pow_mul']
      split
      · rw [coeff_polyOf hc, h.aux_zero (by omega), hc.zero]
      · rfl
    rw [coeff_sub, coeff_mul_C, haux, coeff_polyOf hc, List.getD_eq_default _ _ (by rw [h.lam_length]; exact hm),
      hc.zero, zero_mul, sub_zero]
  rw [FieldDesc.candidate, polyOf_take hc hdeg, hwhole]

/-- What the state knows of the sequence at the start of step `r`: the locator has had no discrepancy since `L`, and the
shifted auxiliary polynomial has none between `r + 1 - L` and `r`, but `b` at `r + 1`. -/
structure SynthMeaning (φ : Nat → K) (syn : List Nat) (r : Nat) (st : SynthState) : Prop where
  lam_vanish : ∀ j, st.len < j → j ≤ r → (polyOf φ st.lam * synPoly φ syn).coeff j = 0
  aux_vanish : ∀ j, r + 1 - st.len < j → j ≤ r → (X ^ st.shift * (polyOf φ st.aux * synPoly φ syn)).coeff j = 0
  aux_last : (X ^ st.shift * (polyOf φ st.aux * synPoly φ syn)).coeff (r + 1) = φ st.last

include hc in
theorem synthInit_meaning (syn : List Nat) (count : Nat) : SynthMeaning φ syn 0 (synthInit count) where
  lam_vanish j hj hj0 := absurd hj0 (Nat.not_le.mpr hj)
  aux_vanish j hj hj0 := by
    simp only [synthInit] at hj
    omega
  aux_last := by
    have hone : polyOf φ (1 :: List.replicate count 0) = 1 := by
      have hpad := polyOf_append_zeros hc [1] count
      rw [List.singleton_append] at hpad
      rw [hpad]
      simp [polyOf, hc.one]
    simp only [synthInit]
    rw [hone, one_mul, Nat.zero_add, coeff_X_pow_mul', if_pos le_rfl, Nat.sub_self, coeff_synPoly_zero hc, hc.one]

/-- Shifting the auxiliary polynomial once more shifts what is known of it. -/
theorem SynthMeaning.aux_vanish_succ (h : SynthMeaning φ syn r st) {j : Nat} (hj : r + 1 - st.len + 1 < j)
    (hjr : j ≤ r + 1) : (X ^ (st.shift + 1) * (polyOf φ st.aux * synPoly φ syn)).coeff j = 0 := by
  obtain ⟨j, rfl⟩ := Nat.exists_eq_succ_of_ne_zero (Nat.ne_of_gt (Nat.zero_lt_of_lt hj))
  rw [pow_succ', mul_assoc, Nat.succ_eq_add_one, coeff_X_mul]
  exact h.aux_vanish j (by omega) (by omega)

theorem SynthMeaning.aux_last_succ (h : SynthMeaning φ syn r st) :
    (X ^ (st.shift + 1) * (polyOf φ st.aux * synPoly φ syn)).coeff (r + 1 + 1) = φ st.last := by
  rw [pow_succ', mul_assoc, coeff_X_mul, h.aux_last]

section Nonzero

variable (hb : SynthBounds F count r st) (h : SynthMeaning φ syn r st)

include hv hc hb h

/-- A zero discrepancy keeps the meaning. -/
theorem SynthMeaning.advance (hs : ∀ v ∈ syn, v < F.size) (hd : F.discrepancy syn st.lam r = 0) :
    SynthMeaning φ syn (r + 1) { st with shift := st.shift + 1 } where
  lam_vanish j hj hjr := by
    rcases Nat.le_succ_iff.mp hjr with hjr | rfl
    · exact h.lam_vanish j hj hjr
    · rw [Nat.succ_eq_add_one, ← codes_discrepancy hv hc hs hb, hd, hc.zero]
  aux_vanish j hj hjr := by
    have hlen := hb.len_le
    exact h.aux_vanish_succ (by simp only at hj; omega) hjr
  aux_last := h.aux_last_succ

variable (hs : ∀ v ∈ syn, v < F.size) (hr : r < count) {bInv : Nat} (hinv : F.finv st.last = some bInv)
include hs hr hinv

/-- The candidate has no discrepancy beyond both `L` and `r + 1 - L`, and none at step `r`: the auxiliary polynomial's
cancels it (R183). -/
theorem SynthMeaning.candidate_vanish {j : Nat} (hj : st.len < j) (hj' : r + 1 - st.len < j) (hjr : j ≤ r + 1) :
    (polyOf φ (F.candidate count st (F.fmul (F.discrepancy syn st.lam r) bInv)) * synPoly φ syn).coeff j = 0 := by
  obtain ⟨-, hbInv, -⟩ := hv.finv_eq_some hb.last_lt hinv
  have hd := discrepancy_lt hv hs hb.lam_lt (r := r)
  have hscale := hv.fmul_lt hd hbInv
  have hsplit : polyOf φ (F.candidate count st (F.fmul (F.discrepancy syn st.lam r) bInv)) * synPoly φ syn =
      polyOf φ st.lam * synPoly φ syn -
        C (φ (F.fmul (F.discrepancy syn st.lam r) bInv)) * (X ^ st.shift * (polyOf φ st.aux * synPoly φ syn)) := by
    rw [polyOf_candidate hv hc hb hr hscale]
    ring
  rw [hsplit, coeff_sub, coeff_C_mul]
  rcases Nat.le_succ_iff.mp hjr with hjr | rfl
  · rw [h.lam_vanish j hj hjr, h.aux_vanish j hj' hjr, mul_zero, sub_zero]
  · have hlast : φ st.last ≠ 0 := fun h0 => hb.last_ne ((hc.eq_zero_iff hv hb.last_lt).mp h0)
    rw [Nat.succ_eq_add_one, h.aux_last, hc.mul _ hd _ hbInv, hc.inv hv hb.last_lt hinv, codes_discrepancy hv hc hs hb,
      inv_mul_cancel_right₀ hlast, sub_self]

/-- A step in which `L` grows keeps the meaning. -/
theorem SynthMeaning.grow (hl : 2 * st.len ≤ r) : SynthMeaning φ syn (r + 1)
    { lam := F.candidate count st (F.fmul (F.discrepancy syn st.lam r) bInv), aux := st.lam
      len := r + 1 - st.len, shift := 1, last := F.discrepancy syn st.lam r } where
  lam_vanish j hj hjr := h.candidate_vanish hv hc hb hs hr hinv (by simp only at hj; omega) hj hjr
  aux_vanish j hj hjr := by
    obtain ⟨j, rfl⟩ := Nat.exists_eq_succ_of_ne_zero (Nat.ne_of_gt (Nat.zero_lt_of_lt hj))
    simp only at hj ⊢
    rw [pow_one, Nat.succ_eq_add_one, coeff_X_mul]
    exact h.lam_vanish j (by omega) (by omega)
  aux_last := by
    simp only
    rw [pow_one, coeff_X_mul, codes_discrepancy hv hc hs hb]

/-- A step in which `L` stays keeps the meaning. -/
theorem SynthMeaning.stay (hl : r < 2 * st.len) : SynthMeaning φ syn (r + 1)
    { st with lam := F.candidate count st (F.fmul (F.discrepancy syn st.lam r) bInv), shift := st.shift + 1 } where
  lam_vanish j hj hjr := h.candidate_vanish hv hc hb hs hr hinv hj (by simp only at hj; omega) hjr
  aux_vanish j hj hjr := by
    have hlen := hb.len_le
    exact h.aux_vanish_succ (by simp only at hj; omega) hjr
  aux_last := h.aux_last_succ

end Nonzero

include hc in
/-- The locator of a state generates the sequence so far. -/
theorem SynthMeaning.generates (hb : SynthBounds F count r st) (h : SynthMeaning φ syn r st) :
    Generates (synPoly φ syn) (polyOf φ st.lam) st.len r where
  head := by rw [coeff_polyOf hc, hb.lam_head, hc.one]
  degree i hi := by rw [coeff_polyOf hc, hb.lam_zero i hi, hc.zero]
  vanish := h.lam_vanish

/-- What the minimality of `L` is proved with: the bounds, the meaning, and that `L` is at most the length `ν`. -/
structure SynthMinimal (F : FieldDesc) (φ : Nat → K) (syn : List Nat) (count ν r : Nat) (st : SynthState) : Prop where
  bounds : SynthBounds F count r st
  meaning : SynthMeaning φ syn r st
  len_le : st.len ≤ ν

include hv hc

/-- A step keeps `L` at most the length of any locator that generates the whole sequence: it grows only by Massey's bound. -/
theorem synthStep_minimal (hs : ∀ v ∈ syn, v < F.size) {q : K[X]} {ν : Nat}
    (hq : Generates (synPoly φ syn) q ν count) (hr : r < count) (h : SynthMinimal F φ syn count ν r st) :
    ∃ st', F.synthStep syn count st r = some st' ∧ SynthMinimal F φ syn count ν (r + 1) st' := by
  obtain ⟨hb, hm, hle⟩ := h
  by_cases hd : F.discrepancy syn st.lam r = 0
  · exact ⟨_, synthStep_of_zero F hd, hb.advance, hm.advance hv hc hb hs hd, hle⟩
  · obtain ⟨bInv, hinv, hbInv, -⟩ := hv.finv_spec hb.last_lt hb.last_ne
    have hdlt := discrepancy_lt hv hs hb.lam_lt (r := r)
    have hscale := hv.fmul_lt hdlt hbInv
    by_cases hl : 2 * st.len ≤ r
    · refine ⟨_, synthStep_of_grow F hd hinv hl, hb.grow hv hscale hd hdlt hl, hm.grow hv hc hb hs hr hinv hl, ?_⟩
      have hq' : Generates (synPoly φ syn) q ν (r + 1) :=
        { hq with vanish := fun j hj hjr => hq.vanish j hj (hjr.trans hr) }
      have hfails : (polyOf φ st.lam * synPoly φ syn).coeff (r + 1) ≠ 0 := by
        rw [← codes_discrepancy hv hc hs hb]
        exact fun h0 => hd ((hc.eq_zero_iff hv hdlt).mp h0)
      have hmassey := (hm.generates hc hb).lt_add hq' hfails
      simp only
      omega
    · have hl := Nat.not_le.mp hl
      exact ⟨_, synthStep_of_stay F hd hinv hl, hb.stay hv hscale hl, hm.stay hv hc hb hs hr hinv hl, hle⟩

/-- Berlekamp-Massey's locator is no longer than any that generates the sequence. -/
theorem bm_minimal (hs : ∀ v ∈ syn, v < F.size) {q : K[X]} {ν : Nat}
    (hq : Generates (synPoly φ syn) q ν syn.length) :
    ∃ st, F.bm syn = some st ∧ SynthMinimal F φ syn syn.length ν syn.length st :=
  synthRun_induction ⟨synthInit_bounds hv _, synthInit_meaning hc syn _, Nat.zero_le ν⟩
    (fun _ _ hr h => synthStep_minimal hv hc hs hq hr h) _ le_rfl

end Iteration

/-! Sequences that are sums over error positions. -/

section Errors

variable {K : Type} [Field K] {E : Finset Nat} {x : Nat → K}

/-- A weighted sum over distinct nodes that vanishes on the first powers has zero weights: test it on Lagrange's basis. -/
theorem eq_zero_of_power_sums (hx : Set.InjOn x E) {b : Nat → K} (h : ∀ t, t < E.card → ∑ i ∈ E, b i * x i ^ t = 0)
    {i : Nat} (hi : i ∈ E) : b i = 0 := by
  have hpoly : ∀ P : K[X], P.degree < E.card → ∑ i ∈ E, b i * P.eval (x i) = 0 := fun P hP => by
    simp only [eval_eq_sum, ← sum_fin (fun t a => a * _ ^ t) (fun _ => zero_mul _) hP, Finset.mul_sum]
    rw [Finset.sum_comm]
    refine Finset.sum_eq_zero fun t _ => ?_
    rw [← mul_zero (P.coeff t), ← h t t.isLt, Finset.mul_sum]
    exact Finset.sum_congr rfl fun i _ => mul_left_comm _ _ _
  have hbasis := hpoly (Lagrange.basis E x i) (by
    rw [Lagrange.degree_basis hx hi]
    exact_mod_cast Nat.sub_lt (Finset.card_pos.mpr ⟨i, hi⟩) Nat.one_pos)
  rw [Finset.sum_eq_single_of_mem i hi fun j hj hji => by
    rw [Lagrange.eval_basis_of_ne hji.symm hj, mul_zero], Lagrange.eval_basis_self hx hi, mul_one] at hbasis
  exact hbasis

/-- The locator of the positions `E`: the product of `1 - x[i] X` (R189). -/
noncomputable def locator (E : Finset Nat) (x : Nat → K) : K[X] := ∏ i ∈ E, (1 - C (x i) * X)

theorem coeff_zero_locator : (locator E x).coeff 0 = 1 := by
  simp [locator, coeff_zero_eq_eval_zero, eval_prod]

theorem natDegree_locator_factor {a : K} (ha : a ≠ 0) : (1 - C a * X : K[X]).natDegree = 1 := by
  rw [show (1 - C a * X : K[X]) = C (-a) * X + C 1 by rw [C_neg, C_1]; ring]
  exact natDegree_linear (neg_ne_zero.mpr ha)

theorem natDegree_locator (h0 : ∀ i ∈ E, x i ≠ 0) : (locator E x).natDegree = E.card := by
  have hfactor (i : Nat) (hi : i ∈ E) := natDegree_locator_factor (h0 i hi)
  rw [locator, natDegree_prod _ _ fun i hi h => by simpa [h] using hfactor i hi, Finset.sum_congr rfl hfactor,
    Finset.sum_const, smul_eq_mul, mul_one]

theorem eval_inv_locator {i : Nat} (hi : i ∈ E) (h0 : x i ≠ 0) : (locator E x).eval (x i)⁻¹ = 0 := by
  rw [locator, eval_prod]
  exact Finset.prod_eq_zero hi (by simp [h0])

/-- A polynomial of degree at most the number of the positions, with constant term 1 and a root at the inverse of each, is
their locator: the two agree at one point more than their degree. -/
theorem eq_locator_of_roots (hx : Set.InjOn x E) (h0 : ∀ i ∈ E, x i ≠ 0) {p : K[X]} (hhead : p.coeff 0 = 1)
    (hdeg : ∀ i, E.card < i → p.coeff i = 0) (hroot : ∀ i ∈ E, p.eval (x i)⁻¹ = 0) : p = locator E x := by
  classical
  have hcard : (insert 0 (E.image fun i => (x i)⁻¹)).card = E.card + 1 := by
    rw [Finset.card_insert_of_notMem, Finset.card_image_of_injOn fun i hi j hj hij => hx hi hj (inv_injective hij)]
    intro hmem
    obtain ⟨i, hi, hinv⟩ := Finset.mem_image.mp hmem
    exact h0 i hi (inv_eq_zero.mp hinv)
  refine eq_of_degrees_lt_of_eval_finset_eq (insert 0 (E.image fun i => (x i)⁻¹)) ?_ ?_ fun y hy => ?_
  · rw [hcard, degree_lt_iff_coeff_zero]
    exact fun m hm => hdeg m hm
  · rw [hcard, degree_lt_iff_coeff_zero]
    exact fun m hm => coeff_eq_zero_of_natDegree_lt (by rw [natDegree_locator h0]; exact hm)
  · rcases Finset.mem_insert.mp hy with rfl | hy
    · rw [← coeff_zero_eq_eval_zero, ← coeff_zero_eq_eval_zero, hhead, coeff_zero_locator]
    · obtain ⟨i, hi, rfl⟩ := Finset.mem_image.mp hy
      rw [hroot i hi, eval_inv_locator hi (h0 i hi)]

variable {F : FieldDesc} {φ : Nat → K} (hc : F.Codes φ) {syn : List Nat} {c : Nat → K} (h0 : ∀ i ∈ E, x i ≠ 0)
  (hsyn : ∀ j, j < syn.length → φ (syn.getD j 0) = ∑ i ∈ E, c i * x i ^ j)
include hc h0 hsyn

/-- On a sequence that is a sum over error positions, a discrepancy is a weighted sum of the locator's values at their
inverses. -/
theorem coeff_mul_synPoly_of_errors {p : K[X]} {j : Nat} (hp : ∀ i, j < i → p.coeff i = 0) (hj : j < syn.length) :
    (p * synPoly φ syn).coeff (j + 1) = ∑ e ∈ E, c e * x e ^ j * p.eval (x e)⁻¹ := by
  have hdeg : p.natDegree < j + 1 := Nat.lt_succ_of_le (natDegree_le_iff_coeff_eq_zero.mpr hp)
  have hterm : ∀ i ∈ Finset.range (j + 1), p.coeff i * φ (syn.getD (j - i) 0) =
      ∑ e ∈ E, c e * x e ^ j * (p.coeff i * (x e)⁻¹ ^ i) := fun i hi => by
    have hi := Finset.mem_range.mp hi
    rw [hsyn _ (by omega), Finset.mul_sum]
    refine Finset.sum_congr rfl fun e he => ?_
    rw [inv_pow, ← div_eq_mul_inv, pow_sub₀ _ (h0 e he) (by omega)]
    field_simp
  rw [coeff_mul_synPoly hc syn (hp _ (by omega)), Finset.sum_congr rfl hterm, Finset.sum_comm]
  refine Finset.sum_congr rfl fun e _ => ?_
  rw [eval_eq_sum_range' hdeg, Finset.mul_sum]

/-- The locator of the error positions generates the sequence, from their number on. -/
theorem locator_generates : Generates (synPoly φ syn) (locator E x) E.card syn.length where
  head := coeff_zero_locator
  degree i hi := coeff_eq_zero_of_natDegree_lt (by rw [natDegree_locator h0]; exact hi)
  vanish j hj hjr := by
    obtain ⟨j, rfl⟩ := Nat.exists_eq_succ_of_ne_zero (Nat.ne_of_gt (Nat.zero_lt_of_lt hj))
    have hdeg : ∀ i, j < i → (locator E x).coeff i = 0 := fun i hi =>
      coeff_eq_zero_of_natDegree_lt (by rw [natDegree_locator h0]; omega)
    rw [Nat.succ_eq_add_one, coeff_mul_synPoly_of_errors hc h0 hsyn hdeg (by omega)]
    exact Finset.sum_eq_zero fun e he => by rw [eval_inv_locator he (h0 e he), mul_zero]

/-- With twice as many syndromes as error positions, only their locator generates the sequence with no more than that
length. -/
theorem eq_locator_of_generates (hx : Set.InjOn x E) (hcne : ∀ i ∈ E, c i ≠ 0) (hcount : 2 * E.card ≤ syn.length)
    {p : K[X]} {len : Nat} (hlen : len ≤ E.card) (hp : Generates (synPoly φ syn) p len syn.length) :
    p = locator E x := by
  have hdeg : ∀ i, E.card < i → p.coeff i = 0 := fun i hi => hp.degree i (hlen.trans_lt hi)
  refine eq_locator_of_roots hx h0 hp.head hdeg fun e he => ?_
  have hweights : c e * x e ^ E.card * p.eval (x e)⁻¹ = 0 :=
    eq_zero_of_power_sums (b := fun e => c e * x e ^ E.card * p.eval (x e)⁻¹) hx (fun t ht => by
      have hzero := hp.vanish (E.card + t + 1) (by omega) (by omega)
      rw [coeff_mul_synPoly_of_errors hc h0 hsyn (fun i hi => hdeg i (by omega)) (by omega)] at hzero
      rw [← hzero]
      refine Finset.sum_congr rfl fun e _ => ?_
      rw [pow_add]
      ring) he
  exact (mul_eq_zero.mp hweights).resolve_left (mul_ne_zero (hcne e he) (pow_ne_zero _ (h0 e he)))

end Errors

end Sys2Proof.Proofs
end

section
/-! The locator as a list of coefficients (R189), and the positions that a locator marks (R201, R202, R207). -/

namespace Sys2Proof.Proofs

open Sys2Proof Polynomial

/-! The product of the locator's factors as the model multiplies it out. -/

/-- The locator of the positions `is`, multiplied out factor by factor from `p`. -/
def timesFactors (F : FieldDesc) (points is p : List Nat) : List Nat :=
  is.foldl (fun p i => F.pmul p [1, F.fsub 0 (points.getD i 0)]) p

section Factors

variable {F : FieldDesc} {points : List Nat}

theorem length_timesFactors (is : List Nat) : ∀ p : List Nat, p ≠ [] →
    (timesFactors F points is p).length = p.length + is.length := by
  induction is with
  | nil => exact fun _ _ => rfl
  | cons i is ih =>
    intro p hp
    have hpos := List.length_pos_iff.mpr hp
    have hlen : (F.pmul p [1, F.fsub 0 (points.getD i 0)]).length = p.length + 1 := by simp
    rw [timesFactors, List.foldl_cons, ← timesFactors, ih _ (List.ne_nil_of_length_pos (by omega)), hlen,
      List.length_cons, Nat.add_assoc, Nat.add_comm 1]

variable (hv : F.Valid) (hp : ∀ v ∈ points, v < F.size)
include hv hp

theorem factor_lt (i : Nat) : ∀ v ∈ [1, F.fsub 0 (points.getD i 0)], v < F.size := by
  simpa using ⟨hv.one_lt, hv.fsub_lt hv.zero_lt (hv.getD_lt hp i)⟩

theorem timesFactors_lt (is : List Nat) : ∀ p : List Nat, (∀ v ∈ p, v < F.size) →
    ∀ v ∈ timesFactors F points is p, v < F.size := by
  induction is with
  | nil => exact fun _ hpl => hpl
  | cons i is ih => exact fun p hpl => ih _ (hv.pmul_lt hpl (factor_lt hv hp i))

theorem polyOf_timesFactors {K : Type} [Field K] {φ : Nat → K} (hc : F.Codes φ) (is : List Nat) :
    ∀ p : List Nat, (∀ v ∈ p, v < F.size) → polyOf φ (timesFactors F points is p) =
      polyOf φ p * (is.map fun i => 1 - C (nodesOf φ points i) * X).prod := by
  induction is with
  | nil => exact fun p _ => (mul_one _).symm
  | cons i is ih =>
    intro p hpl
    have hfactor : polyOf φ [1, F.fsub 0 (points.getD i 0)] = 1 - C (nodesOf φ points i) * X := by
      have hneg : φ (F.fsub 0 (points.getD i 0)) = -nodesOf φ points i := by
        rw [hc.sub hv hv.zero_lt (hv.getD_lt hp i), hc.zero, zero_sub, nodesOf]
      simp only [polyOf, List.foldr_cons, List.foldr_nil, hneg, hc.one, C_1, C_neg]
      ring
    rw [timesFactors, List.foldl_cons, ← timesFactors, ih _ (hv.pmul_lt hpl (factor_lt hv hp i)),
      polyOf_pmul hv hc hpl (factor_lt hv hp i), hfactor, List.map_cons, List.prod_cons, mul_assoc]

end Factors

/-! Berlekamp-Massey on the syndromes of an error vector. -/

/-- The positions where a vector of length `n` is not 0, in increasing order. -/
def errorIndices (e : List Nat) (n : Nat) : List Nat := (List.range n).filter fun i => decide (e.getD i 0 ≠ 0)

theorem mem_errorIndices {e : List Nat} {n i : Nat} : i ∈ errorIndices e n ↔ i < n ∧ e.getD i 0 ≠ 0 := by
  simp [errorIndices]

/-- The positions of `errorIndices`, as the set a sum over the errors runs through. -/
def errorFinset (e : List Nat) (n : Nat) : Finset Nat := (Finset.range n).filter fun i => e.getD i 0 ≠ 0

theorem card_errorFinset (e : List Nat) (n : Nat) : (errorFinset e n).card = (errorIndices e n).length := rfl

theorem prod_errorFinset {M : Type} [CommMonoid M] (e : List Nat) (n : Nat) (f : Nat → M) :
    ∏ i ∈ errorFinset e n, f i = ((errorIndices e n).map f).prod := rfl

theorem mem_errorFinset {e : List Nat} {n i : Nat} : i ∈ errorFinset e n ↔ i < n ∧ e.getD i 0 ≠ 0 := by
  simp [errorFinset]

/-- The list that Berlekamp-Massey finds denotes the locator of the error positions. -/
theorem polyOf_errorLocator {F : FieldDesc} (hv : F.Valid) {K : Type} [Field K] {φ : Nat → K} (hc : F.Codes φ)
    {points : List Nat} (hp : ∀ v ∈ points, v < F.size) (e : List Nat) (m : Nat) :
    polyOf φ (timesFactors F points (errorIndices e points.length) [1] ++ List.replicate m 0) =
      locator (errorFinset e points.length) (nodesOf φ points) := by
  have hone : ∀ v ∈ [1], v < F.size := by simpa using hv.one_lt
  rw [polyOf_append_zeros hc, polyOf_timesFactors hv hp hc _ _ hone, locator, prod_errorFinset]
  simp [polyOf, hc.one]

/-- A result that denotes the locator has `L` at least the number of errors: the locator's degree is their number. -/
theorem SynthBounds.card_le_len {F : FieldDesc} {count r : Nat} {st : SynthState} (h : SynthBounds F count r st)
    {K : Type} [Field K] {φ : Nat → K} (hc : F.Codes φ) {E : Finset Nat} {x : Nat → K} (hx0 : ∀ i ∈ E, x i ≠ 0)
    (hlam : polyOf φ st.lam = locator E x) : E.card ≤ st.len := by
  by_contra hlt
  have htop : (locator E x).coeff E.card = 0 := by
    rw [← hlam, coeff_polyOf hc, h.lam_zero _ (Nat.not_le.mp hlt), hc.zero]
  rw [← natDegree_locator hx0, ← leadingCoeff, leadingCoeff_eq_zero] at htop
  exact one_ne_zero ((coeff_zero_locator (x := x)).symm.trans (by rw [htop, coeff_zero]))

/-- With at most `count / 2` errors, at nonzero points, the result is their locator, and `L` their number (R189). -/
theorem bm_of_errors {F : FieldDesc} (hv : F.Valid) {points w e : List Nat} {count : Nat} (hn : points.Nodup)
    (hp : ∀ v ∈ points, v < F.size) (hw : F.wfn points = some w) (he : ∀ v ∈ e, v < F.size)
    (h0 : ∀ i, e.getD i 0 ≠ 0 → points.getD i 0 ≠ 0) (hcount : 2 * (errorIndices e points.length).length ≤ count) :
    ∃ st, F.bm (F.sfn e points w count) = some st ∧ st.len = (errorIndices e points.length).length ∧
      st.lam = timesFactors F points (errorIndices e points.length) [1] ++ List.replicate (count - st.len) 0 := by
  obtain ⟨-, -, hwlt⟩ := hv.wfn_spec hp hw
  obtain ⟨K, _, φ, hc⟩ := hv.exists_codes
  have hsynlt := sfn_lt hv he hp hwlt count
  have hlen : (F.sfn e points w count).length = count := length_sfn ..
  have hx : Set.InjOn (nodesOf φ points) (errorFinset e points.length) :=
    (injOn_nodesOf hv hc hp hn).mono (Finset.coe_subset.mpr (Finset.filter_subset _ _))
  have hx0 : ∀ i ∈ errorFinset e points.length, nodesOf φ points i ≠ 0 := fun i hi hzero =>
    h0 i (mem_errorFinset.mp hi).2 ((hc.eq_zero_iff hv (hv.getD_lt hp i)).mp hzero)
  have hc0 : ∀ i ∈ errorFinset e points.length, φ (e.getD i 0) * φ (w.getD i 0) ≠ 0 := fun i hi => by
    obtain ⟨hin, hei⟩ := mem_errorFinset.mp hi
    obtain ⟨hwi, hwne⟩ := weight_spec hv hp hw hin
    exact mul_ne_zero (mt (hc.eq_zero_iff hv (hv.getD_lt he i)).mp hei) (mt (hc.eq_zero_iff hv hwi).mp hwne)
  have hsyn : ∀ j, j < (F.sfn e points w count).length → φ ((F.sfn e points w count).getD j 0) =
      ∑ i ∈ errorFinset e points.length, φ (e.getD i 0) * φ (w.getD i 0) * nodesOf φ points i ^ j := fun j hj => by
    rw [getD_sfn F e points w (hlen ▸ hj), codes_syndromeAt_support hv he hp hwlt hc]
    rfl
  have hgen := locator_generates hc hx0 hsyn
  obtain ⟨st, hst, hb, hm, hle⟩ := bm_minimal hv hc hsynlt hgen
  have hlam : polyOf φ st.lam = locator (errorFinset e points.length) (nodesOf φ points) :=
    eq_locator_of_generates hc hx0 hsyn hx hc0 (by rwa [hlen, card_errorFinset]) hle (hm.generates hc hb)
  have hL : st.len = (errorIndices e points.length).length := Nat.le_antisymm hle (hb.card_le_len hc hx0 hlam)
  have honelt : ∀ v ∈ [1], v < F.size := by simpa using hv.one_lt
  refine ⟨st, hst, hL, eq_of_polyOf_eq hc hb.lam_lt
    (append_zeros_lt hv (timesFactors_lt hv hp _ _ honelt) _) ?_ ?_⟩
  · rw [hb.lam_length, hlen, List.length_append, length_timesFactors _ _ (List.cons_ne_nil 1 []), List.length_replicate,
      List.length_singleton]
    omega
  · rw [polyOf_errorLocator hv hc hp, hlam]

/-- Settles O44: the result generates the syndromes, as the locator does, and both are of least length. -/
theorem synthesizerFindsTheLocator : Obligations.SynthesizerFindsTheLocator := by
  intro F points w e count hv hn hp hw hlen he h0 hcount
  rw [hlen] at hcount ⊢
  exact bm_of_errors hv hn hp hw he h0 hcount

/-! The positions a locator marks. -/

section Marked

variable {F : FieldDesc}

theorem mem_errorPositions {nmax n i : Nat} {points lam : List Nat} :
    i ∈ F.errorPositions nmax n points lam ↔ i < nmax ∧ i < n ∧ F.isError lam (points.getD i 0) = true := by
  simp [FieldDesc.errorPositions]

theorem nodup_errorPositions (nmax n : Nat) (points lam : List Nat) : (F.errorPositions nmax n points lam).Nodup :=
  List.nodup_range.filter _

/-- A point is marked when it is not 0 and the locator vanishes at its inverse (R201). -/
theorem isError_iff {lam : List Nat} {a : Nat} :
    F.isError lam a = true ↔ a ≠ 0 ∧ ∃ x, F.finv a = some x ∧ F.peval lam x = 0 := by
  by_cases h0 : a = 0
  · simp [FieldDesc.isError, h0]
  · cases hx : F.finv a <;> simp [FieldDesc.isError, h0, hx]

variable (hv : F.Valid) {lam : List Nat} (hl : ∀ v ∈ lam, v < F.size) {K : Type} [Field K] {φ : Nat → K}
  (hc : F.Codes φ)
include hv hl hc

/-- The root test, over the field that FIELD codes. -/
theorem isError_iff_root {a : Nat} (ha : a < F.size) :
    F.isError lam a = true ↔ a ≠ 0 ∧ (polyOf φ lam).eval (φ a)⁻¹ = 0 := by
  rw [isError_iff]
  refine and_congr_right fun h0 => ?_
  obtain ⟨x, hx, hxlt, -⟩ := hv.finv_spec ha h0
  simp only [hx, Option.some.injEq, exists_eq_left', ← hc.eq_zero_iff hv (hv.peval_lt hxlt hl),
    eval_polyOf hv hc hl hxlt, hc.inv hv ha hx]

/-- Distinct points have distinct inverses, so no more are marked than the locator has roots. -/
theorem length_errorPositions_le {points : List Nat} (hn : points.Nodup) (hp : ∀ v ∈ points, v < F.size)
    (hne : polyOf φ lam ≠ 0) (nmax : Nat) :
    (F.errorPositions nmax points.length points lam).length ≤ (polyOf φ lam).natDegree := by
  classical
  rw [← List.toFinset_card_of_nodup (nodup_errorPositions ..)]
  have hinj : Set.InjOn (fun i => (nodesOf φ points i)⁻¹)
      (F.errorPositions nmax points.length points lam).toFinset := fun i hi j hj hij => by
    have hi := mem_errorPositions.mp (List.mem_toFinset.mp hi)
    have hj := mem_errorPositions.mp (List.mem_toFinset.mp hj)
    exact injOn_nodesOf hv hc hp hn (by simpa using hi.2.1) (by simpa using hj.2.1) (inv_injective hij)
  rw [← Finset.card_image_of_injOn hinj]
  refine card_le_degree_of_subset_roots fun x hx => ?_
  obtain ⟨i, hi, rfl⟩ := Finset.mem_image.mp (Finset.mem_val.mp hx)
  obtain ⟨-, -, herr⟩ := mem_errorPositions.mp (List.mem_toFinset.mp hi)
  exact (mem_roots hne).mpr ((isError_iff_root hv hl hc (hv.getD_lt hp i)).mp herr).2

end Marked

/-- A locator of degree `d` marks at most `d` positions (R207). -/
theorem length_errorPositions_le_degree {F : FieldDesc} (hv : F.Valid) {points lam : List Nat} (hn : points.Nodup)
    (hp : ∀ v ∈ points, v < F.size) (hl : ∀ v ∈ lam, v < F.size) {i d : Nat} (hi : lam.getD i 0 ≠ 0)
    (hd : ∀ i, d < i → lam.getD i 0 = 0) (nmax : Nat) :
    (F.errorPositions nmax points.length points lam).length ≤ d := by
  obtain ⟨K, _, φ, hc⟩ := hv.exists_codes
  have hne : polyOf φ lam ≠ 0 := fun h => by
    have hcoeff := coeff_polyOf hc lam i
    rw [h, coeff_zero, eq_comm, hc.eq_zero_iff hv (hv.getD_lt hl i)] at hcoeff
    exact hi hcoeff
  refine (length_errorPositions_le hv hl hc hn hp hne nmax).trans (natDegree_le_iff_coeff_eq_zero.mpr fun i hi => ?_)
  rw [coeff_polyOf hc, hd i hi, hc.zero]

/-- A locator of Berlekamp-Massey marks at most `L` positions (R207). -/
theorem SynthBounds.length_errorPositions_le {F : FieldDesc} (hv : F.Valid) {points : List Nat} (hn : points.Nodup)
    (hp : ∀ v ∈ points, v < F.size) {count r : Nat} {st : SynthState} (h : SynthBounds F count r st) (nmax : Nat) :
    (F.errorPositions nmax points.length points st.lam).length ≤ st.len :=
  length_errorPositions_le_degree hv hn hp h.lam_lt (i := 0) (by rw [h.lam_head]; exact one_ne_zero) h.lam_zero nmax

/-- Settles O45: marked positions have distinct inverses of their points as roots; Berlekamp-Massey bounds the degree. -/
theorem rootCountBound : Obligations.RootCountBound := by
  intro F nmax points lam hv hn hp hl
  refine ⟨fun d hd hzero => ⟨length_errorPositions_le_degree hv hn hp hl hd hzero nmax, ?_⟩, fun syn st hs hst => ?_⟩
  · by_contra hlt
    exact hd (List.getD_eq_default _ _ (by omega))
  · have hb := bounds_of_bm_eq_some hv hs hst
    exact ⟨hb.length_errorPositions_le hv hn hp nmax, hb.len_le⟩

end Sys2Proof.Proofs
end

section
/-! What the commits of the commands do to the buffers: a written range holds its codes, every other element and every
byte outside the range stays (R40, R41). -/

namespace Sys2Proof.Proofs

open Sys2Proof Sys2Proof.Machine

/-! Ranges of elements. -/

theorem geometry_bounds {s : State} (hv : s.cfg.Valid) (hg : s.GeometryOk) :
    1 ≤ s.dim ∧ s.dim ≤ s.len ∧ s.len ≤ s.cfg.nmax ∧ s.len ≤ 1023 := by
  obtain ⟨-, -, hn⟩ := hv
  obtain ⟨h1, h2, h3⟩ := hg
  exact ⟨h1, h2, h3, h3.trans hn⟩

/-- A readable range stays readable while its elements do not change. -/
theorem operand_of_elem_eq {s t : State} {b : Buf} {len : Nat} {vs : List Nat} (h : s.Operand b len vs)
    (hc : t.cfg = s.cfg) (he : ∀ j, j < len → t.elem b j = s.elem b j) : t.Operand b len vs := by
  obtain ⟨hl, hcodes, hlt⟩ := h
  exact ⟨hl, fun i hi => (he i (hl ▸ hi)).trans (hcodes i hi), hc ▸ hlt⟩

theorem operand_setElems_same {s : State} {b : Buf} {vs : List Nat} {len : Nat} (hv : s.cfg.Valid)
    (hl : vs.length = len) (hlt : ∀ v ∈ vs, v < s.cfg.field.size) : (s.setElems b vs).Operand b len vs :=
  ⟨hl, codes_setElems s b vs hv.size_le hlt, hlt⟩

theorem sameBytes_setElems (s : State) (b : Buf) {vs : List Nat} {len : Nat} (hl : vs.length = len) :
    SameBytesOutside s (s.setElems b vs) (lanesOf b len) :=
  fun _ ha => readByte_setElems_outside s b vs (hl ▸ ha)

theorem sameBytes_of_mem_eq {s t : State} (h : t.mem = s.mem) (P : Nat → Prop) : SameBytesOutside s t P :=
  fun a _ => by rw [h]

/-- Two changes in a row change at most what either does. -/
theorem SameBytesOutside.trans {s t u : State} {P Q R : Nat → Prop} (h1 : SameBytesOutside s t P)
    (h2 : SameBytesOutside t u Q) (hP : ∀ a, P a → R a) (hQ : ∀ a, Q a → R a) : SameBytesOutside s u R :=
  fun a ha => (h2 a (mt (hQ a) ha)).trans (h1 a (mt (hP a) ha))

/-! The commit of the weights (R165, R171). -/

theorem elem_commitIfComputed_other (s : State) {wc : List Nat × Bool} (hl : wc.1.length ≤ 1024) {b : Buf}
    (hb : b ≠ .w) {j : Nat} (hj : j < 1024) : (s.commitIfComputed wc).elem b j = s.elem b j := by
  unfold State.commitIfComputed
  split
  · exact elem_setElems_other s wc.1 hb hj hl
  · rfl

/-! The commit of a Berlekamp-Massey result (R187). -/

theorem elem_commitSynth_other (s : State) {st : SynthState} (hl : st.lam.length ≤ 1024) (ha : st.aux.length ≤ 1024)
    {b : Buf} (hlam : b ≠ .lambda) (haux : b ≠ .bpoly) {j : Nat} (hj : j < 1024) :
    (s.commitSynth st).elem b j = s.elem b j :=
  (elem_setElems_other (s.setElems .lambda st.lam) st.aux haux hj ha).trans
    (elem_setElems_other s st.lam hlam hj hl)

section Synth

variable {s : State} {st : SynthState} {count : Nat} (hv : s.cfg.Valid)
  (h : SynthBounds s.cfg.field count count st) (hcount : count ≤ 1022)
include hv h hcount

theorem operand_lambda_commitSynth : (s.commitSynth st).Operand .lambda (count + 1) st.lam := by
  have hlam : (s.setElems .lambda st.lam).Operand .lambda (count + 1) st.lam :=
    operand_setElems_same hv h.lam_length h.lam_lt
  refine operand_of_elem_eq hlam rfl fun j hj => ?_
  have haux : st.aux.length ≤ 1024 := by
    rw [h.aux_length]
    omega
  exact elem_setElems_other (s.setElems .lambda st.lam) st.aux (by decide) (by omega) haux

omit hcount in
theorem operand_bpoly_commitSynth : (s.commitSynth st).Operand .bpoly (count + 1) st.aux :=
  operand_setElems_same (s := s.setElems .lambda st.lam) hv h.aux_length h.aux_lt

theorem bm_commitSynth : (s.commitSynth st).bmL.toNat = st.len ∧ (s.commitSynth st).bmM.toNat = st.shift ∧
    (s.commitSynth st).bmB.toNat = st.last := by
  have hlen := h.len_le
  have hshift := h.shift_le
  refine ⟨?_, ?_, ?_⟩
  · rw [commitSynth_bmL, BitVec.toNat_ofNat, Nat.mod_eq_of_lt (by omega)]
  · rw [commitSynth_bmM, BitVec.toNat_ofNat, Nat.mod_eq_of_lt (by omega)]
  · rw [commitSynth_bmB, elemWord_canonical hv.size_le h.last_lt, toNat_ofNat_code hv.size_le h.last_lt]

omit hv hcount in
theorem sameBytes_commitSynth : SameBytesOutside s (s.commitSynth st)
    (fun a => lanesOf .lambda (count + 1) a ∨ lanesOf .bpoly (count + 1) a) :=
  SameBytesOutside.trans (sameBytes_setElems s .lambda h.lam_length)
    (sameBytes_setElems (s.setElems .lambda st.lam) .bpoly h.aux_length) (fun _ => .inl) (fun _ => .inr)

end Synth

/-! The commit of an error-position set (R202, R203). -/

section Errors

variable {s : State} {q : Nat → Bool} {m : Nat} (hm : m ≤ 1023)
include hm

/-- ERRMAP holds the set, also beyond the positions there are. -/
theorem errBit_setErrors_filter (i : Nat) :
    (s.setErrors ((List.range m).filter q)).errBit i = decide (i ∈ (List.range m).filter q) := by
  by_cases hi : i < 1024
  · exact errBit_setErrors s _ hi
  · have hout : i ∉ (List.range m).filter q := fun hmem => by
      have hlt := List.mem_range.mp (List.mem_filter.mp hmem).1
      omega
    rw [decide_eq_false hout]
    exact BitVec.getLsbD_of_ge _ _ (by omega)

/-- Reading the bits back gives the set. -/
theorem filter_errBit_setErrors :
    (List.range m).filter (s.setErrors ((List.range m).filter q)).errBit = (List.range m).filter q := by
  refine List.filter_congr fun i hi => ?_
  rw [errBit_setErrors_filter hm]
  simp [List.mem_range.mp hi]

/-- NERR counts the set. -/
theorem nerr_setErrors_filter :
    (s.setErrors ((List.range m).filter q)).nerr.toNat = ((List.range m).filter q).length := by
  have hlen := (List.length_filter_le q (List.range m)).trans_eq List.length_range
  rw [setErrors_nerr, BitVec.toNat_ofNat, Nat.mod_eq_of_lt (by omega)]

end Errors

/-- Positions beyond `n` are never in the set: it is the positions below `n` that pass the root test. -/
theorem errorPositions_eq (F : FieldDesc) {nmax n : Nat} (h : n ≤ nmax) (points lam : List Nat) :
    F.errorPositions nmax n points lam = (List.range n).filter fun i => F.isError lam (points.getD i 0) := by
  obtain ⟨d, rfl⟩ := Nat.exists_eq_add_of_le h
  rw [FieldDesc.errorPositions, List.range_add, List.filter_append]
  have hbeyond : ((List.range d).map (n + ·)).filter
      (fun i => decide (i < n) && F.isError lam (points.getD i 0)) = [] := by simp
  rw [hbeyond, List.append_nil]
  exact List.filter_congr fun i hi => by simp [List.mem_range.mp hi]

/-! The commit of a recovery (R214). -/

theorem elem_commitRecovery_other (s : State) {res : List Nat × Bool} (hl : res.1.length ≤ 1024) {b : Buf}
    (hb : b ≠ .dec) {j : Nat} (hj : j < 1024) : (s.commitRecovery res).elem b j = s.elem b j :=
  elem_setElems_other s res.1 hb hj hl

end Sys2Proof.Proofs
end

section
/-! The commands on readable operands (R150-R214): each completes, with these results and nothing else changed. -/

namespace Sys2Proof.Proofs

open Sys2Proof Sys2Proof.Machine

/-- A command whose rule computes a commit ends in that commit (R240). -/
theorem exec_of_runOf_ok {i : Instr} {s u : State} (h : runOf i s = .ok u) : exec i s = .next (finish u) := by
  rw [exec_eq_complete, h, complete_ok]

theorem exec_of_runOf_raised {i : Instr} {s : State} {e : Exception} (h : runOf i s = .raised e) :
    exec i s = .next (s.withError e.code) := by
  rw [exec_eq_complete, h, complete_raised, abort_eq_withError]

/-! ENCODE. -/

/-- Settles O20: CW is written with the canonical values of the message polynomial. -/
theorem encodeCompletes : Obligations.EncodeCompletes := by
  intro s msg points hv hg hmsg ha
  have ⟨hlen, _, hp⟩ := ha
  have ⟨_, _, hm⟩ := hmsg
  have hcwlen : (encodeMessage s.cfg.field msg points).length = s.len := by rw [encodeMessage, List.length_map, hlen]
  refine ⟨_, exec_of_runOf_ok (i := .encode) (runEncode_ok hv.size_le hg hmsg ha), ?_, ?_, rfl⟩
  · exact operand_setElems_same (s := s) hv hcwlen (map_peval_lt hv.1 hm hp)
  · exact sameBytes_setElems s .cw hcwlen

/-- Settles O21: ENCODE's values are Horner's, which are power sums; and evaluation is linear. -/
theorem encodeGivesPolynomialValues : Obligations.EncodeGivesPolynomialValues := by
  refine ⟨fun s t msg points hv hg hmsg ha hexec i hi => ?_, fun F a b x m1 m2 hv ha hb hx _ h1 h2 =>
    peval_padd_pscale hv ha hb hx h1 h2⟩
  obtain ⟨t', hexec', ⟨hcwlen, hcodes, -⟩, -, -⟩ := encodeCompletes s msg points hv hg hmsg ha
  obtain rfl : t = t' := by simpa [hexec] using hexec'
  obtain ⟨hlen, -, hp⟩ := ha
  obtain ⟨hmlen, -, hm⟩ := hmsg
  have hval : (points.map fun a => s.cfg.field.peval msg a).getD i 0 = s.cfg.field.peval msg (points.getD i 0) := by
    rw [List.getD_eq_getElem _ _ (by rwa [hcwlen]), List.getElem_map, List.getD_eq_getElem _ _ (by rwa [hlen])]
  rw [hcodes i (by rwa [hcwlen]), hval, peval_eq_fsum hv.1 hm (hv.1.getD_lt hp i), hmlen]

/-! Weights. -/

/-- Settles O22: distinct points have weights, each the inverse of its product of differences. -/
theorem weightsCompletes : Obligations.WeightsCompletes := by
  intro s points hv hg ha hn
  have ⟨hlen, _, hp⟩ := ha
  obtain ⟨w, hw⟩ := hv.1.wfn_of_nodup hp hn
  obtain ⟨-, hwlen, hwlt⟩ := hv.1.wfn_spec hp hw
  obtain ⟨-, hinv⟩ := FieldDesc.wfn_eq_some.mp hw
  refine ⟨_, w, exec_of_runOf_ok (i := .weights) (runWeights_ok hv.size_le hg ha hw), ?_, fun i hi => ?_, ?_, rfl⟩
  · exact operand_setElems_same (s := s) hv (hwlen.trans hlen) hwlt
  · rw [← hlen] at hi ⊢
    exact hinv i hi
  · exact sameBytes_setElems s .w (hwlen.trans hlen)

/-- Points that are not distinct have no weights. -/
theorem wfn_eq_none {F : FieldDesc} (hv : F.Valid) {points : List Nat} (hp : ∀ v ∈ points, v < F.size)
    (hn : ¬ points.Nodup) : F.wfn points = none :=
  Option.eq_none_iff_forall_ne_some.mpr fun _ hw => hn (hv.wfn_spec hp hw).1

/-- Settles O23: the weights do not exist, and every command that needs them raises after its operand checks. -/
theorem duplicatePointsAbortWeights : Obligations.DuplicatePointsAbortWeights := by
  intro s points hv hg ha hn
  have ⟨_, _, hp⟩ := ha
  have hw := wfn_eq_none hv.1 hp hn
  have hgeo := checkGeometry_ok hg
  have hpoints := readCanonical_ok hv.size_le ha
  refine ⟨exec_of_runOf_raised (e := .divisionByZero) ?_, fun r hfresh hcw => ?_⟩
  · simp [runOf, runWeights, hgeo, hpoints, hw]
  · have hr := readCanonical_ok hv.size_le hcw
    have huse : s.weightsForUse points = .raised .divisionByZero := by simp [State.weightsForUse, hfresh, hw]
    exact ⟨exec_of_runOf_raised (e := .divisionByZero) (by simp [runOf, runSyndrome, hgeo, hr, hpoints, huse]),
      exec_of_runOf_raised (e := .divisionByZero) (by simp [runOf, runDecode, hgeo, hr, hpoints, huse])⟩

section Cache

variable {s : State} {points w : List Nat} (hv : s.cfg.Valid) (ha : s.Operand .alpha s.len points)
  (hw : s.cfg.field.wfn points = some w) (hcache : s.CacheRight points)
include hv ha hw hcache

/-- With the weights invariant the weights in use are the weights of the points, computed exactly when W_VALID = 0 (R51,
R168). -/
theorem weightsForUse_of_cacheRight : s.weightsForUse points = .ok (w, !s.status.wValid) := by
  obtain ⟨hlen, -, hp⟩ := ha
  obtain ⟨-, hwlen, hwlt⟩ := hv.1.wfn_spec hp hw
  cases hvalid : s.status.wValid with
  | false => exact weightsForUse_fresh hvalid hw
  | true =>
    obtain ⟨w', hw', hcodes⟩ := hcache hvalid
    obtain rfl : w = w' := by simpa [hw] using hw'
    have hsize := hv.size_le
    exact weightsForUse_cached hvalid (hwlen.trans hlen) hcodes fun v hvm => by
      have hlt := hwlt v hvm
      omega

/-- Cached or computed, W then holds the weights. -/
theorem operand_w_commitIfComputed :
    (s.commitIfComputed (w, !s.status.wValid)).Operand .w s.len w := by
  obtain ⟨hlen, -, hp⟩ := ha
  obtain ⟨-, hwlen, hwlt⟩ := hv.1.wfn_spec hp hw
  cases hvalid : s.status.wValid with
  | false => exact operand_setElems_same (s := s) hv (hwlen.trans hlen) hwlt
  | true =>
    obtain ⟨w', hw', hcodes⟩ := hcache hvalid
    obtain rfl : w = w' := by simpa [hw] using hw'
    exact ⟨hwlen.trans hlen, hcodes, hwlt⟩

omit hcache in
theorem sameBytes_commitIfComputed : SameBytesOutside s (s.commitIfComputed (w, !s.status.wValid))
    (fun a => s.status.wValid = false ∧ lanesOf .w s.len a) := by
  obtain ⟨hlen, -, hp⟩ := ha
  obtain ⟨-, hwlen, -⟩ := hv.1.wfn_spec hp hw
  cases hvalid : s.status.wValid with
  | false => exact fun a hout => sameBytes_setElems s .w (hwlen.trans hlen) a fun hin => hout ⟨rfl, hin⟩
  | true => exact sameBytes_of_mem_eq rfl _

end Cache

/-- With the weights of the points W_VALID is 1 after the commit, and the commit changes nothing else but W. -/
theorem commitIfComputed_cacheRight (s : State) (w : List Nat) : s.commitIfComputed (w, !s.status.wValid) =
    { s with mem := (s.commitIfComputed (w, !s.status.wValid)).mem, status := { s.status with wValid := true } } := by
  rw [commitIfComputed_eq]
  simp

/-- Settles O24: SYNDROME commits the weights in use, if computed, and then S. -/
theorem syndromeCompletes : Obligations.SyndromeCompletes := by
  intro s r points hv hg hcw ha hn hcache
  have ⟨hlen, _, hp⟩ := ha
  have ⟨_, _, hr⟩ := hcw
  obtain ⟨hk, hkn, -, hn1023⟩ := geometry_bounds hv hg
  obtain ⟨w, hw⟩ := hv.1.wfn_of_nodup hp hn
  obtain ⟨-, hwlen, hwlt⟩ := hv.1.wfn_spec hp hw
  have hrun := runSyndrome_ok hv.size_le hg hcw ha (weightsForUse_of_cacheRight hv ha hw hcache)
  have hsyn := length_sfn s.cfg.field r points w (s.len - s.dim)
  have hcfg := commitIfComputed_cfg s (w, !s.status.wValid)
  refine ⟨_, w, exec_of_runOf_ok (i := .syndrome) hrun, hw, ?_, ?_, ?_, ?_⟩
  · refine operand_of_elem_eq (operand_w_commitIfComputed hv ha hw hcache) rfl fun j hj => ?_
    exact elem_setElems_other _ _ (by decide) (by omega) (by rw [hsyn]; omega)
  · have hop : ((s.commitIfComputed (w, !s.status.wValid)).setElems .s
        (s.cfg.field.sfn r points w (s.len - s.dim))).Operand .s (s.len - s.dim)
        (s.cfg.field.sfn r points w (s.len - s.dim)) :=
      operand_setElems_same (hcfg ▸ hv) hsyn (hcfg ▸ sfn_lt hv.1 hr hp hwlt _)
    rw [← hlen]
    rw [← hlen] at hop
    exact hop
  · exact SameBytesOutside.trans (sameBytes_commitIfComputed hv ha hw) (sameBytes_setElems _ .s hsyn)
      (fun _ => .inr) (fun _ => .inl)
  · rw [commitIfComputed_cacheRight]
    rfl

/-! BMSYN. -/

/-- Settles O25: Berlekamp-Massey has a result on every canonical sequence, and its bounds fit the registers. -/
theorem bmsynCompletes : Obligations.BmsynCompletes := by
  intro s syn hv hg hs
  have ⟨hlen, _, hlt⟩ := hs
  obtain ⟨hk, hkn, -, hn1023⟩ := geometry_bounds hv hg
  obtain ⟨st, hst, hb⟩ := bm_bounds hv.1 hlt
  rw [hlen] at hb
  obtain ⟨hL, hM, hB⟩ := bm_commitSynth hv hb (by omega)
  exact ⟨_, st, exec_of_runOf_ok (i := .bmsyn) (runBmsyn_ok hv.size_le hg hs hst), hst,
    operand_lambda_commitSynth hv hb (by omega), operand_bpoly_commitSynth hv hb, hL, hM, hB,
    sameBytes_commitSynth hb, rfl⟩

/-! ROOTS. -/

/-- Settles O27: the positions that pass the root test are the set committed. -/
theorem rootsCompletes : Obligations.RootsCompletes := by
  intro s points lam hv hg ha hl
  obtain ⟨-, -, hnn, hn1023⟩ := geometry_bounds hv hg
  have hrun := runRoots_ok hv.size_le hg ha hl
  rw [errorPositions_eq _ hnn] at hrun
  refine ⟨_, exec_of_runOf_ok (i := .roots) hrun, fun i => ?_, ?_, rfl⟩
  · refine Iff.trans (Bool.eq_iff_iff.mp (errBit_setErrors_filter (s := s) hn1023 i)) ?_
    simp [isError_iff]
  · refine (nerr_setErrors_filter (s := s) hn1023).trans (congrArg List.length ?_)
    exact (filter_errBit_setErrors (s := s) hn1023).symm

/-! RECOVER. -/

/-- Enough valid positions: the message is the interpolation at the first `k` of them, and INSUF is 0 (R213). -/
theorem rfn_of_sufficient (F : FieldDesc) {marked : Nat → Bool} {points : List Nat} (r : List Nat) {k : Nat}
    (h : k ≤ (validPositions marked points.length).length) :
    F.rfn marked points r k =
      (F.interpolate (((validPositions marked points.length).take k).map fun p => points.getD p 0)
        (((validPositions marked points.length).take k).map fun p => r.getD p 0)).map fun m => (m, false) :=
  if_neg (Nat.not_lt.mpr h)

/-- An interpolation takes the values it was given (R133). -/
theorem peval_interpolate {F : FieldDesc} (hv : F.Valid) {xs ys q : List Nat} (hx : ∀ v ∈ xs, v < F.size)
    (hy : ∀ v ∈ ys, v < F.size) (hn : xs.Nodup) (h : F.interpolate xs ys = some q) {i : Nat} (hi : i < xs.length) :
    F.peval q (xs.getD i 0) = ys.getD i 0 := by
  obtain ⟨-, hq⟩ := hv.interpolate_spec hx hy h
  obtain ⟨K, _, φ, hc⟩ := hv.exists_codes
  have hxi := hv.getD_lt hx i
  refine hc.inj _ (hv.peval_lt hxi hq) _ (hv.getD_lt hy i) ?_
  rw [eval_polyOf hv hc hq hxi, polyOf_interpolate hv hc hx hy hn h]
  change (Lagrange.interpolate _ (nodesOf φ xs) (nodesOf φ ys)).eval (nodesOf φ xs i) = nodesOf φ ys i
  exact Lagrange.eval_interpolate_at_node _ (injOn_nodesOf hv hc hx hn) (Finset.mem_range.mpr hi)

/-- The only polynomial with `k` coefficients through `k` distinct points is their interpolation (R135). -/
theorem interpolate_map_peval {F : FieldDesc} (hv : F.Valid) {xs p : List Nat} (hn : xs.Nodup)
    (hx : ∀ v ∈ xs, v < F.size) (hl : p.length = xs.length) (hp : ∀ v ∈ p, v < F.size) :
    F.interpolate xs (xs.map fun x => F.peval p x) = some p := by
  have hidem := interpolationIdempotent F xs p hv hn hx hl.le hp
  rwa [hl, Nat.sub_self, List.replicate_zero, List.append_nil] at hidem

/-- Settles O28: the message is the interpolation at the first K valid positions. -/
theorem recoverCompletes : Obligations.RecoverCompletes := by
  intro s points r hv hg ha hr henough hn
  have ⟨hlen, _, hp⟩ := ha
  have ⟨_, _, hrlt⟩ := hr
  set chosen := ((List.range s.len).filter fun i => !s.errBit i).take s.dim with hchosen
  have hclen : chosen.length = s.dim := by
    rw [hchosen, List.length_take]
    omega
  have hx : ∀ v ∈ chosen.map fun p => points.getD p 0, v < s.cfg.field.size :=
    List.forall_mem_map.mpr fun p _ => hv.1.getD_lt hp p
  have hy : ∀ v ∈ chosen.map fun p => r.getD p 0, v < s.cfg.field.size :=
    List.forall_mem_map.mpr fun p _ => hv.1.getD_lt hrlt p
  obtain ⟨dec, hdec⟩ := Option.ne_none_iff_exists'.mp fun hnone =>
    (interpolate_eq_none_iff hv.1 hx (chosen.map fun p => r.getD p 0)).mp hnone hn
  obtain ⟨hdlen, hdlt⟩ := hv.1.interpolate_spec hx hy hdec
  have hrfn : s.cfg.field.rfn s.errBit points r s.dim = some (dec, false) := by
    rw [rfn_of_sufficient _ _ (by rw [hlen]; exact henough), hlen, validPositions, ← hchosen, hdec, Option.map_some]
  obtain ⟨t, hexec, hop, hbytes, heq⟩ := recover_commits hv hg ha hr hrfn (by simpa [hclen] using hdlen) hdlt
  refine ⟨t, dec, hexec, hop, fun p hpm => ?_, fun q hql hqlt hqval => ?_, hbytes, heq⟩
  · obtain ⟨i, hi, rfl⟩ := List.getElem_of_mem hpm
    have hval := peval_interpolate hv.1 hx hy hn hdec (i := i) (by simpa using hi)
    rwa [List.getD_eq_getElem _ _ (by simpa using hi), List.getD_eq_getElem _ _ (by simpa using hi),
      List.getElem_map, List.getElem_map] at hval
  · have hvalues : (chosen.map fun p => points.getD p 0).map (fun x => s.cfg.field.peval q x) =
        chosen.map fun p => r.getD p 0 := by
      rw [List.map_map]
      exact List.map_congr_left hqval
    have huniq := interpolate_map_peval hv.1 hn hx (p := q) (by rw [hql, List.length_map, hclen]) hqlt
    rw [hvalues, hdec] at huniq
    exact (Option.some.inj huniq).symm

end Sys2Proof.Proofs
end

section
/-! DECODE on readable operands and distinct points (R232): the stages all have results, and the commit holds them
together. -/

namespace Sys2Proof.Proofs

open Sys2Proof Sys2Proof.Machine

/-! The recovery stage. -/

/-- `rfn` looks at the marks of the positions alone. -/
theorem rfn_congr (F : FieldDesc) {m m' : Nat → Bool} {points : List Nat} (r : List Nat) (k : Nat)
    (h : ∀ i, i < points.length → m i = m' i) : F.rfn m points r k = F.rfn m' points r k := by
  have hvalid : validPositions m points.length = validPositions m' points.length :=
    List.filter_congr fun i hi => by rw [h i (List.mem_range.mp hi)]
  simp only [FieldDesc.rfn, hvalid]

/-- A recovery has `k` canonical coefficients (R213, R216). -/
theorem rfn_spec {F : FieldDesc} (hv : F.Valid) {marked : Nat → Bool} {points r : List Nat} {k : Nat}
    (hp : ∀ v ∈ points, v < F.size) (hr : ∀ v ∈ r, v < F.size) {res : List Nat × Bool}
    (h : F.rfn marked points r k = some res) : res.1.length = k ∧ ∀ v ∈ res.1, v < F.size := by
  by_cases hk : k ≤ (validPositions marked points.length).length
  · rw [rfn_of_sufficient F r hk] at h
    obtain ⟨m, hm, rfl⟩ := Option.map_eq_some_iff.mp h
    obtain ⟨hlen, hlt⟩ := hv.interpolate_spec (List.forall_mem_map.mpr fun p _ => hv.getD_lt hp p)
      (List.forall_mem_map.mpr fun p _ => hv.getD_lt hr p) hm
    exact ⟨by rw [hlen, List.length_map, List.length_take, Nat.min_eq_left hk], hlt⟩
  · rw [rfn_of_insufficient F r (Nat.not_le.mp hk)] at h
    cases h
    exact ⟨List.length_replicate, zeros_lt hv k⟩

/-- With enough valid positions INSUF is 0. -/
theorem rfn_insuf_eq_false {F : FieldDesc} {marked : Nat → Bool} {points r : List Nat} {k : Nat}
    {res : List Nat × Bool} (hk : k ≤ (validPositions marked points.length).length)
    (h : F.rfn marked points r k = some res) : res.2 = false := by
  rw [rfn_of_sufficient F r hk] at h
  obtain ⟨m, -, rfl⟩ := Option.map_eq_some_iff.mp h
  rfl

/-- Distinct positions have distinct points. -/
theorem nodup_map_getD {points : List Nat} (hn : points.Nodup) {is : List Nat} (his : is.Nodup)
    (hlt : ∀ i ∈ is, i < points.length) : (is.map fun i => points.getD i 0).Nodup := by
  refine his.map_on fun i hi j hj hij => ?_
  rw [List.getD_eq_getElem _ _ (hlt i hi), List.getD_eq_getElem _ _ (hlt j hj)] at hij
  exact hn.getElem_inj_iff.mp hij

/-- The positions that a recovery interpolates at, and their points, are distinct. -/
theorem nodup_chosen {points : List Nat} (hn : points.Nodup) (marked : Nat → Bool) (k : Nat) :
    (((validPositions marked points.length).take k).map fun p => points.getD p 0).Nodup := by
  have hvalid : (validPositions marked points.length).Nodup := List.nodup_range.filter _
  refine nodup_map_getD hn (hvalid.sublist (List.take_sublist _ _)) fun i hi => ?_
  exact List.mem_range.mp (List.mem_filter.mp (List.mem_of_mem_take hi)).1

/-- On distinct points a recovery never raises. -/
theorem exists_rfn_of_nodup {F : FieldDesc} (hv : F.Valid) (marked : Nat → Bool) {points : List Nat}
    (hn : points.Nodup) (hp : ∀ v ∈ points, v < F.size) (r : List Nat) (k : Nat) :
    ∃ res, F.rfn marked points r k = some res := by
  by_cases hk : k ≤ (validPositions marked points.length).length
  · exact Option.ne_none_iff_exists'.mp fun hnone =>
      (rfn_eq_none_iff hv hp r hk).mp hnone (nodup_chosen hn marked k)
  · exact ⟨_, rfn_of_insufficient F r (Nat.not_le.mp hk)⟩

/-! The stages together. -/

/-- On distinct points all stages of DECODE have results (R232). -/
theorem exists_decodeStages {c : Config} (hv : c.Valid) {r points w : List Nat} (hn : points.Nodup)
    (hp : ∀ v ∈ points, v < c.field.size) (hr : ∀ v ∈ r, v < c.field.size) (hw : ∀ v ∈ w, v < c.field.size)
    (k : Nat) : ∃ d, decodeStages c k r points w = .ok d := by
  obtain ⟨st, hst, -⟩ := bm_bounds hv.1 (sfn_lt hv.1 hr hp hw (points.length - k))
  obtain ⟨res, hres⟩ := exists_rfn_of_nodup hv.1
    (fun i => decide (i ∈ c.field.errorPositions c.nmax points.length points st.lam)) hn hp r k
  exact ⟨_, decodeStages_ok hst hres⟩

/-- The lengths of a DECODE's results, which it has whatever the weights in use hold. -/
structure DecodeLengths (count k : Nat) (d : DecodeResult) : Prop where
  syn_length : d.syn.length = count
  lam_length : d.synth.lam.length = count + 1
  aux_length : d.synth.aux.length = count + 1
  dec_length : d.recovery.1.length = k

/-- The form of a DECODE's results: lengths, canonical codes, and the bounds of the Berlekamp-Massey result. -/
structure DecodeForm (F : FieldDesc) (count k : Nat) (d : DecodeResult) : Prop where
  syn_length : d.syn.length = count
  syn_lt : ∀ v ∈ d.syn, v < F.size
  synth : SynthBounds F count count d.synth
  dec_length : d.recovery.1.length = k
  dec_lt : ∀ v ∈ d.recovery.1, v < F.size

theorem DecodeForm.lengths {F : FieldDesc} {count k : Nat} {d : DecodeResult} (h : DecodeForm F count k d) :
    DecodeLengths count k d := ⟨h.syn_length, h.synth.lam_length, h.synth.aux_length, h.dec_length⟩

section Stages

variable {c : Config} (hv : c.Valid) {r points w : List Nat} {k : Nat} {d : DecodeResult}
  (hp : ∀ v ∈ points, v < c.field.size) (hr : ∀ v ∈ r, v < c.field.size)
  (h : decodeStages c k r points w = .ok d)
include hv hp hr h

theorem decodeLengths_of_decodeStages : DecodeLengths (points.length - k) k d := by
  obtain ⟨hsyn, hbm, -, hrec⟩ := decodeStages_eq_ok h
  have hlen : d.syn.length = points.length - k := by rw [hsyn, length_sfn]
  obtain ⟨hlam, haux⟩ := length_bm hbm
  exact ⟨hlen, hlen ▸ hlam, hlen ▸ haux, (rfn_spec hv.1 hp hr hrec).1⟩

theorem decodeForm_of_decodeStages (hw : ∀ v ∈ w, v < c.field.size) : DecodeForm c.field (points.length - k) k d := by
  obtain ⟨hsyn, hbm, -, hrec⟩ := decodeStages_eq_ok h
  have hlen : d.syn.length = points.length - k := by rw [hsyn, length_sfn]
  have hlt : ∀ v ∈ d.syn, v < c.field.size := hsyn ▸ sfn_lt hv.1 hr hp hw _
  obtain ⟨hdlen, hdlt⟩ := rfn_spec hv.1 hp hr hrec
  exact ⟨hlen, hlt, hlen ▸ bounds_of_bm_eq_some hv.1 hlt hbm, hdlen, hdlt⟩

end Stages

section Commit

variable {s : State} {wc : List Nat × Bool} {d : DecodeResult} {count k : Nat}

section Lengths

variable (h : DecodeLengths count k d) (hk : k ≤ 1023) {b : Buf} (hdec : b ≠ .dec) {j : Nat} (hj : j < 1024)
include h hk hdec hj

/-- The recovery is committed last, and writes DEC alone. -/
theorem elem_commitDecode : (s.commitDecode wc d).elem b j =
    (((s.commitIfComputed wc).setElems .s d.syn).commitSynth d.synth).elem b j :=
  elem_commitRecovery_other _ (by rw [h.dec_length]; omega) hdec hj

/-- Before it only S, LAMBDA and BPOLY are written, and W if its weights were computed. -/
theorem elem_commitDecode_other (hcount : count ≤ 1022) (hs : b ≠ .s) (hlam : b ≠ .lambda) (haux : b ≠ .bpoly) :
    (s.commitDecode wc d).elem b j = (s.commitIfComputed wc).elem b j := by
  rw [elem_commitDecode h hk hdec hj,
    elem_commitSynth_other _ (by rw [h.lam_length]; omega) (by rw [h.aux_length]; omega) hlam haux hj,
    elem_setElems_other _ _ hs hj (by rw [h.syn_length]; omega)]

end Lengths

variable (hform : DecodeForm s.cfg.field count k d) (hcount : count ≤ 1022) (hk : k ≤ 1023)
include hform hcount hk

variable (hv : s.cfg.Valid)
include hv

theorem operand_s_commitDecode : (s.commitDecode wc d).Operand .s count d.syn := by
  have hcfg := commitIfComputed_cfg s wc
  have hop : ((s.commitIfComputed wc).setElems .s d.syn).Operand .s count d.syn :=
    operand_setElems_same (hcfg ▸ hv) hform.syn_length (hcfg ▸ hform.syn_lt)
  refine operand_of_elem_eq hop (by simp) fun j hj => ?_
  rw [elem_commitDecode hform.lengths hk (by decide) (by omega)]
  exact elem_commitSynth_other _ (by rw [hform.synth.lam_length]; omega) (by rw [hform.synth.aux_length]; omega)
    (by decide) (by decide) (by omega)

theorem operand_lambda_commitDecode : (s.commitDecode wc d).Operand .lambda (count + 1) d.synth.lam := by
  have hcfg : ((s.commitIfComputed wc).setElems .s d.syn).cfg = s.cfg := commitIfComputed_cfg s wc
  exact operand_of_elem_eq (operand_lambda_commitSynth (hcfg ▸ hv) (hcfg ▸ hform.synth) hcount) (by simp)
    fun j hj => elem_commitDecode hform.lengths hk (by decide) (by omega)

theorem operand_bpoly_commitDecode : (s.commitDecode wc d).Operand .bpoly (count + 1) d.synth.aux := by
  have hcfg : ((s.commitIfComputed wc).setElems .s d.syn).cfg = s.cfg := commitIfComputed_cfg s wc
  exact operand_of_elem_eq (operand_bpoly_commitSynth (hcfg ▸ hv) (hcfg ▸ hform.synth)) (by simp)
    fun j hj => elem_commitDecode hform.lengths hk (by decide) (by omega)

omit hcount hk in
theorem operand_dec_commitDecode : (s.commitDecode wc d).Operand .dec k d.recovery.1 := by
  have hcfg : ((((s.commitIfComputed wc).setElems .s d.syn).commitSynth d.synth).setErrors d.errors).cfg = s.cfg := by
    simp
  have hop : (((((s.commitIfComputed wc).setElems .s d.syn).commitSynth d.synth).setErrors d.errors).setElems .dec
      d.recovery.1).Operand .dec k d.recovery.1 := by
    refine operand_setElems_same ?_ hform.dec_length ?_
    · rw [hcfg]
      exact hv
    · rw [hcfg]
      exact hform.dec_lt
  exact operand_of_elem_eq hop rfl fun _ _ => rfl

omit hk in
theorem bm_commitDecode : (s.commitDecode wc d).bmL.toNat = d.synth.len ∧
    (s.commitDecode wc d).bmM.toNat = d.synth.shift ∧ (s.commitDecode wc d).bmB.toNat = d.synth.last := by
  have hcfg : ((s.commitIfComputed wc).setElems .s d.syn).cfg = s.cfg := commitIfComputed_cfg s wc
  exact bm_commitSynth (hcfg ▸ hv) (hcfg ▸ hform.synth) hcount

omit hcount hk hv in
theorem sameBytes_commitDecode {P : Nat → Prop} (hw : SameBytesOutside s (s.commitIfComputed wc) P) :
    SameBytesOutside s (s.commitDecode wc d) (fun a => lanesOf .s count a ∨ lanesOf .lambda (count + 1) a ∨
      lanesOf .bpoly (count + 1) a ∨ lanesOf .dec k a ∨ P a) := by
  have hcfg : ((s.commitIfComputed wc).setElems .s d.syn).cfg = s.cfg := commitIfComputed_cfg s wc
  have hsyn := sameBytes_setElems (s.commitIfComputed wc) .s hform.syn_length
  have hsynth := sameBytes_commitSynth (s := (s.commitIfComputed wc).setElems .s d.syn) (hcfg ▸ hform.synth)
  have hdec := sameBytes_setElems
    ((((s.commitIfComputed wc).setElems .s d.syn).commitSynth d.synth).setErrors d.errors) .dec hform.dec_length
  intro a ha
  obtain ⟨hs, hlam, haux, hd, hp⟩ : ¬ lanesOf .s count a ∧ ¬ lanesOf .lambda (count + 1) a ∧
      ¬ lanesOf .bpoly (count + 1) a ∧ ¬ lanesOf .dec k a ∧ ¬ P a := by
    simpa only [not_or] using ha
  calc readByte (s.commitDecode wc d).mem a
      = readByte (((s.commitIfComputed wc).setElems .s d.syn).commitSynth d.synth).mem a := hdec a hd
    _ = readByte ((s.commitIfComputed wc).setElems .s d.syn).mem a := hsynth a (not_or.mpr ⟨hlam, haux⟩)
    _ = readByte (s.commitIfComputed wc).mem a := hsyn a hs
    _ = readByte s.mem a := hw a hp

end Commit

/-- ERRMAP after DECODE is the one that ROOTS' commit writes. -/
theorem errBit_commitDecode (s : State) (wc : List Nat × Bool) (d : DecodeResult) :
    (s.commitDecode wc d).errBit = (s.setErrors d.errors).errBit := by
  funext i
  rw [State.errBit, State.errBit, commitDecode_errmap, setErrors_errmap]

/-- With the weights of the points the commit changes, outside the buffers, the results and the two flags alone. -/
theorem commitDecode_cacheRight (s : State) (w : List Nat) (d : DecodeResult) :
    s.commitDecode (w, !s.status.wValid) d =
      { s with
        mem := (s.commitDecode (w, !s.status.wValid) d).mem
        bmL := (s.commitDecode (w, !s.status.wValid) d).bmL
        bmM := (s.commitDecode (w, !s.status.wValid) d).bmM
        bmB := (s.commitDecode (w, !s.status.wValid) d).bmB
        errmap := (s.commitDecode (w, !s.status.wValid) d).errmap
        nerr := (s.commitDecode (w, !s.status.wValid) d).nerr
        status := { s.status with wValid := true, insuf := d.recovery.2 } } := by
  rw [State.commitDecode, commitIfComputed_cacheRight]
  rfl

/-- Settles O31: the stages have results, and their commits write different places. -/
theorem decodeCompletes : Obligations.DecodeCompletes := by
  intro s r points hv hg hcw ha hn hcache
  have ⟨hlen, _, hp⟩ := ha
  have ⟨_, _, hr⟩ := hcw
  obtain ⟨hk, hkn, hnn, hn1023⟩ := geometry_bounds hv hg
  obtain ⟨w, hw⟩ := hv.1.wfn_of_nodup hp hn
  obtain ⟨-, -, hwlt⟩ := hv.1.wfn_spec hp hw
  obtain ⟨d, hd⟩ := exists_decodeStages hv hn hp hr hwlt s.dim
  have hform := decodeForm_of_decodeStages hv hp hr hd hwlt
  obtain ⟨hsyn, hbm, herrors, hrec⟩ := decodeStages_eq_ok hd
  rw [hlen] at hform hsyn herrors
  rw [errorPositions_eq _ hnn] at herrors
  have hcount : s.len - s.dim ≤ 1022 := by omega
  have hk1023 : s.dim ≤ 1023 := by omega
  have hexec := exec_of_runOf_ok (i := .decode)
    (runDecode_ok hv.size_le hg hcw ha (weightsForUse_of_cacheRight hv ha hw hcache) hd)
  obtain ⟨hL, hM, hB⟩ := bm_commitDecode (s := s) (wc := (w, !s.status.wValid)) hform hcount hv
  have hW : (s.commitDecode (w, !s.status.wValid) d).Operand .w s.len w :=
    operand_of_elem_eq (operand_w_commitIfComputed hv ha hw hcache) (by simp) fun j hj =>
      elem_commitDecode_other hform.lengths hk1023 (by decide) (by omega) hcount (by decide) (by decide) (by decide)
  have hS := operand_s_commitDecode (wc := (w, !s.status.wValid)) hform hcount hk1023 hv
  have hlam := operand_lambda_commitDecode (wc := (w, !s.status.wValid)) hform hcount hk1023 hv
  have haux := operand_bpoly_commitDecode (wc := (w, !s.status.wValid)) hform hcount hk1023 hv
  have hdec := operand_dec_commitDecode (wc := (w, !s.status.wValid)) hform hv
  have hbytes := sameBytes_commitDecode hform (sameBytes_commitIfComputed hv ha hw)
  have herr := errBit_commitDecode s (w, !s.status.wValid) d
  have hnerr := commitDecode_nerr s (w, !s.status.wValid) d
  have hframe := commitDecode_cacheRight s w d
  -- from here on the committed state is known by these facts alone
  generalize s.commitDecode (w, !s.status.wValid) d = u at *
  have hbits (i : Nat) : u.errBit i = decide (i ∈ d.errors) := by rw [herr, herrors, errBit_setErrors_filter hn1023]
  have hcountErrors : u.nerr.toNat = ((List.range s.len).filter u.errBit).length := by
    rw [herr, hnerr, ← setErrors_nerr s, herrors, nerr_setErrors_filter hn1023, filter_errBit_setErrors hn1023]
  rw [← rfn_congr s.cfg.field r s.dim fun i _ => hbits i] at hrec
  rw [hsyn] at hS hbm
  refine ⟨finish u, w, d.synth, d.recovery.1, d.recovery.2, hexec, hw, hW, hS, hbm, hlam, haux, hL, hM, hB, fun i => ?_,
    hcountErrors, hrec, hdec, hbytes, ?_⟩
  · refine Iff.trans (Bool.eq_iff_iff.mp (hbits i)) ?_
    rw [herrors]
    simp
  · rw [hframe]
    rfl

end Sys2Proof.Proofs
end

section
/-! DECODE as a whole: the stages in turn (R231), all-zero syndromes (R233), INSUF (R219), and the round trips (R152,
R235). -/

namespace Sys2Proof.Proofs

open Sys2Proof Sys2Proof.Machine Polynomial

/-! The stages in turn (R231). -/

/-- Acceptance does not touch what the weights' commit reads or writes. -/
theorem commitIfComputed_accept (v : Word) (s : State) (wc : List Nat × Bool) :
    (accept v s).commitIfComputed wc = accept v (s.commitIfComputed wc) := by
  obtain ⟨w, computed⟩ := wc
  cases computed <;> rfl

section Stages

variable {u : State} {d : DecodeResult} {points r : List Nat} (hv : u.cfg.Valid) (hg : u.GeometryOk)
  (hform : DecodeForm u.cfg.field (u.len - u.dim) u.dim d)
include hv hg hform

/-- A range that is not a stage's output stays readable through SYNDROME's and BMSYN's commits. -/
theorem operand_stage_other {b : Buf} {vs : List Nat} (hs : b ≠ .s) (hlam : b ≠ .lambda) (haux : b ≠ .bpoly)
    (h : u.Operand b u.len vs) : ((u.setElems .s d.syn).commitSynth d.synth).Operand b u.len vs := by
  obtain ⟨hk, -, -, hn⟩ := geometry_bounds hv hg
  refine operand_of_elem_eq h rfl fun j hj => ?_
  rw [elem_commitSynth_other _ (by rw [hform.synth.lam_length]; omega) (by rw [hform.synth.aux_length]; omega) hlam haux
    (by omega), elem_setElems_other u _ hs (by omega) (by rw [hform.syn_length]; omega)]

/-- BMSYN reads the syndromes that SYNDROME has committed. -/
theorem exec_bmsyn_stage (hbm : u.cfg.field.bm d.syn = some d.synth) (v v' : Word) :
    exec .bmsyn (accept v' (finish ((accept v u).setElems .s d.syn))) =
      .next (finish ((accept v' (finish ((accept v u).setElems .s d.syn))).commitSynth d.synth)) := by
  have hS : (u.setElems .s d.syn).Operand .s (u.len - u.dim) d.syn :=
    operand_setElems_same hv hform.syn_length hform.syn_lt
  exact exec_of_runOf_ok (i := .bmsyn)
    (runBmsyn_ok (s := accept v' (finish ((accept v u).setElems .s d.syn))) hv.size_le hg hS hbm)

/-- ROOTS reads the locator that BMSYN has committed. -/
theorem exec_roots_stage {s2 : State} (hcfg : s2.cfg = u.cfg) (hn : s2.n = u.n) (hk : s2.k = u.k)
    (hmem : s2.mem = ((u.setElems .s d.syn).commitSynth d.synth).mem) (ha : u.Operand .alpha u.len points)
    (herrors : d.errors = u.cfg.field.errorPositions u.cfg.nmax u.len points d.synth.lam) :
    exec .roots s2 = .next (finish (s2.setErrors d.errors)) := by
  obtain ⟨hk1, -, -, hn1023⟩ := geometry_bounds hv hg
  have hlen : s2.len = u.len := congrArg BitVec.toNat hn
  have hdim : s2.dim = u.dim := congrArg BitVec.toNat hk
  have hlam : s2.Operand .lambda (s2.len - s2.dim + 1) d.synth.lam := by
    rw [hlen, hdim, operand_congr hmem hcfg]
    exact operand_lambda_commitSynth (s := u.setElems .s d.syn) hv hform.synth (by omega)
  have ha2 : s2.Operand .alpha s2.len points := by
    rw [hlen, operand_congr hmem hcfg]
    exact operand_stage_other hv hg hform (by decide) (by decide) (by decide) ha
  have hg2 : s2.GeometryOk := by
    rw [State.GeometryOk, hlen, hdim, hcfg]
    exact hg
  rw [herrors, ← hcfg, ← hlen]
  exact exec_of_runOf_ok (i := .roots) (runRoots_ok (hcfg ▸ hv.size_le) hg2 ha2 hlam)

/-- RECOVER reads the error positions that ROOTS has committed. -/
theorem exec_recover_stage {s3 : State} (hcfg : s3.cfg = u.cfg) (hn : s3.n = u.n) (hk : s3.k = u.k)
    (hmem : s3.mem = ((u.setElems .s d.syn).commitSynth d.synth).mem) (herr : s3.errmap = bitmapOf d.errors)
    (ha : u.Operand .alpha u.len points) (hcw : u.Operand .cw u.len r)
    (hrec : u.cfg.field.rfn (fun i => decide (i ∈ d.errors)) points r u.dim = some d.recovery) :
    exec .recover s3 = .next (finish (s3.commitRecovery d.recovery)) := by
  obtain ⟨-, -, -, hn1023⟩ := geometry_bounds hv hg
  have ⟨hplen, _, _⟩ := ha
  have hlen : s3.len = u.len := congrArg BitVec.toNat hn
  have hdim : s3.dim = u.dim := congrArg BitVec.toNat hk
  have ha3 : s3.Operand .alpha s3.len points := by
    rw [hlen, operand_congr hmem hcfg]
    exact operand_stage_other hv hg hform (by decide) (by decide) (by decide) ha
  have hcw3 : s3.Operand .cw s3.len r := by
    rw [hlen, operand_congr hmem hcfg]
    exact operand_stage_other hv hg hform (by decide) (by decide) (by decide) hcw
  have hg3 : s3.GeometryOk := by
    rw [State.GeometryOk, hlen, hdim, hcfg]
    exact hg
  have hmarks : s3.cfg.field.rfn s3.errBit points r s3.dim = some d.recovery := by
    rw [hcfg, hdim, ← hrec]
    refine rfn_congr _ r _ fun i hi => ?_
    rw [State.errBit, herr, getLsbD_bitmapOf _ (by omega)]
  exact exec_of_runOf_ok (i := .recover) (runRecover_ok (hcfg ▸ hv.size_le) hg3 ha3 hcw3 hmarks)

end Stages

/-- Settles O46: each stage reads what the stages before it committed, and commits what DECODE commits for it. -/
theorem decodeIsTheStagesInTurn : Obligations.DecodeIsTheStagesInTurn := by
  intro s r points hv hg hcw ha hn hcache
  have ⟨hlen, _, hp⟩ := ha
  have ⟨_, _, hr⟩ := hcw
  obtain ⟨hk, hkn, hnn, hn1023⟩ := geometry_bounds hv hg
  obtain ⟨w, hw⟩ := hv.1.wfn_of_nodup hp hn
  obtain ⟨-, hwlen, hwlt⟩ := hv.1.wfn_spec hp hw
  obtain ⟨d, hd⟩ := exists_decodeStages hv hn hp hr hwlt s.dim
  have hform := decodeForm_of_decodeStages hv hp hr hd hwlt
  obtain ⟨hsyn, hbm, herrors, hrec⟩ := decodeStages_eq_ok hd
  rw [hlen] at hform hsyn herrors
  have huse (v : Word) : (accept v s).weightsForUse points = .ok (w, !s.status.wValid) :=
    weightsForUse_of_cacheRight (s := accept v s) hv ha hw hcache
  have hdecode := exec_of_runOf_ok (i := .decode)
    (runDecode_ok (s := accept (encode .decode) s) hv.size_le hg hcw ha (huse _) hd)
  have hsyndrome : exec .syndrome (accept (encode .syndrome) s) = .next (finish
      (((accept (encode .syndrome) s).commitIfComputed (w, !s.status.wValid)).setElems .s d.syn)) := by
    rw [hsyn]
    exact exec_of_runOf_ok (i := .syndrome)
      (runSyndrome_ok (s := accept (encode .syndrome) s) hv.size_le hg hcw ha (huse _))
  rw [commitIfComputed_accept] at hsyndrome
  rw [State.commitDecode, commitIfComputed_accept] at hdecode
  -- what the weights' commit leaves alone
  have hcfg := commitIfComputed_cfg s (w, !s.status.wValid)
  have hnlen := commitIfComputed_n s (w, !s.status.wValid)
  have hkdim := commitIfComputed_k s (w, !s.status.wValid)
  have hkeep {b : Buf} {vs : List Nat} (hb : b ≠ .w) (h : s.Operand b s.len vs) :
      (s.commitIfComputed (w, !s.status.wValid)).Operand b s.len vs :=
    operand_of_elem_eq h hcfg fun j hj => elem_commitIfComputed_other s (by simp only; omega) hb (by omega)
  have ha0 := hkeep (by decide) ha
  have hcw0 := hkeep (by decide) hcw
  generalize s.commitIfComputed (w, !s.status.wValid) = u at *
  have hlenu : u.len = s.len := congrArg BitVec.toNat hnlen
  have hdimu : u.dim = s.dim := congrArg BitVec.toNat hkdim
  have hgu : u.GeometryOk := by
    rw [State.GeometryOk, hlenu, hdimu, hcfg]
    exact hg
  rw [← hcfg] at hv hbm
  rw [← hcfg, ← hlenu, ← hdimu] at hform
  rw [← hlenu] at ha0 hcw0
  rw [← hcfg, ← hlenu] at herrors
  rw [← hcfg, ← hdimu] at hrec
  refine ⟨_, _, _, _, hsyndrome, exec_bmsyn_stage hv hgu hform hbm _ _,
    exec_roots_stage hv hgu hform rfl rfl rfl rfl ha0 herrors,
    exec_recover_stage hv hgu hform rfl rfl rfl rfl rfl ha0 hcw0 hrec, ?_⟩
  rw [hdecode]
  rfl

end Sys2Proof.Proofs
end

section
/-! DECODE's results: all-zero syndromes (R233), INSUF (R219), and the round trips (R152, R235). -/

namespace Sys2Proof.Proofs

open Sys2Proof Sys2Proof.Machine Polynomial

/-! Berlekamp-Massey on zeros (R233). -/

/-- A sum of zeros is 0. -/
theorem fsum_eq_zero {F : FieldDesc} (hv : F.Valid) {xs : List Nat} (h : ∀ v ∈ xs, v = 0) : F.fsum xs = 0 := by
  have hlt : ∀ v ∈ xs, v < F.size := fun v hvm => (h v hvm).symm ▸ hv.zero_lt
  obtain ⟨K, _, φ, hc⟩ := hv.exists_codes
  refine hc.inj _ (hv.fsum_lt hlt) _ hv.zero_lt ?_
  rw [hc.fsum hv hlt, hc.zero]
  exact List.sum_eq_zero (List.forall_mem_map.mpr fun v hvm => by rw [h v hvm, hc.zero])

theorem getD_zeros (n i : Nat) : (List.replicate n 0).getD i 0 = 0 := by
  rw [List.getD_eq_getElem?_getD, List.getElem?_getD_replicate_default_eq]

/-- A sequence of zeros has no discrepancy. -/
theorem discrepancy_zeros {F : FieldDesc} (hv : F.Valid) (n r : Nat) {lam : List Nat} (hl : ∀ v ∈ lam, v < F.size) :
    F.discrepancy (List.replicate n 0) lam r = 0 := by
  rw [discrepancy_eq hv (zeros_lt hv n) hl, fsum_eq_zero hv, getD_zeros, hv.isField.add_zero 0 hv.zero_lt]
  refine List.forall_mem_map.mpr fun j _ => ?_
  rw [getD_zeros, fmul_zero hv (hv.getD_lt hl _)]

/-- On zeros every step only advances the shift. -/
theorem synthRun_zeros {F : FieldDesc} (hv : F.Valid) (n count r : Nat) :
    F.synthRun (List.replicate n 0) count r = some { synthInit count with shift := r + 1 } := by
  induction r with
  | zero => rfl
  | succ r ih =>
    rw [FieldDesc.synthRun, ih, Option.bind_some]
    exact synthStep_of_zero F (discrepancy_zeros hv n r (one_zeros_lt hv count))

theorem bm_zeros {F : FieldDesc} (hv : F.Valid) (n : Nat) :
    F.bm (List.replicate n 0) = some { synthInit n with shift := n + 1 } := by
  rw [FieldDesc.bm, List.length_replicate]
  exact synthRun_zeros hv n n n

/-! How many positions a recovery has to choose from. -/

/-- Every position is marked or valid. -/
theorem length_marked_add_valid (marked : Nat → Bool) (n : Nat) :
    ((List.range n).filter marked).length + (validPositions marked n).length = n := by
  have hsplit := List.length_eq_length_filter_add (l := List.range n) marked
  rw [List.length_range] at hsplit
  exact hsplit.symm

/-- No more than `n - k` marks leave `k` valid positions. -/
theorem le_length_validPositions {marked : Nat → Bool} {n k : Nat} (hk : k ≤ n)
    (h : ((List.range n).filter marked).length ≤ n - k) : k ≤ (validPositions marked n).length := by
  have hsum := length_marked_add_valid marked n
  omega

/-- ERRMAP's bits, when they say which points pass the root test, are the error positions. -/
theorem filter_errBit_eq {F : FieldDesc} {s : State} {nmax n : Nat} {points lam : List Nat} (hn : n ≤ nmax)
    (h : ∀ i, s.errBit i = true ↔ i < n ∧ F.isError lam (points.getD i 0) = true) :
    (List.range n).filter s.errBit = F.errorPositions nmax n points lam := by
  rw [errorPositions_eq F hn]
  refine List.filter_congr fun i hi => Bool.eq_iff_iff.mpr ?_
  rw [h i]
  exact and_iff_right (List.mem_range.mp hi)

/-- A locator of Berlekamp-Massey leaves enough valid positions, when the points are distinct (R219). -/
theorem sufficient_of_bounds {F : FieldDesc} (hv : F.Valid) {s : State} {nmax k : Nat} {points : List Nat}
    {st : SynthState} (hn : points.Nodup) (hp : ∀ v ∈ points, v < F.size) (hnmax : points.length ≤ nmax)
    (hk : k ≤ points.length) (hb : SynthBounds F (points.length - k) (points.length - k) st)
    (h : ∀ i, s.errBit i = true ↔ i < points.length ∧ F.isError st.lam (points.getD i 0) = true) :
    k ≤ (validPositions s.errBit points.length).length := by
  refine le_length_validPositions hk ?_
  rw [filter_errBit_eq hnmax h]
  exact (hb.length_errorPositions_le hv hn hp nmax).trans hb.len_le

/-! All-zero syndromes. -/

theorem sfn_eq_zeros {F : FieldDesc} {r points w : List Nat} {count : Nat}
    (h : ∀ j, j < count → F.syndromeAt r points w j = 0) : F.sfn r points w count = List.replicate count 0 :=
  List.eq_replicate_iff.mpr ⟨length_sfn .., List.forall_mem_map.mpr fun j hj => h j (List.mem_range.mp hj)⟩

/-- With no mark the first `k` positions are chosen. -/
theorem take_validPositions_of_unmarked {marked : Nat → Bool} {n k : Nat} (hk : k ≤ n)
    (h : ∀ i, i < n → marked i = false) : (validPositions marked n).take k = List.range k := by
  have hall : validPositions marked n = List.range n :=
    List.filter_eq_self.mpr fun i hi => by rw [h i (List.mem_range.mp hi)]; rfl
  rw [hall, List.take_range, Nat.min_eq_left hk]

theorem map_getD_range {xs : List Nat} {k : Nat} (hk : k ≤ xs.length) :
    ((List.range k).map fun i => xs.getD i 0) = xs.take k := by
  refine List.ext_getElem (by simp [hk]) fun i hi _ => ?_
  have hik : i < k := by simpa using hi
  rw [List.getElem_map, List.getElem_range, List.getElem_take, List.getD_eq_getElem _ _ (by omega)]

/-- Settles O47: Berlekamp-Massey on zeros keeps its starting locator, which marks no position since L = 0. -/
theorem allZeroSyndromesDecode : Obligations.AllZeroSyndromesDecode := by
  intro s r points w hv hg hcw ha hn hcache hw hzero
  have ⟨hlen, _, hp⟩ := ha
  have ⟨hrlen, _, _⟩ := hcw
  obtain ⟨hk, hkn, hnn, -⟩ := geometry_bounds hv hg
  obtain ⟨t, w', st, dec, insuf, hexec, hw', -, -, hbm, hlam, haux, hL, hM, hB, hbits, hnerr, hrec, hdec, -, hframe⟩ :=
    decodeCompletes s r points hv hg hcw ha hn hcache
  obtain rfl : w = w' := by simpa [hw] using hw'
  rw [sfn_eq_zeros hzero] at hbm
  have hroots := (bounds_of_bm_eq_some hv.1 (zeros_lt hv.1 _) hbm).length_errorPositions_le hv.1 hn hp s.cfg.nmax
  rw [hlen, ← filter_errBit_eq hnn hbits] at hroots
  rw [bm_zeros hv.1, Option.some.injEq] at hbm
  subst hbm
  have hmarked : (List.range s.len).filter t.errBit = [] := List.eq_nil_of_length_eq_zero (Nat.le_zero.mp hroots)
  have hclear (i : Nat) : t.errBit i = false := by
    by_contra hset
    have hi := ((hbits i).mp (by simpa using hset)).1
    exact List.filter_eq_nil_iff.mp hmarked i (List.mem_range.mpr hi) (by simpa using hset)
  have hvalid : s.dim ≤ (validPositions t.errBit points.length).length :=
    le_length_validPositions (by omega) (by rw [hlen, hmarked]; exact Nat.zero_le _)
  obtain rfl : insuf = false := rfn_insuf_eq_false hvalid hrec
  rw [rfn_of_sufficient _ _ hvalid, take_validPositions_of_unmarked (by omega) fun i _ => hclear i,
    map_getD_range (by omega), map_getD_range (by omega)] at hrec
  have hinterp : s.cfg.field.interpolate (points.take s.dim) (r.take s.dim) = some dec := by simpa using hrec
  have hstatus : t.status = s.status.committed true false := by rw [hframe]
  rw [hmarked] at hnerr
  refine ⟨t, dec, hexec, hlam.2.1, haux.2.1, BitVec.eq_of_toNat_eq hL, hM, BitVec.eq_of_toNat_eq hB,
    BitVec.eq_of_getLsbD_eq fun i _ => ?_, BitVec.eq_of_toNat_eq hnerr, hinterp, hdec, hstatus⟩
  exact (hclear i).trans BitVec.getLsbD_zero.symm

/-! INSUF. -/

/-- A command that ends with ERR = NONE and is not NOP had a valid geometry. -/
theorem geometry_of_err_eq_zero {i : Instr} {s t : State} (hi : i ≠ .nop) (h : exec i s = .next t)
    (herr : t.status.err = 0) : s.GeometryOk := by
  by_contra hg
  rw [exec_of_not_geometry hi hg, Host.Outcome.next.injEq] at h
  rw [← h] at herr
  exact absurd herr (show ¬ (2 : BitVec 4) = 0 by decide)

/-- Settles O48: a locator marks no more positions than its degree, which is at most N - K. -/
theorem insufficientNeverWithDistinctPoints : Obligations.InsufficientNeverWithDistinctPoints := by
  intro s t r points hv hcw ha hn hcache
  have ⟨hlen, _, hp⟩ := ha
  refine ⟨fun hexec herr => ?_, fun lam u hl hne hroots herr hexec => ?_⟩
  · have hg := geometry_of_err_eq_zero (by decide) hexec herr
    obtain ⟨-, hkn, hnn, -⟩ := geometry_bounds hv hg
    obtain ⟨t', w, st, dec, insuf, hexec', hw, -, -, hbm, -, -, -, -, -, hbits, -, hrec, -, -, hframe⟩ :=
      decodeCompletes s r points hv hg hcw ha hn hcache
    obtain rfl : t = t' := by simpa [hexec] using hexec'
    obtain ⟨-, -, hwlt⟩ := hv.1.wfn_spec hp hw
    have hbounds := bounds_of_bm_eq_some hv.1 (sfn_lt hv.1 hcw.2.2 hp hwlt _) hbm
    rw [length_sfn, ← hlen] at hbounds
    have hvalid := sufficient_of_bounds hv.1 hn hp (hlen ▸ hnn) (hlen ▸ hkn) hbounds (hlen ▸ hbits)
    obtain rfl : insuf = false := rfn_insuf_eq_false hvalid hrec
    rw [hframe]
    rfl
  · have hg := geometry_of_err_eq_zero (by decide) hroots herr
    obtain ⟨-, hkn, hnn, -⟩ := geometry_bounds hv hg
    obtain ⟨u', hroots', hbits, -, hframe⟩ := rootsCompletes s points lam hv hg ha hl
    obtain rfl : u = u' := by simpa [hroots] using hroots'
    obtain ⟨hllen, -, hllt⟩ := hl
    obtain ⟨v, hvm, hv0⟩ := hne
    obtain ⟨i, hi, rfl⟩ := List.getElem_of_mem hvm
    have hmarked : ((List.range s.len).filter u.errBit).length ≤ s.len - s.dim := by
      rw [filter_errBit_eq (F := s.cfg.field) (lam := lam) hnn fun i => by rw [hbits i, isError_iff], ← hlen]
      refine length_errorPositions_le_degree hv.1 hn hp hllt (i := i) ?_ (fun m hm => ?_) _
      · rwa [List.getD_eq_getElem _ _ hi]
      · exact List.getD_eq_default _ _ (by omega)
    have hvalid := le_length_validPositions hkn hmarked
    have hulen : (accept (encode .recover) u).len = s.len := by rw [hframe]; rfl
    have hudim : (accept (encode .recover) u).dim = s.dim := by rw [hframe]; rfl
    rcases exec_eq_next hexec with ⟨x, hrun, rfl⟩ | ⟨e, -, rfl⟩
    · obtain ⟨-, points', r', res, ⟨hlen', -, -⟩, -, hrec, rfl⟩ := runRecover_eq_ok hrun
      rw [hudim] at hrec
      rw [hulen] at hlen'
      exact rfn_insuf_eq_false (hlen' ▸ hvalid) hrec
    · rfl

/-! The round trips. -/

/-- Settles O49: the received word is a codeword, so the syndromes vanish, and the first K points give the message back. -/
theorem encodeThenDecodeIsTheMessage : Obligations.EncodeThenDecodeIsTheMessage := by
  intro s msg points hv hg hmsg ha hn _ hcache
  have ⟨hlen, _, hp⟩ := ha
  have ⟨hmlen, _, hm⟩ := hmsg
  obtain ⟨hk, hkn, -, hn1023⟩ := geometry_bounds hv hg
  obtain ⟨w, hw⟩ := hv.1.wfn_of_nodup hp hn
  obtain ⟨-, hwlen, -⟩ := hv.1.wfn_spec hp hw
  have hcwlt := map_peval_lt hv.1 hm hp
  have hcwlen : (points.map fun a => s.cfg.field.peval msg a).length = s.len := by rw [List.length_map, hlen]
  -- the state after ENCODE, with the next command accepted
  obtain ⟨u, hu⟩ : ∃ u, u = accept (encode .decode) (finish (s.setElems .cw (encodeMessage s.cfg.field msg points))) :=
    ⟨_, rfl⟩
  have hmem : u.mem = (s.setElems .cw (encodeMessage s.cfg.field msg points)).mem := by rw [hu]; rfl
  have hcfg : u.cfg = s.cfg := by rw [hu]; rfl
  have hulen : u.len = s.len := by rw [hu]; rfl
  have hudim : u.dim = s.dim := by rw [hu]; rfl
  have hwv : u.status.wValid = s.status.wValid := by rw [hu]; rfl
  have hgu : u.GeometryOk := by
    rw [State.GeometryOk, hulen, hudim, hcfg]
    exact hg
  have hcwu : u.Operand .cw u.len (points.map fun a => s.cfg.field.peval msg a) := by
    rw [hulen, operand_congr hmem hcfg]
    exact operand_setElems_same hv hcwlen hcwlt
  have hau : u.Operand .alpha u.len points := by
    rw [hulen, operand_congr hmem hcfg]
    exact operand_of_elem_eq ha rfl fun j hj =>
      elem_setElems_other s _ (by decide) (by omega) (hcwlen.trans_le (by omega))
  have hcacheu : u.CacheRight points := by
    intro hvalid
    obtain ⟨w', hw', hcodes⟩ := hcache (hwv ▸ hvalid)
    refine ⟨w', hcfg ▸ hw', (codes_congr hmem).mpr ?_⟩
    obtain ⟨-, hwlen', -⟩ := hv.1.wfn_spec hp hw'
    exact codes_setElems_other hcodes (by decide) (by omega) (hcwlen.trans_le (by omega))
  obtain ⟨t, dec, hexec, -, -, -, -, -, herrmap, hnerr, hinterp, hdec, hstatus⟩ :=
    allZeroSyndromesDecode u _ points w (hcfg ▸ hv) hgu hcwu hau hn hcacheu (hcfg ▸ hw) fun j hj => by
      rw [hcfg]
      exact syndromeAt_codeword hv.1 hp hw hm (by rw [hlen, hmlen, ← hulen, ← hudim]; exact hj)
  have hmsgdec : dec = msg := by
    have htake := interpolate_map_peval hv.1 (hn.sublist (List.take_sublist s.dim _))
      (fun v hvm => hp v (List.mem_of_mem_take hvm)) (p := msg) (by rw [List.length_take]; omega) hm
    rw [hcfg, hudim, ← List.map_take, htake] at hinterp
    exact (Option.some.inj hinterp).symm
  refine ⟨_, t, exec_of_runOf_ok (i := .encode) (runEncode_ok hv.size_le hg hmsg ha), hu ▸ hexec, ?_, fun i => ?_,
    hnerr, ?_, ?_⟩
  · rw [← hmsgdec, ← hudim]
    exact hdec
  · rw [State.errBit, herrmap]
    exact BitVec.getLsbD_zero
  · rw [hstatus]
    rfl
  · rw [hstatus]
    rfl

end Sys2Proof.Proofs
end

section
/-! DECODE corrects up to T errors (R235): the received word is the message's codeword plus an error vector,
Berlekamp-Massey finds the locator of the errors (R189), and the root search marks exactly their positions. -/

namespace Sys2Proof.Proofs

open Sys2Proof Sys2Proof.Machine Polynomial

/-- The locator of a set vanishes at the inverse of a node exactly when the node belongs to the set. -/
theorem eval_inv_locator_eq_zero_iff {K : Type} [Field K] {E S : Finset Nat} {x : Nat → K} (hES : E ⊆ S)
    (hx : Set.InjOn x S) {i : Nat} (hi : i ∈ S) (h0 : x i ≠ 0) : (locator E x).eval (x i)⁻¹ = 0 ↔ i ∈ E := by
  constructor
  · intro heval
    rw [locator, eval_prod, Finset.prod_eq_zero_iff] at heval
    obtain ⟨j, hj, hzero⟩ := heval
    have hji : x j = x i := by
      rw [eval_sub, eval_one, eval_mul, eval_C, eval_X, sub_eq_zero, eq_comm, ← div_eq_mul_inv,
        div_eq_one_iff_eq h0] at hzero
      exact hzero
    exact hx (hES hj) hi hji ▸ hj
  · exact fun hiE => eval_inv_locator hiE h0

/-- The root search on the list that Berlekamp-Massey finds marks exactly the error positions, when no point is 0. -/
theorem isError_errorLocator_iff {F : FieldDesc} (hv : F.Valid) {points : List Nat} (hn : points.Nodup)
    (hp : ∀ v ∈ points, v < F.size) (h0 : ∀ v ∈ points, v ≠ 0) {e : List Nat} {m i : Nat} (hi : i < points.length) :
    F.isError (timesFactors F points (errorIndices e points.length) [1] ++ List.replicate m 0) (points.getD i 0) = true ↔
      e.getD i 0 ≠ 0 := by
  obtain ⟨K, _, φ, hc⟩ := hv.exists_codes
  have hone : ∀ v ∈ [1], v < F.size := by simpa using hv.one_lt
  have hpi : points.getD i 0 ≠ 0 := by
    rw [List.getD_eq_getElem _ _ hi]
    exact h0 _ (List.getElem_mem hi)
  have hxi : nodesOf φ points i ≠ 0 := mt (hc.eq_zero_iff hv (hv.getD_lt hp i)).mp hpi
  rw [isError_iff_root hv (append_zeros_lt hv (timesFactors_lt hv hp _ _ hone) m) hc (hv.getD_lt hp i),
    polyOf_errorLocator hv hc hp]
  refine (and_iff_right hpi).trans ((eval_inv_locator_eq_zero_iff (S := Finset.range points.length)
    (Finset.filter_subset _ _) (injOn_nodesOf hv hc hp hn) (Finset.mem_range.mpr hi) hxi).trans ?_)
  exact mem_errorFinset.trans (and_iff_right hi)

/-! The received word as a codeword and an error vector. -/

/-- What must be added to the codeword of `msg` to get the word `r`. -/
def errorVector (F : FieldDesc) (msg points r : List Nat) : List Nat :=
  F.psub r (points.map fun a => F.peval msg a)

section Received

variable {F : FieldDesc} (hv : F.Valid) {msg points r : List Nat} (hm : ∀ v ∈ msg, v < F.size)
  (hp : ∀ v ∈ points, v < F.size) (hr : ∀ v ∈ r, v < F.size) (hlen : r.length = points.length)

include hv hm hp hr in
theorem errorVector_lt : ∀ v ∈ errorVector F msg points r, v < F.size :=
  hv.psub_lt hr (map_peval_lt hv hm hp)

include hlen in
theorem length_errorVector : (errorVector F msg points r).length = points.length := by
  rw [errorVector, FieldDesc.length_psub, List.length_map, hlen, Nat.max_self]

include hlen in
theorem getD_errorVector {i : Nat} (hi : i < points.length) :
    (errorVector F msg points r).getD i 0 = F.fsub (r.getD i 0) (F.peval msg (points.getD i 0)) := by
  have hval : (points.map fun a => F.peval msg a).getD i 0 = F.peval msg (points.getD i 0) := by
    rw [List.getD_eq_getElem _ _ (by simpa using hi), List.getElem_map, List.getD_eq_getElem _ _ hi]
  rw [errorVector, FieldDesc.psub, getD_map_range, if_pos (by simpa [hlen] using hi), hval]

include hv hm hp hr hlen

/-- The error vector is 0 where the word has the message polynomial's value. -/
theorem getD_errorVector_ne_zero_iff {i : Nat} (hi : i < points.length) :
    (errorVector F msg points r).getD i 0 ≠ 0 ↔ r.getD i 0 ≠ F.peval msg (points.getD i 0) := by
  have hri := hv.getD_lt hr i
  have hval := hv.peval_lt (hv.getD_lt hp i) hm
  rw [getD_errorVector hlen hi, Ne, eq_comm, ← fadd_eq_iff hv hri hval hv.zero_lt, hv.isField.add_zero _ hval, eq_comm]

/-- The positions in error are those of the error vector. -/
theorem errorIndices_errorVector :
    errorIndices (errorVector F msg points r) points.length = errorSet F msg points r :=
  List.filter_congr fun _ hi => decide_eq_decide.mpr
    (getD_errorVector_ne_zero_iff hv hm hp hr hlen (List.mem_range.mp hi))

/-- The word is the codeword plus the error vector. -/
theorem padd_errorVector : F.padd (points.map fun a => F.peval msg a) (errorVector F msg points r) = r := by
  have hcw := map_peval_lt hv hm hp
  have he := errorVector_lt hv hm hp hr
  obtain ⟨K, _, φ, hc⟩ := hv.exists_codes
  refine eq_of_polyOf_eq hc (hv.padd_lt hcw he) hr ?_ ?_
  · rw [FieldDesc.length_padd, List.length_map, length_errorVector hlen, Nat.max_self, hlen]
  · rw [polyOf_padd hv hc hcw he, errorVector, polyOf_psub hv hc hr hcw, add_sub_cancel]

end Received

/-- A recovery at positions that hold the message polynomial's values gives the message. -/
theorem rfn_eq_message {F : FieldDesc} (hv : F.Valid) {marked : Nat → Bool} {points r msg : List Nat}
    (hn : points.Nodup) (hp : ∀ v ∈ points, v < F.size) (hm : ∀ v ∈ msg, v < F.size)
    (hk : msg.length ≤ (validPositions marked points.length).length)
    (hval : ∀ i, i < points.length → marked i = false → r.getD i 0 = F.peval msg (points.getD i 0)) :
    F.rfn marked points r msg.length = some (msg, false) := by
  have hvalues : ((validPositions marked points.length).take msg.length).map (fun p => r.getD p 0) =
      (((validPositions marked points.length).take msg.length).map fun p => points.getD p 0).map
        fun x => F.peval msg x := by
    rw [List.map_map]
    refine List.map_congr_left fun p hpm => ?_
    have hmem := List.mem_of_mem_take hpm
    simp only [validPositions, List.mem_filter, List.mem_range, Bool.not_eq_true'] at hmem
    exact hval p hmem.1 hmem.2
  rw [rfn_of_sufficient F r hk, hvalues, interpolate_map_peval hv (nodup_chosen hn marked _)
    (List.forall_mem_map.mpr fun p _ => hv.getD_lt hp p) (by simp [hk]) hm, Option.map_some]

/-- Settles O50: DECODE always completes (R232); with at most T errors its locator is theirs, so that exactly their
positions are marked and the message is interpolated at K of the others. -/
theorem decodeCorrectsUpToT : Obligations.DecodeCorrectsUpToT := by
  intro s msg points r hv hg ha hn h0 hcw hcache hmlen hm
  have ⟨hlen, _, hp⟩ := ha
  have ⟨hrlen, _, hr⟩ := hcw
  obtain ⟨hk, hkn, hnn, -⟩ := geometry_bounds hv hg
  obtain ⟨t, w, st, dec, insuf, hexec, hw, -, -, hbm, -, -, hL, -, -, hbits, hnerr, hrec, hdec, -, hframe⟩ :=
    decodeCompletes s r points hv hg hcw ha hn hcache
  refine ⟨t, hexec, by rw [hframe]; rfl, fun hradius => ?_⟩
  obtain ⟨-, -, hwlt⟩ := hv.1.wfn_spec hp hw
  have hrp : r.length = points.length := hrlen.trans hlen.symm
  have he := errorVector_lt hv.1 hm hp hr
  have hsyn : s.cfg.field.sfn r points w (s.len - s.dim) =
      s.cfg.field.sfn (errorVector s.cfg.field msg points r) points w (s.len - s.dim) := by
    have hsum := sfn_codeword_padd hv.1 hp hw hm he
    rwa [padd_errorVector hv.1 hm hp hr hrp, hlen, hmlen] at hsum
  have hindices := errorIndices_errorVector hv.1 hm hp hr hrp
  have hcount : 2 * (errorIndices (errorVector s.cfg.field msg points r) points.length).length ≤ s.len - s.dim := by
    rw [State.radius, State.count, if_pos ⟨hk, hkn⟩] at hradius
    rw [hindices]
    omega
  have hpoint (i : Nat) (hi : (errorVector s.cfg.field msg points r).getD i 0 ≠ 0) : points.getD i 0 ≠ 0 := by
    have hilt : i < points.length := by
      by_contra hge
      exact hi (List.getD_eq_default _ _ (by rw [length_errorVector hrp]; omega))
    rw [List.getD_eq_getElem _ _ hilt]
    exact h0 _ (List.getElem_mem hilt)
  obtain ⟨st', hbm', hstlen, hstlam⟩ := bm_of_errors hv.1 hn hp hw he hpoint hcount
  rw [hsyn, hbm', Option.some.injEq] at hbm
  subst hbm
  have hmarks (i : Nat) : t.errBit i = true ↔
      i < s.len ∧ r.getD i 0 ≠ s.cfg.field.peval msg (points.getD i 0) := by
    rw [hbits i, hstlam]
    refine and_congr_right fun hi => ?_
    have hi : i < points.length := hlen ▸ hi
    rw [isError_errorLocator_iff hv.1 hn hp h0 hi, getD_errorVector_ne_zero_iff hv.1 hm hp hr hrp hi]
  have hset : (List.range s.len).filter t.errBit = errorSet s.cfg.field msg points r := by
    rw [errorSet, hlen]
    refine List.filter_congr fun i hi => Bool.eq_iff_iff.mpr ?_
    rw [hmarks i, decide_eq_true_iff]
    exact and_iff_right (List.mem_range.mp hi)
  have hbounds := bounds_of_bm_eq_some hv.1 (sfn_lt hv.1 he hp hwlt _) hbm'
  rw [length_sfn, ← hlen] at hbounds
  have hvalid := sufficient_of_bounds hv.1 hn hp (hlen ▸ hnn) (hlen ▸ hkn) hbounds (hlen ▸ hbits)
  rw [← hmlen] at hvalid hrec hdec ⊢
  rw [rfn_eq_message hv.1 hn hp hm hvalid fun i hi hclear => ?_, Option.some.injEq, Prod.mk.injEq] at hrec
  · obtain ⟨rfl, rfl⟩ := hrec
    rw [hset] at hnerr
    rw [hindices] at hstlen
    exact ⟨hdec, hmarks, hnerr, hL.trans hstlen, by rw [hframe]; rfl⟩
  · by_contra hne
    exact absurd ((hmarks i).mpr ⟨hlen ▸ hi, hne⟩) (by simp [hclear])

end Sys2Proof.Proofs
end

section
/-! How a command ends (R52, R252, R254, R256, R261): every command but NOP checks the geometry, then its operand ranges
in order, and only then computes. -/

namespace Sys2Proof.Proofs

open Sys2Proof Sys2Proof.Machine

/-! The operand checks of a command, as one sequence. -/

/-- Check the ranges one after another, collecting the codes of each (R256). -/
def readRanges (s : State) : List (Buf × Nat) → Attempt (List (List Nat))
  | [] => .ok []
  | (b, len) :: rest => (s.readCanonical b len).andThen fun vs => (readRanges s rest).andThen fun vss => .ok (vs :: vss)

/-- What a command computes once its ranges are read. -/
def afterChecks (i : Instr) (s : State) (vss : List (List Nat)) : Attempt State :=
  match i, vss with
  | .encode, [msg, points] => .ok (s.setElems .cw (encodeMessage s.cfg.field msg points))
  | .weights, [points] => (orDivisionByZero (s.cfg.field.wfn points)).andThen fun w => .ok (s.commitWeights w)
  | .syndrome, [r, points] => (s.weightsForUse points).andThen fun wc =>
      .ok ((s.commitIfComputed wc).setElems .s (s.cfg.field.sfn r points wc.1 (s.len - s.dim)))
  | .bmsyn, [syn] => (orDivisionByZero (s.cfg.field.bm syn)).andThen fun st => .ok (s.commitSynth st)
  | .roots, [points, lam] => .ok (s.setErrors (s.cfg.field.errorPositions s.cfg.nmax s.len points lam))
  | .recover, [points, r] => (orDivisionByZero (s.cfg.field.rfn s.errBit points r s.dim)).andThen fun res =>
      .ok (s.commitRecovery res)
  | .decode, [r, points] => (s.weightsForUse points).andThen fun wc =>
      (decodeStages s.cfg s.dim r points wc.1).andThen fun d => .ok (s.commitDecode wc d)
  | _, _ => .ok s

theorem andThen_assoc {α β γ : Type} (x : Attempt α) (f : α → Attempt β) (g : β → Attempt γ) :
    (x.andThen f).andThen g = x.andThen fun a => (f a).andThen g := by
  cases x <;> rfl

/-- Every rule but NOP's is the geometry check, the operand checks in order, and the rest. -/
theorem runOf_eq_checks {i : Instr} {s : State} (hi : i ≠ .nop) : runOf i s =
    s.checkGeometry.andThen fun _ => (readRanges s (operandRanges s i)).andThen (afterChecks i s) := by
  cases i with
  | nop => exact absurd rfl hi
  | encode => simp [runOf, runEncode, readRanges, operandRanges, andThen_assoc, afterChecks]
  | weights => simp [runOf, runWeights, readRanges, operandRanges, andThen_assoc, afterChecks]
  | syndrome => simp [runOf, runSyndrome, readRanges, operandRanges, andThen_assoc, afterChecks]
  | bmsyn => simp [runOf, runBmsyn, readRanges, operandRanges, andThen_assoc, afterChecks]
  | roots => simp [runOf, runRoots, readRanges, operandRanges, andThen_assoc, afterChecks]
  | recover => simp [runOf, runRecover, readRanges, operandRanges, andThen_assoc, afterChecks]
  | decode => simp [runOf, runDecode, readRanges, operandRanges, andThen_assoc, afterChecks]

/-! The three ends of the operand checks. -/

/-- Checks that succeed leave no element without a value and none that is not canonical. -/
theorem readRanges_eq_ok {s : State} : ∀ (ranges : List (Buf × Nat)) {vss : List (List Nat)},
    readRanges s ranges = .ok vss → s.AllHeld ranges ∧ ¬ s.SomeNonCanonical ranges := by
  intro ranges
  induction ranges with
  | nil => exact fun _ => ⟨nofun, fun ⟨_, hmem, _⟩ => absurd hmem List.not_mem_nil⟩
  | cons bl rest ih =>
    intro vss h
    obtain ⟨vs, hvs, h⟩ := andThen_eq_ok h
    obtain ⟨vss', hrest, -⟩ := andThen_eq_ok h
    obtain ⟨hlen, hcodes, hlt⟩ := readCanonical_eq_ok hvs
    obtain ⟨hheld, hcanon⟩ := ih hrest
    refine ⟨List.forall_mem_cons.mpr ⟨fun j hj => ⟨_, hcodes j (hlen ▸ hj)⟩, hheld⟩, ?_⟩
    rintro ⟨bl', hmem, j, hj, w, hw, hbig⟩
    rcases List.mem_cons.mp hmem with rfl | hmem
    · have hjl : j < vs.length := hlen ▸ hj
      have hcode := hlt _ (List.getElem_mem hjl)
      rw [hcodes j hjl, List.getD_eq_getElem _ _ hjl, Option.some.injEq] at hw
      rw [← hw, BitVec.toNat_ofNat] at hbig
      exact absurd hcode (Nat.not_lt.mpr (hbig.trans (Nat.mod_le _ _)))
    · exact hcanon ⟨bl', hmem, j, hj, w, hw, hbig⟩

/-- Checks raise RangeError alone, and only for an element that is not canonical. -/
theorem readRanges_eq_raised {s : State} {e : Exception} : ∀ ranges : List (Buf × Nat),
    readRanges s ranges = .raised e → e = .rangeError ∧ s.SomeNonCanonical ranges := by
  intro ranges
  induction ranges with
  | nil => exact nofun
  | cons bl rest ih =>
    intro h
    rcases andThen_eq_raised h with h | ⟨vs, -, h⟩
    · obtain ⟨he, j, w, hj, hw, hbig⟩ := readCanonical_eq_raised h
      exact ⟨he, bl, List.mem_cons_self, j, hj, w, hw, hbig⟩
    · rcases andThen_eq_raised h with h | ⟨_, -, h⟩
      · obtain ⟨he, bl', hmem, hbad⟩ := ih h
        exact ⟨he, bl', List.mem_cons_of_mem _ hmem, hbad⟩
      · cases h

/-- Checks fault only at an element of a range that holds no value. -/
theorem readRanges_eq_faulted {s : State} {f : Fault} : ∀ ranges : List (Buf × Nat),
    readRanges s ranges = .faulted f →
      ∃ b len j, (b, len) ∈ ranges ∧ j < len ∧ s.elem b j = none ∧ f = .unwrittenElement b j := by
  intro ranges
  induction ranges with
  | nil => exact nofun
  | cons bl rest ih =>
    intro h
    rcases andThen_eq_faulted h with h | ⟨vs, -, h⟩
    · obtain ⟨j, hj, hnone, hf⟩ := readCanonical_eq_faulted h
      exact ⟨bl.1, bl.2, j, List.mem_cons_self, hj, hnone, hf⟩
    · rcases andThen_eq_faulted h with h | ⟨_, -, h⟩
      · obtain ⟨b, len, j, hmem, hfault⟩ := ih h
        exact ⟨b, len, j, List.mem_cons_of_mem _ hmem, hfault⟩
      · cases h

/-- A fault of the checks shows an operand without a value. -/
theorem not_allHeld_of_readRanges_faulted {s : State} {ranges : List (Buf × Nat)} {f : Fault}
    (h : readRanges s ranges = .faulted f) : ¬ s.AllHeld ranges := by
  obtain ⟨b, len, j, hmem, hj, hnone, -⟩ := readRanges_eq_faulted ranges h
  intro hheld
  obtain ⟨w, hw⟩ := hheld _ hmem j hj
  rw [hnone] at hw
  cases hw

/-! The ends of what follows them. -/

theorem readElemsFrom_eq_faulted {s : State} {b : Buf} {f : Fault} : ∀ (len i : Nat),
    s.readElemsFrom b i len = .faulted f →
      ∃ j, j < len ∧ s.elem b (i + j) = none ∧ f = .unwrittenElement b (i + j) := by
  intro len
  induction len with
  | zero => exact fun _ h => nomatch h
  | succ len ih =>
    intro i h
    rw [State.readElemsFrom] at h
    split at h
    · next hnone =>
      cases h
      exact ⟨0, Nat.succ_pos len, hnone, rfl⟩
    · rcases andThen_eq_faulted h with h | ⟨_, -, h⟩
      · obtain ⟨j, hj, hnone, hf⟩ := ih _ h
        rw [Nat.add_assoc, Nat.add_comm 1] at hnone hf
        exact ⟨j + 1, Nat.succ_lt_succ hj, hnone, hf⟩
      · cases h

/-- The weights in use fault only when cached ones are read that hold no value (R52, R168). -/
theorem weightsForUse_eq_faulted {s : State} {points : List Nat} {f : Fault}
    (h : s.weightsForUse points = .faulted f) :
    s.status.wValid = true ∧ ∃ j, j < s.len ∧ s.elem .w j = none ∧ f = .unwrittenElement .w j := by
  unfold State.weightsForUse at h
  split at h
  · next hvalid =>
    rcases andThen_eq_faulted h with h | ⟨_, -, h⟩
    · obtain ⟨j, hj, hnone, hf⟩ := readElemsFrom_eq_faulted _ _ h
      rw [Nat.zero_add] at hnone hf
      exact ⟨hvalid, j, hj, hnone, hf⟩
    · cases h
  · rcases andThen_eq_faulted h with h | ⟨_, -, h⟩
    · exact absurd h orDivisionByZero_ne_faulted
    · cases h

theorem orDivisionByZero_andThen_ne_faulted {α β : Type} {x : Option α} {g : α → Attempt β} {f : Fault}
    (hg : ∀ a, g a ≠ .faulted f) : (orDivisionByZero x).andThen g ≠ .faulted f := by
  intro h
  rcases andThen_eq_faulted h with h | ⟨a, -, h⟩
  · exact orDivisionByZero_ne_faulted h
  · exact hg a h

theorem decodeStages_ne_faulted {c : Config} {k : Nat} {r points w : List Nat} {f : Fault} :
    decodeStages c k r points w ≠ .faulted f :=
  orDivisionByZero_andThen_ne_faulted fun _ => orDivisionByZero_andThen_ne_faulted fun _ => nofun

/-- After the operand checks a command faults only at a cached weight that holds no value. -/
theorem afterChecks_eq_faulted {i : Instr} {s : State} {vss : List (List Nat)} {f : Fault}
    (h : afterChecks i s vss = .faulted f) : (i = .syndrome ∨ i = .decode) ∧ s.status.wValid = true ∧
      ∃ j, j < s.len ∧ s.elem .w j = none ∧ f = .unwrittenElement .w j := by
  unfold afterChecks at h
  split at h
  case h_1 | h_5 | h_8 => cases h
  case h_2 | h_4 | h_6 => exact absurd h (orDivisionByZero_andThen_ne_faulted fun _ => nofun)
  case h_3 =>
    rcases andThen_eq_faulted h with h | ⟨_, -, h⟩
    · exact ⟨.inl rfl, weightsForUse_eq_faulted h⟩
    · cases h
  case h_7 =>
    rcases andThen_eq_faulted h with h | ⟨_, -, h⟩
    · exact ⟨.inr rfl, weightsForUse_eq_faulted h⟩
    · rcases andThen_eq_faulted h with h | ⟨_, -, h⟩
      · exact absurd h decodeStages_ne_faulted
      · cases h

/-- After the operand checks a command raises DivisionByZero alone. -/
theorem afterChecks_eq_raised {i : Instr} {s : State} {vss : List (List Nat)} {e : Exception}
    (h : afterChecks i s vss = .raised e) : e = .divisionByZero := by
  by_contra hd
  have hinverse {α : Type} {x : Option α} : orDivisionByZero x ≠ .raised e := orDivisionByZero_ne_raised hd
  unfold afterChecks at h
  split at h
  case h_1 | h_5 | h_8 => cases h
  case h_2 | h_4 | h_6 => exact absurd h (andThen_ne_raised hinverse fun _ => nofun)
  case h_3 => exact absurd h (andThen_ne_raised (weightsForUse_ne_raised hd) fun _ => nofun)
  case h_7 =>
    exact absurd h (andThen_ne_raised (weightsForUse_ne_raised hd) fun _ =>
      andThen_ne_raised (decodeStages_ne_raised hd) fun _ => nofun)

/-! The ends of a command. -/

/-- Past the geometry check a command is its operand checks and the rest. -/
theorem runOf_of_geometry {i : Instr} {s : State} (hi : i ≠ .nop) (hg : s.GeometryOk) :
    runOf i s = (readRanges s (operandRanges s i)).andThen (afterChecks i s) := by
  rw [runOf_eq_checks hi, checkGeometry_ok hg, andThen_ok]

/-- What a command raises, and what each exception shows of the operands (R254). -/
theorem runOf_eq_raised {i : Instr} {s : State} {e : Exception} (h : runOf i s = .raised e) :
    i ≠ .nop ∧
    ((e = .lengthMismatch ∧ ¬ s.GeometryOk) ∨
     (e = .rangeError ∧ s.GeometryOk ∧ s.SomeNonCanonical (operandRanges s i)) ∨
     (e = .divisionByZero ∧ s.GeometryOk ∧ s.AllHeld (operandRanges s i) ∧
       ¬ s.SomeNonCanonical (operandRanges s i))) := by
  have hi : i ≠ .nop := by
    rintro rfl
    cases h
  refine ⟨hi, ?_⟩
  by_cases hg : s.GeometryOk
  · rw [runOf_of_geometry hi hg] at h
    rcases andThen_eq_raised h with h | ⟨vss, hread, h⟩
    · obtain ⟨he, hbad⟩ := readRanges_eq_raised _ h
      exact .inr (.inl ⟨he, hg, hbad⟩)
    · obtain ⟨hheld, hcanon⟩ := readRanges_eq_ok _ hread
      exact .inr (.inr ⟨afterChecks_eq_raised h, hg, hheld, hcanon⟩)
  · rw [runOf_of_not_geometry hi hg] at h
    cases h
    exact .inl ⟨rfl, hg⟩

/-- NOP checks no operand, so a bad one belongs to another command. -/
theorem ne_nop_of_someNonCanonical {i : Instr} {s : State} (h : s.SomeNonCanonical (operandRanges s i)) :
    i ≠ .nop := by
  rintro rfl
  obtain ⟨_, hmem, -⟩ := h
  cases hmem

theorem ne_nop_of_not_allHeld {i : Instr} {s : State} (h : ¬ s.AllHeld (operandRanges s i)) : i ≠ .nop := by
  rintro rfl
  exact h nofun

/-- Settles O33: when all operands hold values the checks cannot fault, so they end at the first code that is not
canonical. -/
theorem nonCanonicalOperandAborts : Obligations.NonCanonicalOperandAborts := by
  intro s i hg hheld hbad
  refine exec_of_runOf_raised (e := .rangeError) ?_
  rw [runOf_of_geometry (ne_nop_of_someNonCanonical hbad) hg]
  cases hread : readRanges s (operandRanges s i) with
  | ok vss => exact absurd hbad (readRanges_eq_ok _ hread).2
  | raised e =>
    obtain ⟨rfl, -⟩ := readRanges_eq_raised _ hread
    rfl
  | faulted f => exact absurd hheld (not_allHeld_of_readRanges_faulted hread)

/-- A command faults at an operand, or at a cached weight, that holds no value (R52, R283). -/
theorem runOf_eq_faulted {i : Instr} {s : State} {f : Fault} (h : runOf i s = .faulted f) : s.GeometryOk ∧
    ∃ b len j, ((b, len) ∈ operandRanges s i ∨
        (b = .w ∧ len = s.len ∧ s.status.wValid = true ∧ (i = .syndrome ∨ i = .decode))) ∧
      j < len ∧ s.elem b j = none ∧ f = .unwrittenElement b j := by
  have hi : i ≠ .nop := by
    rintro rfl
    cases h
  by_cases hg : s.GeometryOk
  · refine ⟨hg, ?_⟩
    rw [runOf_of_geometry hi hg] at h
    rcases andThen_eq_faulted h with h | ⟨vss, -, h⟩
    · obtain ⟨b, len, j, hmem, hfault⟩ := readRanges_eq_faulted _ h
      exact ⟨b, len, j, .inl hmem, hfault⟩
    · obtain ⟨hcmd, hvalid, j, hfault⟩ := afterChecks_eq_faulted h
      exact ⟨.w, s.len, j, .inr ⟨rfl, rfl, hvalid, hcmd⟩, hfault⟩
  · rw [runOf_of_not_geometry hi hg] at h
    cases h

/-- Settles O34: a fault is the checks' or a cached weight's, and with no code out of range the checks can only fault. -/
theorem faultsExactlyOnUnwrittenOperands : Obligations.FaultsExactlyOnUnwrittenOperands := by
  intro s i
  refine ⟨fun _ => exec_ne_refused, fun f h => ?_, fun hg hheld hcanon => ?_⟩
  · rw [exec_eq_complete] at h
    exact runOf_eq_faulted (complete_eq_fault h)
  · rw [exec_eq_complete, runOf_of_geometry (ne_nop_of_not_allHeld hheld) hg]
    cases hread : readRanges s (operandRanges s i) with
    | ok vss => exact absurd (readRanges_eq_ok _ hread).1 hheld
    | raised e => exact absurd (readRanges_eq_raised _ hread).2 hcanon
    | faulted f => exact ⟨f, rfl⟩

/-- Settles O35: a commit clears ERR, so an end with an error code is an abort. -/
theorem abortChangesStatusOnly : Obligations.AbortChangesStatusOnly := by
  intro s t i h herr
  rcases exec_eq_next h with ⟨u, -, rfl⟩ | ⟨e, -, rfl⟩
  · exact absurd rfl herr
  · rfl

/-- Settles O36: a commit ends with code 0, and each exception's code shows which check raised it. -/
theorem errorPriority : Obligations.ErrorPriority := by
  intro s t i h
  have hlength : t.status.err = 2 ↔ i ≠ .nop ∧ ¬ s.GeometryOk := by
    constructor
    · intro herr
      refine ⟨?_, fun hg => err_ne_two_of_geometry hg h herr⟩
      rintro rfl
      rw [(nopCompletes s).1, Host.Outcome.next.injEq] at h
      rw [← h] at herr
      exact absurd herr (show ¬ (0 : BitVec 4) = 2 by decide)
    · rintro ⟨hi, hg⟩
      rw [exec_of_not_geometry hi hg, Host.Outcome.next.injEq] at h
      rw [← h]
      rfl
  rcases exec_eq_next h with ⟨u, -, rfl⟩ | ⟨e, hrun, rfl⟩
  · exact ⟨.inl rfl, hlength, fun h3 => absurd h3 (show ¬ (0 : BitVec 4) = 3 by decide),
      fun h4 => absurd h4 (show ¬ (0 : BitVec 4) = 4 by decide)⟩
  · obtain ⟨-, ⟨rfl, -⟩ | ⟨rfl, hrange⟩ | ⟨rfl, hdiv⟩⟩ := runOf_eq_raised hrun
    · exact ⟨.inr (.inl rfl), hlength, fun h3 => absurd h3 (show ¬ (2 : BitVec 4) = 3 by decide),
        fun h4 => absurd h4 (show ¬ (2 : BitVec 4) = 4 by decide)⟩
    · exact ⟨.inr (.inr (.inl rfl)), hlength, fun _ => hrange,
        fun h4 => absurd h4 (show ¬ (3 : BitVec 4) = 4 by decide)⟩
    · exact ⟨.inr (.inr (.inr rfl)), hlength, fun h3 => absurd h3 (show ¬ (4 : BitVec 4) = 3 by decide),
        fun _ => hdiv⟩

end Sys2Proof.Proofs
end

section
/-! What one step can do to the core's state, said once: the host's writes (R64, R66, R239), the end of a command (R240),
and reset (R280). An invariant is one predicate on the core's state, kept by each of these. -/

namespace Sys2Proof.Proofs

open Sys2Proof Sys2Proof.Machine

/-- The two states differ at most in `rst`, the host and the interleaving, none of which is the core's state (R20). -/
def SameCore (s t : State) : Prop :=
  t = { s with rst := t.rst, program := t.program, schedule := t.schedule, reads := t.reads, draws := t.draws }

section SameCore

variable {s t : State} (h : SameCore s t)
include h

theorem SameCore.cfg : t.cfg = s.cfg := by rw [h]
theorem SameCore.status : t.status = s.status := by rw [h]
theorem SameCore.n : t.n = s.n := by rw [h]
theorem SameCore.mem : t.mem = s.mem := by rw [h]
theorem SameCore.bmL : t.bmL = s.bmL := by rw [h]
theorem SameCore.bmM : t.bmM = s.bmM := by rw [h]
theorem SameCore.bmB : t.bmB = s.bmB := by rw [h]
theorem SameCore.errmap : t.errmap = s.errmap := by rw [h]
theorem SameCore.nerr : t.nerr = s.nerr := by rw [h]

end SameCore

theorem SameCore.refl (s : State) : SameCore s s := rfl

/-- A write of the host to the core: dropped, or one of R64. -/
inductive HostEffect : State → State → Prop
  | overrun (s : State) (hb : s.status.busy = true) :
      HostEffect s { s with status := { s.status with wovr := true } }
  | accept (s : State) (v : Word) (hb : s.status.busy = false) : HostEffect s (accept v s)
  | writeN (s : State) (v : BitVec 16) : HostEffect s (State.clearWValid { s with n := v })
  | writeK (s : State) (v : BitVec 16) : HostEffect s { s with k := v }
  | writeAlpha (s : State) (i v : Nat) (hi : i < s.cfg.nmax) : HostEffect s (s.setElem .alpha i v).clearWValid
  | writeBuf (s : State) (b : Buf) (i v : Nat) (hb : b ≠ .alpha) (hw : b.hostWritable = true) (hi : i < s.cfg.nmax) :
      HostEffect s (s.setElem b i v)

/-- The end of a command in progress: a commit or an abort (R240, R252). -/
inductive CoreEffect : State → State → Prop
  | commit {s u : State} {i : Instr} (hb : s.status.busy = true) (hrun : runOf i s = .ok u) : CoreEffect s (finish u)
  | abort (s : State) (e : Exception) (hb : s.status.busy = true) : CoreEffect s (abort e s)

/-- A MemWrite does nothing or one of the listed effects. -/
theorem memWrite_effect (s : State) (wa : BitVec 14) (v : Word) :
    s.memWrite wa v = s ∨ HostEffect s (s.memWrite wa v) := by
  cases hb : s.status.busy with
  | true =>
    rw [memWrite_busy hb]
    exact .inr (.overrun s hb)
  | false =>
    rw [memWrite_idle hb]
    rcases idleWrite_cases s (target s.cfg.nmax wa) v with
      ⟨-, h⟩ | ⟨-, h⟩ | ⟨-, h⟩ | ⟨i, ht, h⟩ | ⟨b, i, ht, hne, hw, h⟩ | h
    · rw [h]
      exact .inr (.accept s v hb)
    · rw [h]
      exact .inr (.writeN s _)
    · rw [h]
      exact .inr (.writeK s _)
    · rw [h]
      exact .inr (.writeAlpha s i _ (target_elem_lt ht))
    · rw [h]
      exact .inr (.writeBuf s b i _ hne hw (target_elem_lt ht))
    · exact .inl h

/-- A move of the host leaves the core's state, or is one of its writes. -/
theorem hostTurn_effect {s t : State} (h : hostTurn s = .next t) :
    ∃ s', SameCore s s' ∧ (t = s' ∨ HostEffect s' t) := by
  rcases hostTurn_cases h with rfl | ⟨-, wa, ht⟩ | ⟨-, rest, wa, v, -, rfl⟩
  · exact ⟨t, .refl t, .inl rfl⟩
  · refine ⟨t, ?_, .inl rfl⟩
    rw [ht, memRead_eq]
    rfl
  · exact ⟨{ s with program := rest }, rfl, memWrite_effect _ wa v⟩

/-- The core's step ends the command in progress. -/
theorem coreStep_effect {s t : State} (hb : s.status.busy = true) (h : coreStep s = .next t) : CoreEffect s t := by
  rcases coreStep_cases s with ⟨i, -, hi⟩ | ⟨_, -, he⟩
  · rw [hi] at h
    rcases exec_eq_next h with ⟨u, hrun, rfl⟩ | ⟨e, -, rfl⟩
    · exact .commit hb hrun
    · exact .abort s e hb
  · rw [he, Host.Outcome.next.injEq] at h
    rw [← h]
    exact .abort s _ hb

/-- Everything one step can do to the core's state. -/
theorem step_effect {s t : State} (h : step s = .next t) :
    (∃ s', SameCore s s' ∧ (t = s' ∨ HostEffect s' t ∨ CoreEffect s' t)) ∨
    (s.mover = .releaseRst ∧ SameCore (State.resetOf s.cfg) t) := by
  rcases step_cases h with ⟨-, h⟩ | ⟨-, hb, -, h⟩ | ⟨-, -, rfl⟩ | ⟨-, rfl⟩ | ⟨hm, rfl⟩
  · obtain ⟨s', hs', h⟩ := hostTurn_effect h
    have hpop : SameCore s s.popTurn := rfl
    refine .inl ⟨s', ?_, h.imp_right .inl⟩
    rw [SameCore, hs']
    rfl
  · exact .inl ⟨s.popTurn, rfl, .inr (.inr (coreStep_effect hb h))⟩
  · exact .inl ⟨s.popTurn, rfl, .inl rfl⟩
  · exact .inl ⟨s.popTurn.assertReset, rfl, .inl rfl⟩
  · cases hr : s.rst with
    | true =>
      rw [releaseReset_of_rst s.popTurn hr]
      exact .inr ⟨hm, rfl⟩
    | false =>
      rw [releaseReset_of_not_rst s.popTurn hr]
      exact .inl ⟨s.popTurn, rfl, .inl rfl⟩

/-- A predicate on the core's state that every effect and reset keep. -/
structure StepInvariant (P : State → Prop) : Prop where
  core : ∀ {s t}, SameCore s t → P s → P t
  host : ∀ {s t}, HostEffect s t → P s → P t
  commit : ∀ {s u i}, s.status.busy = true → runOf i s = .ok u → P s → P (finish u)
  abort : ∀ {s e}, s.status.busy = true → P s → P (abort e s)
  reset : ∀ {s}, P s → P (State.resetOf s.cfg)

/-- Every step keeps a step invariant: the induction over a run, packaged once. -/
theorem StepInvariant.step {P : State → Prop} (hP : StepInvariant P) {s t : State} (h : step s = .next t) (hs : P s) :
    P t := by
  rcases step_effect h with ⟨s', hcore, hend⟩ | ⟨-, hreset⟩
  · have hs' := hP.core hcore hs
    rcases hend with rfl | hhost | hend
    · exact hs'
    · exact hP.host hhost hs'
    · cases hend with
      | commit hb hrun => exact hP.commit hb hrun hs'
      | abort e hb => exact hP.abort hb hs'
  · exact hP.core hreset (hP.reset hs)

/-! The parameters (R21-R23). -/

theorem runOf_cfg {i : Instr} {s u : State} (h : runOf i s = .ok u) : u.cfg = s.cfg := by
  rw [(runOf_frame h).1]

theorem hostEffect_cfg {s t : State} (h : HostEffect s t) : t.cfg = s.cfg := by
  cases h <;> rfl

theorem cfg_invariant (c : Config) : StepInvariant fun s => s.cfg = c where
  core h hs := h.cfg.trans hs
  host h hs := (hostEffect_cfg h).trans hs
  commit _ hrun hs := (runOf_cfg hrun).trans hs
  abort _ hs := hs
  reset hs := hs

/-- Settles O57: the constant registers are functions of the parameters, which no step changes. -/
theorem constantRegistersNeverChange : Obligations.ConstantRegistersNeverChange := by
  intro s t h
  have hcfg : t.cfg = s.cfg := (cfg_invariant s.cfg).step h rfl
  exact ⟨hcfg, rfl, congrArg cfgWord hcfg, congrArg fsizeWord hcfg⟩

/-! STATUS (R28, R30, R31, R239). -/

theorem code_le_four (e : Exception) : e.code.toNat ≤ 4 := by
  cases e <;> decide

/-- A commit ends with BUSY = 0 and ERR = NONE. -/
theorem coherent_finish (u : State) : (finish u).status.Coherent :=
  ⟨nofun, fun _ => rfl, Nat.zero_le 4⟩

/-- An abort leaves INSUF as acceptance cleared it. -/
theorem coherent_abort {s : State} (e : Exception) (hb : s.status.busy = true) (h : s.status.Coherent) :
    (abort e s).status.Coherent := by
  obtain ⟨hbusy, -, -⟩ := h
  obtain ⟨-, -, hinsuf⟩ := hbusy hb
  refine ⟨nofun, fun hset => ?_, code_le_four e⟩
  have hset : s.status.insuf = true := hset
  rw [hinsuf] at hset
  cases hset

theorem coherent_hostEffect {s t : State} (h : HostEffect s t) (hs : s.status.Coherent) : t.status.Coherent := by
  cases h with
  | accept v hb => exact ⟨fun _ => ⟨rfl, rfl, rfl⟩, nofun, Nat.zero_le 4⟩
  | overrun hb | writeN v | writeK v | writeAlpha i v hi | writeBuf b i v hb hw hi => exact hs

theorem coherent_invariant : StepInvariant fun s => s.status.Coherent where
  core h hs := h.status ▸ hs
  host h hs := coherent_hostEffect h hs
  commit _ _ _ := coherent_finish _
  abort hb hs := coherent_abort _ hb hs
  reset _ := ⟨nofun, nofun, Nat.zero_le 4⟩

/-- No effect but reset leaves a core that was busy or done neither. -/
theorem busy_or_done_of_effect {s t : State} (h : HostEffect s t ∨ CoreEffect s t)
    (hs : s.status.busy = true ∨ s.status.done = true) : t.status.busy = true ∨ t.status.done = true := by
  rcases h with h | h
  · cases h with
    | accept v hb => exact .inl rfl
    | overrun hb | writeN v | writeK v | writeAlpha i v hi | writeBuf b i v hb hw hi => exact hs
  · cases h with
    | commit hb hrun => exact .inr rfl
    | abort e hb => exact .inr rfl

/-- Settles O52: coherence is a step invariant, and acceptance sets BUSY, the end of a command DONE. -/
theorem stepKeepsStatusCoherent : Obligations.StepKeepsStatusCoherent := by
  refine fun s t h hs => ⟨coherent_invariant.step h hs, fun hm hbd => ?_⟩
  rcases step_effect h with ⟨s', hcore, hend⟩ | ⟨hrelease, -⟩
  · rw [← hcore.status] at hbd
    rcases hend with rfl | hend
    · exact hbd
    · exact busy_or_done_of_effect hend hbd
  · exact absurd hrelease hm

/-! The host never writes results (R41, R64). -/

/-- An element of a buffer that the host may not write, or may but does not, stays. -/
theorem elem_hostEffect {s t : State} (h : HostEffect s t) (hv : s.cfg.Valid) {b : Buf} (hb : b.hostWritable = false)
    {j : Nat} (hj : j < s.cfg.nmax) : t.elem b j = s.elem b j := by
  obtain ⟨-, -, hn⟩ := hv
  cases h with
  | overrun hb | accept v hb | writeN v | writeK v => rfl
  | writeAlpha i v hi =>
    refine elem_setElem_other s v (by omega) (by omega) (.inl ?_)
    rintro rfl
    cases hb
  | writeBuf b' i v hne hw hi =>
    refine elem_setElem_other s v (by omega) (by omega) (.inl ?_)
    rintro rfl
    rw [hb] at hw
    cases hw

/-- Settles O60: none of the host's writes touches a register of results, or a buffer that is not the host's. -/
theorem hostNeverWritesResults : Obligations.HostNeverWritesResults := by
  intro s t h hm hv
  rw [step_of_mover_host hm] at h
  obtain ⟨s', hcore, hend⟩ := hostTurn_effect h
  have hsame : t.bmL = s'.bmL ∧ t.bmM = s'.bmM ∧ t.bmB = s'.bmB ∧ t.errmap = s'.errmap ∧ t.nerr = s'.nerr := by
    rcases hend with rfl | hend
    · exact ⟨rfl, rfl, rfl, rfl, rfl⟩
    · cases hend <;> exact ⟨rfl, rfl, rfl, rfl, rfl⟩
  obtain ⟨hL, hM, hB, he, hN⟩ := hsame
  refine ⟨hL.trans hcore.bmL, hM.trans hcore.bmM, hB.trans hcore.bmB, he.trans hcore.errmap, hN.trans hcore.nerr,
    fun b j hb hj => ?_⟩
  have hstay : t.elem b j = s'.elem b j := by
    rcases hend with rfl | hend
    · rfl
    · have hcfg : s'.cfg = s.cfg := hcore.cfg
      refine elem_hostEffect hend (hcfg ▸ hv) ?_ (hcfg ▸ hj)
      rcases hb with rfl | rfl | rfl <;> rfl
  exact hstay.trans (elem_congr hcore.mem b j)

/-! A command in progress under the host's turns (R241, R292). -/

/-- `t` is `s` but for WOVR, the host and the interleaving. -/
def Waits (s t : State) : Prop :=
  t = { s with
        status := { s.status with wovr := t.status.wovr }
        program := t.program, schedule := t.schedule, reads := t.reads, draws := t.draws }

theorem Waits.trans {s t u : State} (h1 : Waits s t) (h2 : Waits t u) : Waits s u := by
  rw [Waits, h2, h1]

/-- While a command is in progress the host's turn is never refused when its program is aligned, and the core waits. -/
theorem hostTurn_busy {s : State} (hb : s.status.busy = true) (hr : s.rst = false) (ha : s.ProgramAligned) :
    ∃ t, hostTurn s = .next t ∧ Waits s t ∧ t.schedule = s.schedule ∧ t.ProgramAligned := by
  cases hp : s.program with
  | nil => exact ⟨s, hostTurn_of_program_nil hp, rfl, rfl, ha⟩
  | cons op rest =>
    have hact : hostTurn s = hostAct op rest s := by simp [hostTurn, hr, hp]
    have hrest : ∀ op' ∈ rest, op'.transaction ≠ none := fun op' hmem =>
      ha op' (hp ▸ List.mem_cons_of_mem op hmem)
    have hop := ha op (hp ▸ List.mem_cons_self)
    rw [hact]
    cases op with
    | wait =>
      refine ⟨_, rfl, ?_⟩
      rw [pollDone_eq]
      refine ⟨rfl, rfl, ?_⟩
      cases hd : s.status.done with
      | true => exact hrest
      | false => exact ha
    | wr a v =>
      obtain ⟨tr, htr⟩ := Option.ne_none_iff_exists'.mp hop
      obtain ⟨wa, -, rfl⟩ := Option.map_eq_some_iff.mp htr
      refine ⟨State.memWrite { s with program := rest } wa v, by simp only [hostAct, htr, transact_write], ?_⟩
      rw [memWrite_busy (s := { s with program := rest }) hb]
      exact ⟨rfl, rfl, hrest⟩
    | rd a =>
      obtain ⟨tr, htr⟩ := Option.ne_none_iff_exists'.mp hop
      obtain ⟨wa, -, rfl⟩ := Option.map_eq_some_iff.mp htr
      refine ⟨State.memRead { s with program := rest } wa, by simp only [hostAct, htr, transact_read], ?_⟩
      rw [memRead_eq]
      exact ⟨rfl, rfl, hrest⟩

/-- Settles O58, by induction on the turns still scheduled: the host's leave the core waiting, and a release of `rst` does
nothing while it is low. -/
theorem commandCompletesOnTheAcceptedState : Obligations.CommandCompletesOnTheAcceptedState := by
  suffices hturns : ∀ (turns : List Turn) (s : State), s.schedule = turns → s.status.busy = true → s.NoReset →
      s.ProgramAligned → ∃ k u, k ≤ turns.length ∧ stepN k s = .next u ∧ step u = coreStep u.popTurn ∧ Waits s u by
    intro s hb hr ha
    exact hturns s.schedule s rfl hb hr ha
  intro turns
  induction turns with
  | nil =>
    intro s hs hb hr _
    have hm : s.mover = .core := by simp [State.mover, hs, hb]
    exact ⟨0, s, le_rfl, rfl, step_of_core hm hb hr.1, rfl⟩
  | cons turn rest ih =>
    intro s hs hb ⟨hr, hno⟩ ha
    have hm : s.mover = turn := by simp [State.mover, hs]
    have hnorest : Turn.assertRst ∉ rest := fun hmem => hno (hs ▸ List.mem_cons_of_mem turn hmem)
    have hwait {t : State} (hstep : step s = .next t) (hw : Waits s t) (hts : t.schedule = rest)
        (hta : t.ProgramAligned) : ∃ k u, k ≤ (turn :: rest).length ∧ stepN k s = .next u ∧
          step u = coreStep u.popTurn ∧ Waits s u := by
      have htb : t.status.busy = true := by rw [hw]; exact hb
      have htr : t.rst = false := by rw [hw]; exact hr
      obtain ⟨k, u, hk, hrun, hcore, hu⟩ := ih t hts htb ⟨htr, hts ▸ hnorest⟩ hta
      exact ⟨k + 1, u, Nat.succ_le_succ hk, by simp only [stepN, hstep, hrun], hcore, hw.trans hu⟩
    have htail : s.popTurn.schedule = rest := by rw [popTurn_schedule, hs, List.tail_cons]
    cases turn with
    | core => exact ⟨0, s, Nat.zero_le _, rfl, step_of_core hm hb hr, rfl⟩
    | assertRst => exact absurd (hs ▸ List.mem_cons_self) hno
    | releaseRst =>
      have hstep : step s = .next s.popTurn := by
        rw [step_of_mover_releaseRst hm, releaseReset_of_not_rst s.popTurn hr]
      exact hwait hstep rfl htail ha
    | host =>
      obtain ⟨t, hturn, hw, hts, hta⟩ := hostTurn_busy (s := s.popTurn) hb hr ha
      have hpop : Waits s s.popTurn := rfl
      exact hwait ((step_of_mover_host hm).trans hturn) (hpop.trans hw) (hts.trans htail) hta

end Sys2Proof.Proofs
end

section
/-! The form of the buffers (R40, R62, R120): a write of an element keeps it, and so do the commits, which are such
writes. The bounds of the BM registers (R36-R38, R188) follow from it. -/

namespace Sys2Proof.Proofs

open Sys2Proof Sys2Proof.Machine

/-- The form speaks of the parameters and the buffers alone. -/
theorem memoryForm_congr {s t : State} (hcfg : t.cfg = s.cfg) (hmem : t.mem = s.mem) (h : s.MemoryForm) :
    t.MemoryForm := by
  simpa only [State.MemoryForm, hcfg, hmem, elem_congr hmem] using h

/-! One element. -/

/-- Every byte lane of an element other than the one written reads as before. -/
theorem readByte_setElem_other (s : State) {b b' : Buf} {i i' : Nat} (v : Nat) (hi : i < 1024) (hi' : i' < 1024)
    (h : b' ≠ b ∨ i' ≠ i) {j : Nat} (hj : j < 4) :
    readByte (s.setElem b i v).mem (elemAddr b' i' + j) = readByte s.mem (elemAddr b' i' + j) := by
  have hapart := elemAddr_disjoint hi' hi h
  exact readByte_writeWord_outside _ _ (by omega)

/-- What an element holds after a write: the stored word, or what it held. -/
theorem elem_setElem_cases {s : State} {b b' : Buf} {i i' v : Nat} (hi : i < 1024) (hi' : i' < 1024) {w : Word}
    (h : (s.setElem b i v).elem b' i' = some w) :
    b' = b ∧ w = elemWord s.cfg.field v ∨ s.elem b' i' = some w := by
  by_cases hsame : b' = b ∧ i' = i
  · obtain ⟨rfl, rfl⟩ := hsame
    rw [elem_setElem_same, Option.some.injEq] at h
    exact .inl ⟨rfl, h.symm⟩
  · rw [elem_setElem_other s v hi hi' (not_and_or.mp hsame)] at h
    exact .inr h

theorem hostWritable_of_coreOnly {b : Buf} (h : b = .dec ∨ b = .w ∨ b = .bpoly) : b.hostWritable = false := by
  rcases h with rfl | rfl | rfl <;> rfl

/-- A write of one element keeps the form; a buffer that only the core writes takes canonical codes. -/
theorem memoryForm_setElem {s : State} {b : Buf} {i v : Nat} (hi : i < s.cfg.nmax)
    (hlt : b.hostWritable = false → v < s.cfg.field.size) (h : s.MemoryForm) : (s.setElem b i v).MemoryForm := by
  obtain ⟨hv, hwf, hin, hwhole, hew, hcan⟩ := h
  have hn := hv.2.2
  refine ⟨hv, setElem_wf s b i v hwf, fun c hc => ?_, fun b' i' hi' => ?_, fun b' i' w hi' hw => ?_,
    fun b' i' w hb' hi' hw => ?_⟩
  · rcases mem_writeWord hc with ⟨j, hj, hcj⟩ | hc
    · exact ⟨b, i, j, hi, hj, hcj⟩
    · exact hin c hc
  · have hi' : i' < s.cfg.nmax := hi'
    by_cases hsame : b' = b ∧ i' = i
    · obtain ⟨rfl, rfl⟩ := hsame
      exact .inl fun j hj => ⟨_, readByte_writeWord_lane s.mem _ _ j hj⟩
    · have hlane {j : Nat} (hj : j < 4) :=
        readByte_setElem_other s v (b := b) (i := i) (by omega) (by omega) (not_and_or.mp hsame) hj
      refine (hwhole b' i' hi').imp (fun hall j hj => ?_) (fun hnone j hj => ?_)
      · rw [hlane hj]
        exact hall j hj
      · rw [hlane hj]
        exact hnone j hj
  · have hi' : i' < s.cfg.nmax := hi'
    rcases elem_setElem_cases (by omega) (by omega) hw with ⟨-, rfl⟩ | hw
    · exact elemWord_toNat_lt _ _
    · exact hew b' i' w hi' hw
  · have hi' : i' < s.cfg.nmax := hi'
    rcases elem_setElem_cases (by omega) (by omega) hw with ⟨rfl, rfl⟩ | hw
    · have hlt := hlt (hostWritable_of_coreOnly hb')
      rw [elemWord_canonical hv.size_le hlt, toNat_ofNat_code hv.size_le hlt]
      exact hlt
    · exact hcan b' i' w hb' hi' hw

/-! A range of elements. -/

/-- Writing elements one after another keeps the form, by induction on their list. -/
theorem memoryForm_writeElemsFrom {b : Buf} (vs : List Nat) : ∀ (s : State) (i : Nat), i + vs.length ≤ s.cfg.nmax →
    (b.hostWritable = false → ∀ v ∈ vs, v < s.cfg.field.size) → s.MemoryForm →
    State.MemoryForm { s with mem := writeElemsFrom s.cfg.field s.mem b i vs } := by
  induction vs with
  | nil => exact fun _ _ _ _ h => h
  | cons v vs ih =>
    intro s i hlen hlt h
    rw [List.length_cons] at hlen
    refine ih (s.setElem b i v) (i + 1) ?_ (fun hb => (List.forall_mem_cons.mp (hlt hb)).2) (memoryForm_setElem ?_
      (fun hb => (List.forall_mem_cons.mp (hlt hb)).1) h)
    · change i + 1 + vs.length ≤ s.cfg.nmax
      omega
    · omega

theorem memoryForm_setElems {s : State} {b : Buf} {vs : List Nat} (hlen : vs.length ≤ s.cfg.nmax)
    (hlt : b.hostWritable = false → ∀ v ∈ vs, v < s.cfg.field.size) (h : s.MemoryForm) : (s.setElems b vs).MemoryForm :=
  memoryForm_writeElemsFrom vs s 0 (by omega) hlt h

/-! The commits. -/

theorem memoryForm_commitIfComputed {s : State} {wc : List Nat × Bool} (hlen : wc.1.length ≤ s.cfg.nmax)
    (hlt : ∀ v ∈ wc.1, v < s.cfg.field.size) (h : s.MemoryForm) : (s.commitIfComputed wc).MemoryForm := by
  unfold State.commitIfComputed
  split
  · exact memoryForm_congr rfl rfl (memoryForm_setElems (b := .w) hlen (fun _ => hlt) h)
  · exact h

theorem memoryForm_commitSynth {s : State} {st : SynthState} {count : Nat} (hb : SynthBounds s.cfg.field count count st)
    (hcount : count < s.cfg.nmax) (h : s.MemoryForm) : (s.commitSynth st).MemoryForm := by
  have hlam : (s.setElems .lambda st.lam).MemoryForm :=
    memoryForm_setElems (hb.lam_length.trans_le hcount) (fun _ => hb.lam_lt) h
  exact memoryForm_congr rfl rfl
    (memoryForm_setElems (s := s.setElems .lambda st.lam) (b := .bpoly) (hb.aux_length.trans_le hcount)
      (fun _ => hb.aux_lt) hlam)

theorem memoryForm_commitRecovery {s : State} {res : List Nat × Bool} (hlen : res.1.length ≤ s.cfg.nmax)
    (hlt : ∀ v ∈ res.1, v < s.cfg.field.size) (h : s.MemoryForm) : (s.commitRecovery res).MemoryForm :=
  memoryForm_congr rfl rfl (memoryForm_setElems (b := .dec) hlen (fun _ => hlt) h)

theorem memoryForm_commitDecode {s : State} {wc : List Nat × Bool} {d : DecodeResult} {count k : Nat}
    (hd : DecodeForm s.cfg.field count k d) (hcount : count < s.cfg.nmax) (hk : k ≤ s.cfg.nmax)
    (h : (s.commitIfComputed wc).MemoryForm) : (s.commitDecode wc d).MemoryForm := by
  have hcfg := commitIfComputed_cfg s wc
  rw [← hcfg] at hd hcount hk
  have hsyn : ((s.commitIfComputed wc).setElems .s d.syn).MemoryForm :=
    memoryForm_setElems (hd.syn_length.trans_le hcount.le) nofun h
  have hsynth : (((s.commitIfComputed wc).setElems .s d.syn).commitSynth d.synth).MemoryForm :=
    memoryForm_commitSynth hd.synth hcount hsyn
  exact memoryForm_commitRecovery (hd.dec_length.trans_le hk) hd.dec_lt (memoryForm_congr rfl rfl hsynth)

/-! The weights in use. -/

/-- Cached or computed, the weights in use are canonical: W is a buffer that only the core writes. -/
theorem weightsForUse_form {s : State} {points : List Nat} {wc : List Nat × Bool} (h : s.MemoryForm)
    (hn : s.len ≤ s.cfg.nmax) (ha : s.Operand .alpha s.len points) (huse : s.weightsForUse points = .ok wc) :
    wc.1.length = s.len ∧ ∀ v ∈ wc.1, v < s.cfg.field.size := by
  obtain ⟨hv, -, -, -, -, hcan⟩ := h
  obtain ⟨hlen, -, hp⟩ := ha
  rcases weightsForUse_eq_ok huse with ⟨-, -, hwlen, hcodes, h32⟩ | ⟨-, -, hw⟩
  · refine ⟨hwlen, fun v hvm => ?_⟩
    obtain ⟨i, hi, rfl⟩ := List.getElem_of_mem hvm
    have hlt := hcan .w i _ (.inr (.inl rfl)) (by omega) (hcodes i hi)
    rwa [List.getD_eq_getElem _ _ hi, BitVec.toNat_ofNat, Nat.mod_eq_of_lt (h32 _ hvm)] at hlt
  · obtain ⟨-, hwlen, hwlt⟩ := hv.1.wfn_spec hp hw
    exact ⟨hwlen.trans hlen, hwlt⟩

/-- What DECODE computes on buffers in form is in form. -/
theorem decodeForm_of_memoryForm {s : State} (h : s.MemoryForm) (hg : s.GeometryOk) {r points : List Nat}
    {wc : List Nat × Bool} {d : DecodeResult} (hcw : s.Operand .cw s.len r) (ha : s.Operand .alpha s.len points)
    (huse : s.weightsForUse points = .ok wc) (hd : decodeStages s.cfg s.dim r points wc.1 = .ok d) :
    DecodeForm s.cfg.field (s.len - s.dim) s.dim d := by
  obtain ⟨-, hwlt⟩ := weightsForUse_form h hg.2.2 ha huse
  obtain ⟨hlen, -, hp⟩ := ha
  obtain ⟨-, -, hr⟩ := hcw
  rw [← hlen]
  exact decodeForm_of_decodeStages h.1 hp hr hd hwlt

/-! The commands. -/

theorem memoryForm_runOf {i : Instr} {s u : State} (hrun : runOf i s = .ok u) (h : s.MemoryForm) : u.MemoryForm := by
  have hv : s.cfg.Valid := h.1
  cases i with
  | nop =>
    cases hrun
    exact h
  | encode =>
    obtain ⟨hg, msg, points, -, ⟨hlen, -, -⟩, rfl⟩ := runEncode_eq_ok hrun
    have hcw : (encodeMessage s.cfg.field msg points).length ≤ s.cfg.nmax := by
      rw [encodeMessage, List.length_map, hlen]
      exact hg.2.2
    exact memoryForm_setElems hcw nofun h
  | weights =>
    obtain ⟨hg, points, w, ⟨hlen, -, hp⟩, hw, rfl⟩ := runWeights_eq_ok hrun
    obtain ⟨-, hwlen, hwlt⟩ := hv.1.wfn_spec hp hw
    exact memoryForm_commitIfComputed (wc := (w, true)) (by rw [hwlen, hlen]; exact hg.2.2) hwlt h
  | syndrome =>
    obtain ⟨hg, r, points, wc, -, ha, huse, rfl⟩ := runSyndrome_eq_ok hrun
    obtain ⟨-, -, hn, -⟩ := geometry_bounds hv hg
    obtain ⟨hwlen, hwlt⟩ := weightsForUse_form h hn ha huse
    refine memoryForm_setElems ?_ nofun (memoryForm_commitIfComputed (hwlen.trans_le hn) hwlt h)
    rw [length_sfn, commitIfComputed_cfg]
    exact (Nat.sub_le _ _).trans hn
  | bmsyn =>
    obtain ⟨hg, syn, st, ⟨hlen, -, hlt⟩, hbm, rfl⟩ := runBmsyn_eq_ok hrun
    obtain ⟨hk, hkn, hn, -⟩ := geometry_bounds hv hg
    exact memoryForm_commitSynth (bounds_of_bm_eq_some hv.1 hlt hbm) (by omega) h
  | roots =>
    obtain ⟨-, points, lam, -, -, rfl⟩ := runRoots_eq_ok hrun
    exact memoryForm_congr rfl rfl h
  | recover =>
    obtain ⟨hg, points, r, res, ⟨-, -, hp⟩, ⟨-, -, hr⟩, hres, rfl⟩ := runRecover_eq_ok hrun
    obtain ⟨-, hkn, hn, -⟩ := geometry_bounds hv hg
    obtain ⟨hdlen, hdlt⟩ := rfn_spec hv.1 hp hr hres
    exact memoryForm_commitRecovery (hdlen.trans_le (hkn.trans hn)) hdlt h
  | decode =>
    obtain ⟨hg, r, points, wc, d, hcw, ha, huse, hd, rfl⟩ := runDecode_eq_ok hrun
    obtain ⟨hk, hkn, hn, -⟩ := geometry_bounds hv hg
    obtain ⟨hwlen, hwlt⟩ := weightsForUse_form h hn ha huse
    exact memoryForm_commitDecode (decodeForm_of_memoryForm h hg hcw ha huse hd) (by omega) (hkn.trans hn)
      (memoryForm_commitIfComputed (hwlen.trans_le hn) hwlt h)

theorem memoryForm_hostEffect {s t : State} (h : HostEffect s t) (hs : s.MemoryForm) : t.MemoryForm := by
  cases h with
  | overrun hb | accept v hb | writeN v | writeK v => exact memoryForm_congr rfl rfl hs
  | writeAlpha i v hi => exact memoryForm_congr rfl rfl (memoryForm_setElem (b := .alpha) (v := v) hi nofun hs)
  | writeBuf b i v hne hw hi =>
    refine memoryForm_setElem hi (fun hb => ?_) hs
    rw [hw] at hb
    cases hb

/-- Buffers that hold no value are in form. -/
theorem memoryForm_resetOf {c : Config} (hc : c.Valid) : (State.resetOf c).MemoryForm :=
  ⟨hc, .nil, nofun, fun _ _ _ => .inr fun _ _ => rfl, nofun, nofun⟩

theorem memoryForm_invariant : StepInvariant State.MemoryForm where
  core h hs := memoryForm_congr h.cfg h.mem hs
  host h hs := memoryForm_hostEffect h hs
  commit {_ u _} _ hrun hs := memoryForm_congr (s := u) rfl rfl (memoryForm_runOf hrun hs)
  abort _ hs := memoryForm_congr rfl rfl hs
  reset hs := memoryForm_resetOf hs.1

/-- Settles O53: every effect of a step is a list of element writes within the window, canonical where only the core
writes. -/
theorem stepKeepsMemoryForm : Obligations.StepKeepsMemoryForm := fun _ _ h hs => memoryForm_invariant.step h hs

/-! The BM registers. -/

theorem synthBounded_congr {s t : State} (hcfg : t.cfg = s.cfg) (hL : t.bmL = s.bmL) (hM : t.bmM = s.bmM)
    (hB : t.bmB = s.bmB) (h : s.SynthBounded) : t.SynthBounded := by
  simpa only [State.SynthBounded, hcfg, hL, hM, hB] using h

/-- The registers of a committed Berlekamp-Massey result keep its bounds (R188). -/
theorem synthBounded_of_bounds {s : State} {st : SynthState} {count : Nat} (hv : s.cfg.Valid)
    (hb : SynthBounds s.cfg.field count count st) (hcount : count < s.cfg.nmax)
    (hbm : s.bmL.toNat = st.len ∧ s.bmM.toNat = st.shift ∧ s.bmB.toNat = st.last) : s.SynthBounded := by
  obtain ⟨hL, hM, hB⟩ := hbm
  have hlen := hb.len_le
  have hshift := hb.shift_le
  refine ⟨hv, ?_, ?_, ?_, ?_, ?_⟩
  · omega
  · exact hM ▸ hb.shift_pos
  · omega
  · exact hB ▸ hb.last_ne
  · exact hB ▸ hb.last_lt

theorem synthBounded_runOf {i : Instr} {s u : State} (hrun : runOf i s = .ok u) (h : s.MemoryForm)
    (hs : s.SynthBounded) : u.SynthBounded := by
  have hv : s.cfg.Valid := h.1
  have hnmax := hv.2.2
  cases i with
  | nop =>
    cases hrun
    exact hs
  | encode =>
    obtain ⟨-, _, _, -, -, rfl⟩ := runEncode_eq_ok hrun
    exact synthBounded_congr rfl rfl rfl rfl hs
  | weights =>
    obtain ⟨-, _, _, -, -, rfl⟩ := runWeights_eq_ok hrun
    exact synthBounded_congr rfl rfl rfl rfl hs
  | syndrome =>
    obtain ⟨-, _, _, wc, -, -, -, rfl⟩ := runSyndrome_eq_ok hrun
    exact synthBounded_congr (commitIfComputed_cfg s wc) (commitIfComputed_bmL s wc) (commitIfComputed_bmM s wc)
      (commitIfComputed_bmB s wc) hs
  | bmsyn =>
    obtain ⟨hg, syn, st, ⟨hlen, -, hlt⟩, hbm, rfl⟩ := runBmsyn_eq_ok hrun
    obtain ⟨hk, hkn, hn, -⟩ := geometry_bounds hv hg
    have hb := bounds_of_bm_eq_some hv.1 hlt hbm
    have hcount : syn.length < s.cfg.nmax := by omega
    exact synthBounded_of_bounds (s := s.commitSynth st) hv hb hcount (bm_commitSynth hv hb (by omega))
  | roots =>
    obtain ⟨-, _, _, -, -, rfl⟩ := runRoots_eq_ok hrun
    exact synthBounded_congr rfl rfl rfl rfl hs
  | recover =>
    obtain ⟨-, _, _, _, -, -, -, rfl⟩ := runRecover_eq_ok hrun
    exact synthBounded_congr rfl rfl rfl rfl hs
  | decode =>
    obtain ⟨hg, r, points, wc, d, hcw, ha, huse, hd, rfl⟩ := runDecode_eq_ok hrun
    obtain ⟨hk, hkn, hn, -⟩ := geometry_bounds hv hg
    have hform := decodeForm_of_memoryForm h hg hcw ha huse hd
    have hcfg := commitDecode_cfg s wc d
    exact synthBounded_of_bounds (hcfg ▸ hv) (hcfg ▸ hform.synth) (by rw [hcfg]; omega)
      (bm_commitDecode hform (by omega) hv)

theorem synthBounded_hostEffect {s t : State} (h : HostEffect s t) (hs : s.SynthBounded) : t.SynthBounded := by
  cases h <;> exact synthBounded_congr rfl rfl rfl rfl hs

/-- After reset `L = 0`, `m = 1` and `b = 1` (R54). -/
theorem synthBounded_resetOf {c : Config} (hc : c.Valid) : (State.resetOf c).SynthBounded := by
  have hn := hc.2.1
  exact ⟨hc, hn, le_rfl, hn, one_ne_zero, hc.1.one_lt⟩

theorem synthBounded_invariant : StepInvariant fun s => s.MemoryForm ∧ s.SynthBounded where
  core h hs := ⟨memoryForm_invariant.core h hs.1, synthBounded_congr h.cfg h.bmL h.bmM h.bmB hs.2⟩
  host h hs := ⟨memoryForm_invariant.host h hs.1, synthBounded_hostEffect h hs.2⟩
  commit {_ u _} hb hrun hs := ⟨memoryForm_invariant.commit hb hrun hs.1,
    synthBounded_congr (s := u) rfl rfl rfl rfl (synthBounded_runOf hrun hs.1 hs.2)⟩
  abort hb hs := ⟨memoryForm_invariant.abort hb hs.1, synthBounded_congr rfl rfl rfl rfl hs.2⟩
  reset hs := ⟨memoryForm_invariant.reset hs.1, synthBounded_resetOf hs.1.1⟩

/-- Settles O56: the bounds of Berlekamp-Massey hold because its sequence is canonical, cached weights included. -/
theorem stepKeepsSynthBounded : Obligations.StepKeepsSynthBounded := fun _ _ h hm hs =>
  (synthBounded_invariant.step h ⟨hm, hs⟩).2

end Sys2Proof.Proofs
end

section
/-! What the commands write and leave (R32, R41), and the invariants that rest on it: the cached weights (R51), the
error-position set (R39, R50), and all of them after reset. -/

namespace Sys2Proof.Proofs

open Sys2Proof Sys2Proof.Machine

/-! The frame of the commands. -/

/-- W, when the weights in use have to be computed (R168). -/
def freshOutputs (s : State) : List Buf := if s.status.wValid then [] else [.w]

/-- The buffers a command writes (R41). -/
def outputs (s : State) (i : Instr) : List Buf :=
  match i with
  | .nop | .roots => []
  | .encode => [.cw]
  | .weights => [.w]
  | .syndrome => .s :: freshOutputs s
  | .bmsyn => [.lambda, .bpoly]
  | .recover => [.dec]
  | .decode => .dec :: .s :: .lambda :: .bpoly :: freshOutputs s

theorem mem_freshOutputs {s : State} {b : Buf} : b ∈ freshOutputs s ↔ s.status.wValid = false ∧ b = .w := by
  unfold freshOutputs
  cases s.status.wValid <;> simp

section Frame

variable {s : State} {points : List Nat} {wc : List Nat × Bool} (hv : s.cfg.Valid) (hg : s.GeometryOk)
  (ha : s.Operand .alpha s.len points) (huse : s.weightsForUse points = .ok wc)
include hv hg ha huse

theorem length_weightsForUse : wc.1.length ≤ 1024 := by
  obtain ⟨hlen, -, hp⟩ := ha
  obtain ⟨-, -, -, hn⟩ := geometry_bounds hv hg
  rcases weightsForUse_eq_ok huse with ⟨-, -, hwlen, -, -⟩ | ⟨-, -, hw⟩
  · omega
  · have hwlen := (hv.1.wfn_spec hp hw).2.1
    omega

theorem elem_commitIfComputed_of_use {b : Buf} (hb : b ∉ freshOutputs s) {j : Nat} (hj : j < 1024) :
    (s.commitIfComputed wc).elem b j = s.elem b j := by
  rcases weightsForUse_eq_ok huse with ⟨-, hcached, -⟩ | ⟨hfresh, -, -⟩
  · simp [State.commitIfComputed, hcached]
  · have hne : b ≠ .w := fun h => hb (mem_freshOutputs.mpr ⟨hfresh, h⟩)
    exact elem_commitIfComputed_other s (length_weightsForUse hv hg ha huse) hne hj

end Frame

/-- An element of a buffer that a command does not write stays. -/
theorem elem_runOf {i : Instr} {s u : State} (hrun : runOf i s = .ok u) (hv : s.cfg.Valid) {b : Buf}
    (hb : b ∉ outputs s i) {j : Nat} (hj : j < 1024) : u.elem b j = s.elem b j := by
  cases i with
  | nop =>
    cases hrun
    rfl
  | encode =>
    obtain ⟨hg, msg, points, -, ⟨hlen, -, -⟩, rfl⟩ := runEncode_eq_ok hrun
    obtain ⟨-, -, -, hn⟩ := geometry_bounds hv hg
    have hcw : (encodeMessage s.cfg.field msg points).length ≤ 1024 := by
      rw [encodeMessage, List.length_map]
      omega
    exact elem_setElems_other s _ (List.ne_of_not_mem_cons hb) hj hcw
  | weights =>
    obtain ⟨hg, points, w, ⟨hlen, -, hp⟩, hw, rfl⟩ := runWeights_eq_ok hrun
    obtain ⟨-, -, -, hn⟩ := geometry_bounds hv hg
    have hwlen := (hv.1.wfn_spec hp hw).2.1
    exact elem_setElems_other s w (List.ne_of_not_mem_cons hb) hj (by omega)
  | syndrome =>
    obtain ⟨hg, r, points, wc, -, ha, huse, rfl⟩ := runSyndrome_eq_ok hrun
    obtain ⟨-, -, -, hn⟩ := geometry_bounds hv hg
    obtain ⟨hs, hfresh⟩ := List.ne_and_not_mem_of_not_mem_cons hb
    rw [elem_setElems_other _ _ hs hj (by rw [length_sfn]; omega), elem_commitIfComputed_of_use hv hg ha huse hfresh hj]
  | bmsyn =>
    obtain ⟨hg, syn, st, ⟨hlen, -, -⟩, hbm, rfl⟩ := runBmsyn_eq_ok hrun
    obtain ⟨-, -, -, hn⟩ := geometry_bounds hv hg
    obtain ⟨hlam, haux⟩ := length_bm hbm
    obtain ⟨hblam, hb⟩ := List.ne_and_not_mem_of_not_mem_cons hb
    exact elem_commitSynth_other s (by omega) (by omega) hblam (List.ne_of_not_mem_cons hb) hj
  | roots =>
    obtain ⟨-, _, _, -, -, rfl⟩ := runRoots_eq_ok hrun
    rfl
  | recover =>
    obtain ⟨hg, points, r, res, ⟨-, -, hp⟩, ⟨-, -, hr⟩, hres, rfl⟩ := runRecover_eq_ok hrun
    obtain ⟨-, hkn, -, hn⟩ := geometry_bounds hv hg
    have hlen := (rfn_spec hv.1 hp hr hres).1
    exact elem_commitRecovery_other s (by omega) (List.ne_of_not_mem_cons hb) hj
  | decode =>
    obtain ⟨hg, r, points, wc, d, ⟨-, -, hr⟩, ha, huse, hd, rfl⟩ := runDecode_eq_ok hrun
    obtain ⟨hk, hkn, -, hn⟩ := geometry_bounds hv hg
    obtain ⟨hdec, hb⟩ := List.ne_and_not_mem_of_not_mem_cons hb
    obtain ⟨hs, hb⟩ := List.ne_and_not_mem_of_not_mem_cons hb
    obtain ⟨hlam, hb⟩ := List.ne_and_not_mem_of_not_mem_cons hb
    obtain ⟨haux, hfresh⟩ := List.ne_and_not_mem_of_not_mem_cons hb
    have hform := decodeLengths_of_decodeStages hv ha.2.2 hr hd
    rw [ha.1] at hform
    rw [elem_commitDecode_other hform (by omega) hdec hj (by omega) hs hlam haux,
      elem_commitIfComputed_of_use hv hg ha huse hfresh hj]

/-- ALPHA and MSG are the host's: no command writes them. -/
theorem not_mem_outputs {s : State} {i : Instr} {b : Buf} (hb : b = .alpha ∨ b = .msg) : b ∉ outputs s i := by
  rcases hb with rfl | rfl <;> cases i <;> simp [outputs, mem_freshOutputs]

/-- W is written by WEIGHTS, and by SYNDROME and DECODE without cached weights. -/
theorem w_mem_outputs {s : State} {i : Instr} : Buf.w ∈ outputs s i ↔
    i = .weights ∨ (i = .syndrome ∨ i = .decode) ∧ s.status.wValid = false := by
  cases i <;> simp [outputs, mem_freshOutputs]

/-- Settles O59: a commit leaves what `runOf_frame` says and the buffers outside the outputs; an abort changes STATUS
alone. -/
theorem commandsLeaveHostStateAlone : Obligations.CommandsLeaveHostStateAlone := by
  intro s t i h hv
  have hnmax := hv.2.2
  rcases exec_eq_next h with ⟨u, hrun, rfl⟩ | ⟨e, -, rfl⟩
  · obtain ⟨hframe, hvalid⟩ := runOf_frame hrun
    refine ⟨?_, ?_, ?_, (finish_cfg u).trans (runOf_cfg hrun), hvalid, fun b j hb hj => ?_⟩
    · exact (finish_n u).trans (by rw [hframe])
    · exact (finish_k u).trans (by rw [hframe])
    · exact (finish_cmdlatch u).trans (by rw [hframe])
    · exact (elem_congr (finish_mem u) b j).trans (elem_runOf hrun hv (not_mem_outputs hb) (by omega))
  · exact ⟨rfl, rfl, rfl, rfl, id, fun _ _ _ _ => rfl⟩

/-! The cached weights (R51). -/

/-- The cache is right while W_VALID is not newly set, and N, ALPHA and W do not change. -/
theorem weightsCached_of_frame {s t : State} (hcfg : t.cfg = s.cfg) (hn : t.n = s.n)
    (hvalid : t.status.wValid = true → s.status.wValid = true)
    (helem : t.status.wValid = true → ∀ b j, b = .alpha ∨ b = .w → j < 1024 → t.elem b j = s.elem b j)
    (h : s.WeightsCached) : t.WeightsCached := by
  obtain ⟨hv, hcache⟩ := h
  refine ⟨hcfg ▸ hv, fun ht => ?_⟩
  obtain ⟨hlen, points, w, ha, hnodup, hw, hcodes⟩ := hcache (hvalid ht)
  have hlent : t.len = s.len := congrArg BitVec.toNat hn
  have hn1023 := hv.2.2
  have hwlen := (hv.1.wfn_spec ha.2.2 hw).2.1
  have hplen := ha.1
  rw [hcfg, hlent]
  refine ⟨hlen, points, w, ?_, hnodup, hw, fun j hj => ?_⟩
  · exact operand_of_elem_eq ha hcfg fun j hj => helem ht .alpha j (.inl rfl) (by omega)
  · exact (helem ht .w j (.inr rfl) (by omega)).trans (hcodes j hj)

/-- The cache is right when the weights of the points have just been written. -/
theorem weightsCached_of_fresh {s t : State} (hv : s.cfg.Valid) (hg : s.GeometryOk) (hcfg : t.cfg = s.cfg)
    (hn : t.n = s.n) {points w : List Nat} (ha : s.Operand .alpha s.len points) (hw : s.cfg.field.wfn points = some w)
    (halpha : ∀ j, j < 1024 → t.elem .alpha j = s.elem .alpha j)
    (hcommit : ∀ j, j < 1024 → t.elem .w j = (s.commitWeights w).elem .w j) : t.WeightsCached := by
  obtain ⟨-, -, hlen, hlen1023⟩ := geometry_bounds hv hg
  obtain ⟨hnodup, hwlen, hwlt⟩ := hv.1.wfn_spec ha.2.2 hw
  have hplen := ha.1
  have hlent : t.len = s.len := congrArg BitVec.toNat hn
  refine ⟨hcfg ▸ hv, fun _ => ?_⟩
  rw [hcfg, hlent]
  refine ⟨hlen, points, w, ?_, hnodup, hw, fun j hj => ?_⟩
  · exact operand_of_elem_eq ha hcfg fun j hj => halpha j (by omega)
  · exact (hcommit j (by omega)).trans (codes_setElems s .w w hv.size_le hwlt j hj)

/-- With W_VALID = 0 the weights in use are computed. -/
theorem weights_of_fresh {s : State} {points w : List Nat} {computed : Bool}
    (huse : s.weightsForUse points = .ok (w, computed)) (hfresh : s.status.wValid = false) :
    s.cfg.field.wfn points = some w ∧ computed = true := by
  rcases weightsForUse_eq_ok huse with ⟨hvalid, -⟩ | ⟨-, hcomputed, hw⟩
  · rw [hfresh] at hvalid
    cases hvalid
  · exact ⟨hw, hcomputed⟩

/-- A command that writes W writes the weights of the points. -/
theorem exists_fresh_weights {i : Instr} {s u : State} (hrun : runOf i s = .ok u) (hv : s.cfg.Valid)
    (hi : Buf.w ∈ outputs s i) : s.GeometryOk ∧ ∃ points w, s.Operand .alpha s.len points ∧
      s.cfg.field.wfn points = some w ∧ ∀ j, j < 1024 → u.elem .w j = (s.commitWeights w).elem .w j := by
  rcases w_mem_outputs.mp hi with rfl | ⟨rfl | rfl, hfresh⟩
  · obtain ⟨hg, points, w, ha, hw, rfl⟩ := runWeights_eq_ok hrun
    exact ⟨hg, points, w, ha, hw, fun _ _ => rfl⟩
  · obtain ⟨hg, r, points, ⟨w, computed⟩, -, ha, huse, rfl⟩ := runSyndrome_eq_ok hrun
    obtain ⟨-, -, -, hn⟩ := geometry_bounds hv hg
    obtain ⟨hw, rfl⟩ := weights_of_fresh huse hfresh
    refine ⟨hg, points, w, ha, hw, fun j hj => ?_⟩
    exact elem_setElems_other (s.commitWeights w) _ (by decide) hj (by rw [length_sfn]; omega)
  · obtain ⟨hg, r, points, ⟨w, computed⟩, d, ⟨-, -, hr⟩, ha, huse, hd, rfl⟩ := runDecode_eq_ok hrun
    obtain ⟨hk, hkn, -, hn⟩ := geometry_bounds hv hg
    obtain ⟨hw, rfl⟩ := weights_of_fresh huse hfresh
    have hlengths := decodeLengths_of_decodeStages hv ha.2.2 hr hd
    rw [ha.1] at hlengths
    refine ⟨hg, points, w, ha, hw, fun j hj => ?_⟩
    exact elem_commitDecode_other hlengths (by omega) (by decide) hj (by omega) (by decide) (by decide) (by decide)

/-- Only a command that writes W sets W_VALID. -/
theorem wValid_runOf {i : Instr} {s u : State} (hrun : runOf i s = .ok u) (hi : Buf.w ∉ outputs s i)
    (hu : u.status.wValid = true) : s.status.wValid = true := by
  cases i with
  | nop =>
    cases hrun
    exact hu
  | encode =>
    obtain ⟨-, _, _, -, -, rfl⟩ := runEncode_eq_ok hrun
    exact hu
  | weights => exact absurd (w_mem_outputs.mpr (.inl rfl)) hi
  | bmsyn =>
    obtain ⟨-, _, _, -, -, rfl⟩ := runBmsyn_eq_ok hrun
    exact hu
  | roots =>
    obtain ⟨-, _, _, -, -, rfl⟩ := runRoots_eq_ok hrun
    exact hu
  | recover =>
    obtain ⟨-, _, _, _, -, -, -, rfl⟩ := runRecover_eq_ok hrun
    exact hu
  | syndrome | decode =>
    by_contra hfresh
    exact hi (w_mem_outputs.mpr (.inr ⟨by simp, Bool.not_eq_true _ ▸ hfresh⟩))

theorem weightsCached_runOf {i : Instr} {s u : State} (hrun : runOf i s = .ok u) (h : s.WeightsCached) :
    u.WeightsCached := by
  have hv : s.cfg.Valid := h.1
  have hn : u.n = s.n := by rw [(runOf_frame hrun).1]
  have halpha (j : Nat) (hj : j < 1024) : u.elem .alpha j = s.elem .alpha j :=
    elem_runOf hrun hv (not_mem_outputs (.inl rfl)) hj
  by_cases hi : Buf.w ∈ outputs s i
  · obtain ⟨hg, points, w, ha, hw, hcommit⟩ := exists_fresh_weights hrun hv hi
    exact weightsCached_of_fresh hv hg (runOf_cfg hrun) hn ha hw halpha hcommit
  · refine weightsCached_of_frame (runOf_cfg hrun) hn (wValid_runOf hrun hi) (fun _ b j hb hj => ?_) h
    rcases hb with rfl | rfl
    · exact halpha j hj
    · exact elem_runOf hrun hv hi hj

theorem weightsCached_hostEffect {s t : State} (h : HostEffect s t) (hs : s.WeightsCached) : t.WeightsCached := by
  have hn := hs.1.2.2
  cases h with
  | overrun hb | accept v hb | writeK v =>
    exact weightsCached_of_frame rfl rfl id (fun _ _ _ _ _ => rfl) hs
  | writeN v | writeAlpha i v hi => exact ⟨hs.1, nofun⟩
  | writeBuf b i v hne hw hi =>
    refine weightsCached_of_frame (s := s) rfl rfl id (fun _ b' j hb' hj => ?_) hs
    refine elem_setElem_other s v (by omega) hj (.inl ?_)
    rcases hb' with rfl | rfl
    · exact hne.symm
    · rintro rfl
      cases hw

theorem weightsCached_resetOf {c : Config} (hc : c.Valid) : (State.resetOf c).WeightsCached := ⟨hc, nofun⟩

theorem weightsCached_invariant : StepInvariant State.WeightsCached where
  core h hs := weightsCached_of_frame h.cfg h.n (fun ht => h.status ▸ ht) (fun _ b j _ _ => elem_congr h.mem b j) hs
  host h hs := weightsCached_hostEffect h hs
  commit {_ u _} _ hrun hs :=
    weightsCached_of_frame (s := u) rfl rfl id (fun _ _ _ _ _ => rfl) (weightsCached_runOf hrun hs)
  abort {s _} _ hs := weightsCached_of_frame (s := s) rfl rfl id (fun _ _ _ _ _ => rfl) hs
  reset hs := weightsCached_resetOf hs.1

/-- Settles O54: a write of N or ALPHA clears W_VALID, and a command that writes W writes the weights of the points. -/
theorem stepKeepsWeightsCached : Obligations.StepKeepsWeightsCached :=
  ⟨fun _ => weightsCached_resetOf, fun _ _ h hs => weightsCached_invariant.step h hs⟩

/-! The error-position set (R39, R50). -/

theorem errorsCounted_congr {s t : State} (hcfg : t.cfg = s.cfg) (he : t.errmap = s.errmap) (hn : t.nerr = s.nerr)
    (h : s.ErrorsCounted) : t.ErrorsCounted := by
  have hbits : t.errBit = s.errBit := by
    funext i
    rw [State.errBit, State.errBit, he]
  simpa only [State.ErrorsCounted, hcfg, hbits, hn] using h

/-- A committed set of error positions is counted. -/
theorem errorsCounted_setErrors {s : State} (hn : s.cfg.nmax ≤ 1023) (n : Nat) (points lam : List Nat) :
    (s.setErrors (s.cfg.field.errorPositions s.cfg.nmax n points lam)).ErrorsCounted := by
  refine ⟨hn, fun i hi => ?_, ?_⟩
  · have hi : s.cfg.nmax ≤ i := hi
    rw [FieldDesc.errorPositions, errBit_setErrors_filter hn, decide_eq_false_iff_not]
    intro hmem
    have hlt := List.mem_range.mp (List.mem_filter.mp hmem).1
    omega
  · exact (nerr_setErrors_filter hn).trans (congrArg List.length (filter_errBit_setErrors (s := s) hn).symm)

theorem errorsCounted_runOf {i : Instr} {s u : State} (hrun : runOf i s = .ok u) (h : s.ErrorsCounted) :
    u.ErrorsCounted := by
  have hn : s.cfg.nmax ≤ 1023 := h.1
  cases i with
  | nop =>
    cases hrun
    exact h
  | encode =>
    obtain ⟨-, _, _, -, -, rfl⟩ := runEncode_eq_ok hrun
    exact errorsCounted_congr rfl rfl rfl h
  | weights =>
    obtain ⟨-, _, _, -, -, rfl⟩ := runWeights_eq_ok hrun
    exact errorsCounted_congr rfl rfl rfl h
  | syndrome =>
    obtain ⟨-, _, _, wc, -, -, -, rfl⟩ := runSyndrome_eq_ok hrun
    exact errorsCounted_congr (commitIfComputed_cfg s wc) (commitIfComputed_errmap s wc) (commitIfComputed_nerr s wc) h
  | bmsyn =>
    obtain ⟨-, _, _, -, -, rfl⟩ := runBmsyn_eq_ok hrun
    exact errorsCounted_congr rfl rfl rfl h
  | roots =>
    obtain ⟨-, points, lam, -, -, rfl⟩ := runRoots_eq_ok hrun
    exact errorsCounted_setErrors hn _ points lam
  | recover =>
    obtain ⟨-, _, _, _, -, -, -, rfl⟩ := runRecover_eq_ok hrun
    exact errorsCounted_congr rfl rfl rfl h
  | decode =>
    obtain ⟨-, r, points, wc, d, -, -, -, hd, rfl⟩ := runDecode_eq_ok hrun
    obtain ⟨-, -, herrors, -⟩ := decodeStages_eq_ok hd
    have hset : (s.setErrors d.errors).ErrorsCounted := herrors ▸ errorsCounted_setErrors hn _ points _
    exact errorsCounted_congr (s := s.setErrors d.errors) (commitDecode_cfg s wc d) (commitDecode_errmap s wc d)
      (commitDecode_nerr s wc d) hset

theorem errorsCounted_hostEffect {s t : State} (h : HostEffect s t) (hs : s.ErrorsCounted) : t.ErrorsCounted := by
  cases h <;> exact errorsCounted_congr rfl rfl rfl hs

/-- After reset the set is empty (R54). -/
theorem errorsCounted_resetOf {c : Config} (hn : c.nmax ≤ 1023) : (State.resetOf c).ErrorsCounted := by
  have hbit (i : Nat) : (State.resetOf c).errBit i = false := BitVec.getLsbD_zero
  refine ⟨hn, fun i _ => hbit i, ?_⟩
  rw [List.filter_eq_nil_iff.mpr fun i _ => by simp [hbit]]
  rfl

theorem errorsCounted_invariant : StepInvariant State.ErrorsCounted where
  core h hs := errorsCounted_congr h.cfg h.errmap h.nerr hs
  host h hs := errorsCounted_hostEffect h hs
  commit {_ u _} _ hrun hs := errorsCounted_congr (s := u) rfl rfl rfl (errorsCounted_runOf hrun hs)
  abort {s _} _ hs := errorsCounted_congr (s := s) rfl rfl rfl hs
  reset hs := errorsCounted_resetOf hs.1

/-- Settles O55: ROOTS and DECODE set ERRMAP and NERR together, from positions below NMAX. -/
theorem stepKeepsErrorsCounted : Obligations.StepKeepsErrorsCounted := fun _ _ h hs =>
  errorsCounted_invariant.step h hs

/-! Reset. -/

theorem inv_resetOf {c : Config} (hc : c.Valid) : (State.resetOf c).Inv :=
  ⟨⟨nofun, nofun, Nat.zero_le 4⟩, memoryForm_resetOf hc, weightsCached_resetOf hc, errorsCounted_resetOf hc.2.2,
    synthBounded_resetOf hc⟩

theorem referenceConfig_valid : referenceConfig.Valid :=
  ⟨⟨by decide, show Nat.Prime 31 by norm_num⟩, by decide, by decide⟩

/-- Settles O51: each invariant holds right after reset, and the model's own parameters are allowed ones. -/
theorem resetMeetsInvariants : Obligations.ResetMeetsInvariants :=
  ⟨fun _ => inv_resetOf, inv_resetOf referenceConfig_valid⟩

end Sys2Proof.Proofs
end
